-- ==== Sys2Proof/Word.lean ====
section
/-! DEFINITION. The word types of the notation (spec/00_scope.md R10): `u8` and `u16`. A `u1` is a `Bool`
(1 is `true`), a `u2` a `BitVec 2`. -/

namespace Sys2Proof

/-- A value of width `u8`. -/
abbrev U8 := BitVec 8

/-- A value of width `u16` (or the 16-bit pattern of an `i16`). -/
abbrev U16 := BitVec 16

end Sys2Proof
end

