-- ==== Sys2Proof/Config.lean ====
section
/-! DEFINITION. The implementation parameters (spec/00_scope.md R6, R7; spec/92_eei_decisions.md, open parameters).
The frame layout record of R9 stands in Machine/Frame.lean. -/

namespace Sys2Proof.Config

/-- `N_PORTS`, the physical ports of a node: north, east and south (R6). -/
abbrev nPorts : Nat := 3

/-- `CAP`, the slots of a snapshot ring: 29 (R6). Log entry 17. -/
abbrev cap : Nat := 29

/-- `BUF_BYTES`, the bytes of a PortBuffer: 9 (R6). -/
abbrev bufBytes : Nat := 9

/-- `BUF_BITS`, the bits of a PortBuffer: 8 x `BUF_BYTES` (R6). -/
abbrev bufBits : Nat := 8 * bufBytes

/-- `TS_BITS`, the width of the free-running counter and of a timestamp: 16 (R6). -/
abbrev tsBits : Nat := 16

/-- `PHASE_BITS`, the width of the phase counter: 8 (R6, D20). -/
abbrev phaseBits : Nat := 8

/-- `HC_BITS`, the width of the half-cycle counter: 8 (R6, D20). -/
abbrev hcBits : Nat := 8

/-- `SNAP_PACKED`, at the spec's default, false (R6, D17). Both forms are modelled in `snapMakeWith`.
DESIGN CHOICE, log entry 2. -/
def snapPacked : Bool := false

/-- `DEFAULT_CLOCK_DELAY`, left open by R7; 1000 is the value of every vector of spec/95_test_vectors.md.
DESIGN CHOICE, unsafe, log entry 1. -/
def defaultClockDelay : BitVec tsBits := 1000#16

/-- `SHORT_PCT` (R7). Log entry 17. -/
abbrev shortPct : Nat := 59

/-- `LONG_PCT` (R7). Log entry 17. -/
abbrev longPct : Nat := 112

/-- `TIMEOUT_FACTOR` (R7). -/
abbrev timeoutFactor : Nat := 2

/-- `PENDING_LATCH` for pin changes (R157, N10): whether an edge that falls while interrupts are masked is remembered.
The spec leaves it open, so nothing here says which. DESIGN CHOICE, safe, log entry 3. -/
opaque latchEdges : Bool

/-- `PENDING_LATCH` for the compare match (R157, N10): whether a match that falls while interrupts are masked is
remembered. DESIGN CHOICE, safe, log entry 3. -/
opaque latchMatch : Bool

end Sys2Proof.Config

namespace Sys2Proof

/-- A value of the counter, and what is added to one or compared with one: a timestamp, a clock delay, a clock shift (its
two's complement pattern) (R6, R12). -/
abbrev Ts := BitVec Config.tsBits

/-- A value of the phase counter (R6). -/
abbrev Phase := BitVec Config.phaseBits

/-- A value of the half-cycle counter (R6). -/
abbrev HalfCycles := BitVec Config.hcBits

end Sys2Proof
end

