-- ==== Sys2Proof/Machine/Frame.lean ====
section
/-! DEFINITION. The frame layout record (spec/00_scope.md R9): the header fields, the parity polarity, and for each of the ten
package variants its type identifier, range flag, length and field table (spec/30_encoding.md R55 to R68). Constructors and
interpreter read every position, width and value of a frame from `frameLayout`, so another layout is another record. -/

namespace Sys2Proof.Machine

/-- The ten package variants (R57). -/
inductive Variant where
  | header | ack | ackAddr | enumerate | syncTime | announceGeometry | setGeometry | heatWires | heatWiresRange
  | heatWiresMode
  deriving DecidableEq, Repr

/-- The fields of a frame: the four of the header (R55), then those of the tails (R60 to R67). -/
inductive FieldName where
  | start | id | range | bc
  | row | col | bcr | time | latency | stuffing | rows | cols | startTs | durLo | durHi | wires
  | tlRow | tlCol | brRow | brCol | mode
  deriving DecidableEq, Repr

/-- One field of a frame: its name, its first position and its width in bits. -/
structure Field where
  name : FieldName
  pos : Nat
  width : Nat
  deriving DecidableEq, Repr

/-- What a layout says of one variant: `TYPE_ID`, the range flag, `LEN` with parity, and the field table of the tail. -/
structure FrameRow where
  typeId : U16
  range : Bool
  len : Nat
  tail : List Field
  deriving DecidableEq, Repr

/-- A frame layout (spec/00_scope.md R9): the header fields, the value of the start bit, the parity polarity, and one row for
each variant. The parity bit is the last of the `LEN` bits and covers all before it (R56). -/
structure FrameLayout where
  header : List Field
  startValue : U16
  oddParity : Bool
  enumerate : FrameRow
  ack : FrameRow
  ackAddr : FrameRow
  syncTime : FrameRow
  announceGeometry : FrameRow
  setGeometry : FrameRow
  heatWires : FrameRow
  heatWiresRange : FrameRow
  heatWiresMode : FrameRow
  bareHeader : FrameRow
  deriving DecidableEq, Repr

/-- The row of a variant. -/
def FrameLayout.row (l : FrameLayout) : Variant → FrameRow
  | .enumerate => l.enumerate
  | .ack => l.ack
  | .ackAddr => l.ackAddr
  | .syncTime => l.syncTime
  | .announceGeometry => l.announceGeometry
  | .setGeometry => l.setGeometry
  | .heatWires => l.heatWires
  | .heatWiresRange => l.heatWiresRange
  | .heatWiresMode => l.heatWiresMode
  | .header => l.bareHeader

/-- The layout of the block: the spec's own reference layout (R55 to R67). Log entry 17. -/
def frameLayout : FrameLayout :=
  { header := [⟨.start, 0, 1⟩, ⟨.id, 1, 4⟩, ⟨.range, 5, 1⟩, ⟨.bc, 6, 1⟩]
    startValue := 1
    oddParity := false
    enumerate := { typeId := 0, range := false, len := 25, tail := [⟨.row, 7, 8⟩, ⟨.col, 15, 8⟩, ⟨.bcr, 23, 1⟩] }
    ack := { typeId := 1, range := false, len := 8, tail := [] }
    ackAddr := { typeId := 2, range := false, len := 24, tail := [⟨.row, 7, 8⟩, ⟨.col, 15, 8⟩] }
    syncTime :=
      { typeId := 3, range := false, len := 48, tail := [⟨.time, 7, 16⟩, ⟨.latency, 23, 16⟩, ⟨.stuffing, 39, 8⟩] }
    announceGeometry := { typeId := 4, range := false, len := 24, tail := [⟨.rows, 7, 8⟩, ⟨.cols, 15, 8⟩] }
    setGeometry := { typeId := 5, range := false, len := 24, tail := [⟨.rows, 7, 8⟩, ⟨.cols, 15, 8⟩] }
    heatWires :=
      { typeId := 6, range := false, len := 52
        tail :=
          [⟨.row, 7, 8⟩, ⟨.col, 15, 8⟩, ⟨.startTs, 23, 16⟩, ⟨.durLo, 39, 8⟩, ⟨.durHi, 47, 2⟩, ⟨.wires, 49, 2⟩] }
    heatWiresRange :=
      { typeId := 6, range := true, len := 68
        tail :=
          [⟨.tlRow, 7, 8⟩, ⟨.tlCol, 15, 8⟩, ⟨.brRow, 23, 8⟩, ⟨.brCol, 31, 8⟩, ⟨.startTs, 39, 16⟩, ⟨.durLo, 55, 8⟩,
            ⟨.durHi, 63, 2⟩, ⟨.wires, 65, 2⟩] }
    heatWiresMode := { typeId := 7, range := false, len := 10, tail := [⟨.mode, 7, 2⟩] }
    bareHeader := { typeId := 8, range := false, len := 8, tail := [] } }

/-- Every variant, in the order of R57. -/
def variants : List Variant :=
  [.enumerate, .ack, .ackAddr, .syncTime, .announceGeometry, .setGeometry, .heatWires, .heatWiresRange,
    .heatWiresMode, .header]

/-- `TYPE_ID`: the type identifier (R57). -/
def typeId (v : Variant) : U16 := (frameLayout.row v).typeId

/-- The header's range flag (R55, R57). -/
def rangeFlag (v : Variant) : Bool := (frameLayout.row v).range

/-- `LEN`: the frame length in bits, parity included (R57). -/
def frameLen (v : Variant) : Nat := (frameLayout.row v).len

/-- The field table of a frame's tail, after the header and before parity (R58 to R67). -/
def layout (v : Variant) : List Field := (frameLayout.row v).tail

/-- All fields of a frame. -/
def frameFields (v : Variant) : List Field := frameLayout.header ++ layout v

/-- The field of this name in a table. -/
def fieldNamed (fields : List Field) (name : FieldName) : Option Field := fields.find? fun f => f.name == name

/-- The field of a table that holds position `n`. -/
def fieldAt (fields : List Field) (n : Nat) : Option Field := fields.find? fun f => f.pos ≤ n && n < f.pos + f.width

/-- The width of a named field of variant `v`; 0 for a field it does not have. -/
def fieldWidth (v : Variant) (name : FieldName) : Nat :=
  match fieldNamed (layout v) name with
  | some f => f.width
  | none => 0

/-- `VALID_LEN`: the lengths of the variants (R68). -/
def validLengths : List Nat := variants.map frameLen

/-- The row of R57 with this `(id, range)`, if there is one. -/
def variantOf (id : Nat) (range : Bool) : Option Variant :=
  variants.find? fun v => (typeId v).toNat == id && rangeFlag v == range

/-- A package as PKT.INTERPRET returns it, with the fields of the table of spec/44_packetizer.md R135. SyncTime returns its
stuffing (R135); log entry 11. -/
inductive Package where
  | header
  | ack
  | ackAddr (row col : U8)
  | enumerate (row col : U8) (bcr : Bool)
  | syncTime (time latency : U16) (stuffing : U8)
  | announceGeometry (rows cols : U8)
  | setGeometry (rows cols : U8)
  | heatWires (row col : U8) (startTs duration : U16) (wires : BitVec 2)
  | heatWiresRange (tlRow tlCol brRow brCol : U8) (startTs duration : U16) (wires : BitVec 2)
  | heatWiresMode (mode : BitVec 2)
  deriving DecidableEq, Repr

/-- The reject codes of spec/60_exceptions.md R152. -/
inductive RejectCode where
  | overflowed | badLength | badStart | badType | lengthMismatch | badParity
  deriving DecidableEq, Repr

/-- The numbers of the reject codes (R152). -/
def RejectCode.code : RejectCode → U8
  | .overflowed => 1
  | .badLength => 2
  | .badStart => 3
  | .badType => 4
  | .lengthMismatch => 5
  | .badParity => 6

/-- The result of PKT.INTERPRET (spec/44_packetizer.md R136). -/
inductive Interpreted where
  | accept (bc : Bool) (pkg : Package)
  | reject (code : RejectCode)
  deriving DecidableEq, Repr

end Sys2Proof.Machine
end

