-- ==== Sys2Proof/Machine/Timing.lean ====
section
/-! DEFINITION. Counter arithmetic, the derived timing registers and the interval classes (spec/00_scope.md R7, R8,
R11, R12; spec/42_decoder.md R100; spec/45_config_system.md R146). -/

namespace Sys2Proof.Machine

/-- `sub16(later, earlier)`: the elapsed ticks on the wrapping counter (R11, R12). -/
def sub16 (later earlier : Ts) : Ts := later - earlier

/-- `add16(a, b)` (R11). -/
def add16 (a b : Ts) : Ts := a + b

/-- A clock delay that CFG.DELAY accepts: `2 ≤ D ≤ 32767` (R8). -/
def legalDelay (d : Ts) : Bool := 2 ≤ d.toNat && d.toNat ≤ 32767

/-- `half` of `derive` (R146). -/
def deriveHalf (d : Ts) : Ts := BitVec.ofNat Config.tsBits (d.toNat / 2)

/-- `short` of `derive` (R146). -/
def deriveShort (d : Ts) : Ts := BitVec.ofNat Config.tsBits (d.toNat * Config.shortPct / 100)

/-- `long` of `derive` (R146). -/
def deriveLong (d : Ts) : Ts := BitVec.ofNat Config.tsBits (d.toNat * Config.longPct / 100)

/-- `timeout_thr`, the end-of-package threshold, computed where used and not stored (R7, R24). -/
def timeoutThr (d : Ts) : Nat := Config.timeoutFactor * d.toNat

/-- The three classes of an interval between two edges (R100). -/
inductive Interval where
  | short | long | overdue
  deriving DecidableEq, Repr

/-- `classify(delta)` against the short and the long threshold, both inclusive and unsigned (R100). -/
def classify (shortThr longThr delta : Ts) : Interval :=
  if delta ≤ shortThr then .short else if delta ≤ longThr then .long else .overdue

end Sys2Proof.Machine
end

