-- ==== Sys2Proof/Syntax.lean ====
section
/-! DEFINITION. Ports, the 27 operations of spec/30_encoding.md R73 (one constructor per row of
spec/opcode_table.json), and the command word with its argument slots (R71, R72). -/

namespace Sys2Proof

/-- A physical port: north, east, south (spec/10_state.md R13). -/
inductive Port where
  | n | e | s
  deriving DecidableEq, Repr

/-- A port operand: a physical port, or `SIM`, the alias of east and south (R14). -/
inductive PortArg where
  | n | e | s | sim
  deriving DecidableEq, Repr

/-- The operations of R73, operands in slot order. A `u1` operand is a `Bool`. The port operand is always the 2-bit
field `pp`: an operation that does not accept `SIM` refuses it with `BAD_PORT` (R74). -/
inductive Instr where
  /-- SYS.RESET (R141). -/
  | sysReset
  /-- CFG.DELAY `d` (R142). -/
  | cfgDelay (d : Ts)
  /-- CFG.SHIFT `s` (R143), the pattern of an `i16`. -/
  | cfgShift (sh : Ts)
  /-- SYS.STATUS (R145). -/
  | sysStatus
  /-- SYS.IRQEN `e` (R144). -/
  | sysIrqen (en : Bool)
  /-- RX.EDGE `p, ts, rising` (R97). -/
  | rxEdge (p : PortArg) (ts : Ts) (rising : Bool)
  /-- RX.STEP `p, now` (R102). -/
  | rxStep (p : PortArg) (now : Ts)
  /-- RX.POLL `p, now` (R107). -/
  | rxPoll (p : PortArg) (now : Ts)
  /-- RX.CLEAR `p` (R108). -/
  | rxClear (p : PortArg)
  /-- RX.READ `p` (R109). -/
  | rxRead (p : PortArg)
  /-- PKT.INTERPRET `p` (R134). -/
  | pktInterpret (p : PortArg)
  /-- TX.ENABLE `p, now` (R115). -/
  | txEnable (p : PortArg) (now : Ts)
  /-- TX.TICK (R117). -/
  | txTick
  /-- TX.STATUS `p` (R118). -/
  | txStatus (p : PortArg)
  /-- TX.CLEAR `p` (R88). -/
  | txClear (p : PortArg)
  /-- TX.PUT `p, v, w` (R89); `w` is a whole slot, legal from 1 to 16. -/
  | txPut (p : PortArg) (v w : U16)
  /-- TX.SEAL `p` (R90). -/
  | txSeal (p : PortArg)
  /-- PKT.HEADER `p, bc` (R124). -/
  | pktHeader (p : PortArg) (bc : Bool)
  /-- PKT.ACK `p, bc` (R125). -/
  | pktAck (p : PortArg) (bc : Bool)
  /-- PKT.ACKADDR `p, row, col, bc` (R126). -/
  | pktAckaddr (p : PortArg) (row col : U8) (bc : Bool)
  /-- PKT.ENUM `p, row, col, bcr, bc` (R127). -/
  | pktEnum (p : PortArg) (row col : U8) (bcr bc : Bool)
  /-- PKT.SYNCTIME `p, time, latency, bc` (R128). -/
  | pktSynctime (p : PortArg) (time latency : U16) (bc : Bool)
  /-- PKT.ANNGEOM `p, rows, cols, bc` (R129). -/
  | pktAnngeom (p : PortArg) (rows cols : U8) (bc : Bool)
  /-- PKT.SETGEOM `p, rows, cols, bc` (R130). -/
  | pktSetgeom (p : PortArg) (rows cols : U8) (bc : Bool)
  /-- PKT.HEAT `p, row, col, start_ts, duration, wires, bc` (R131); of `duration` bits 9 to 0 are used. -/
  | pktHeat (p : PortArg) (row col : U8) (startTs duration : U16) (wires : BitVec 2) (bc : Bool)
  /-- PKT.HEATRNG `p, tl_row, tl_col, br_row, br_col, start_ts, duration, wires, bc` (R132). -/
  | pktHeatrng (p : PortArg) (tlRow tlCol brRow brCol : U8) (startTs duration : U16) (wires : BitVec 2) (bc : Bool)
  /-- PKT.HEATMODE `p, mode, bc` (R133). -/
  | pktHeatmode (p : PortArg) (mode : BitVec 2) (bc : Bool)
  deriving DecidableEq, Repr

/-- The input signals `cmd` and `arg0 .. arg7` (spec/10_state.md R30; R71, R72). -/
structure Command where
  cmd : U8
  arg0 : U16 := 0
  arg1 : U16 := 0
  arg2 : U16 := 0
  arg3 : U16 := 0
  arg4 : U16 := 0
  arg5 : U16 := 0
  arg6 : U16 := 0
  arg7 : U16 := 0
  deriving DecidableEq, Repr

end Sys2Proof
end

