-- ==== Sys2Proof/Machine/State.lean ====
section
/-! DEFINITION. The state of the block as plain data (spec/10_state.md R15 and the table of R31), its output signals
(R30), the inputs it waits for, the reasons a step can stop, and the state after reset. -/

namespace Sys2Proof.Machine

/-- One of each of the `N_PORTS` physical ports, in the order of the port numbers N = 0, E = 1, S = 2 (spec/10_state.md R13;
spec/00_scope.md R6). -/
structure PerPort (α : Type) where
  elem : Vector α Config.nPorts
  deriving DecidableEq, Repr

/-- The same element for every port. -/
def PerPort.fill {α : Type} (a : α) : PerPort α := { elem := Vector.replicate Config.nPorts a }

/-- Snapshot: captured counter value and pin level (R16). -/
structure Snapshot where
  ts : Ts
  rising : Bool
  deriving DecidableEq, Repr

/-- Snapshot ring buffer (R17, R21); an index is a number below `CAP`. -/
structure Ring where
  slot : Vector Snapshot Config.cap
  start : Fin Config.cap
  stop : Fin Config.cap
  overflowed : Bool
  deriving DecidableEq, Repr

/-- `dec.state` (R18). -/
inductive DecState where
  | start | decoding | postTimeoutProcess
  deriving DecidableEq, Repr

/-- Decoder working state (R18). -/
structure Decoder where
  state : DecState
  phase : Phase
  refTs : Ts
  halfCycles : HalfCycles
  deriving DecidableEq, Repr

/-- PortBuffer (R19); the cursor `ptr` is held as its position 0 .. 72 (R20). Log entry 9. -/
structure PortBuffer where
  bytes : Vector U8 Config.bufBytes
  pos : Fin (Config.bufBits + 1)
  overflowed : Bool
  deriving DecidableEq, Repr

/-- Receive port (R22). -/
structure RxPort where
  ring : Ring
  dec : Decoder
  buf : PortBuffer
  isDataBuffered : Bool
  deriving DecidableEq, Repr

/-- Transmit port (R23). -/
structure TxPort where
  buf : PortBuffer
  dataEnd : Fin (Config.bufBits + 1)
  isTransmitting : Bool
  secondHalf : Bool
  line : Bool
  deriving DecidableEq, Repr

/-- Configuration registers (R24). -/
structure Cfg where
  clockDelay : Ts
  halfDelay : Ts
  shortThr : Ts
  longThr : Ts
  txClockShift : Ts
  delayUpdateable : Bool
  shiftUpdateable : Bool
  deriving DecidableEq, Repr

/-- Status, fault and interrupt control registers (R25, R26). -/
structure Sys where
  fatal : Bool
  faultCause : BitVec 2
  faultPort : BitVec 2
  irqEn : Bool
  txCompare : Ts
  deriving DecidableEq, Repr

/-- What RX.STEP and RX.POLL return (spec/42_decoder.md R102). -/
inductive StepResult where
  | again | yield | done
  deriving DecidableEq, Repr

/-- The record a command returns beside its status (spec/30_encoding.md R79; for RX.STEP and RX.POLL, R102). -/
inductive Record where
  | none
  | sysStatus (flags : U8) (clockDelay halfDelay shortThr longThr txClockShift txCompare : Ts)
  | rxRead (bytes : Vector U8 Config.bufBytes) (nbits : Nat) (flags : U8) (halfCycles : HalfCycles) (count : Nat)
  | txStatus (bytes : Vector U8 Config.bufBytes) (pos dataEnd : Nat) (flags : U8)
  | interpreted (r : Interpreted)
  | stepped (r : StepResult)
  deriving DecidableEq, Repr

/-- The outputs that no state element gives (spec/10_state.md R30): the status and record of the last command, and the
`rx_done` strobe of the last step. Log entry 6. -/
structure Out where
  status : U8
  rdata : Record
  rxDone : Option Port
  deriving DecidableEq, Repr

/-- One input of the block (R30): a command word with its arguments (a host command, or an event word of a trace, R71);
a pin change of a receive line with the counter value its handler captures and the level it reads (R155); the
counter reaching a value (R156); the `reset` input (R171). -/
inductive Input where
  | command (c : Command)
  | pinChange (p : Port) (ts : Ts) (level : Bool)
  | counter (tcnt : Ts)
  | resetPin
  deriving DecidableEq, Repr

/-- What stands outside the block (R29): the inputs still to come, oldest first, and the platform's pending interrupts
(spec/60_exceptions.md R157). Log entries 3, 4. -/
structure Env where
  inputs : List Input
  pendingEdge : PerPort (Option Snapshot)
  pendingTick : Bool
  deriving DecidableEq, Repr

/-- The machine: the block's elements (R15), its outputs and its environment. -/
structure State where
  rx : PerPort RxPort
  tx : PerPort TxPort
  cfg : Cfg
  sys : Sys
  out : Out
  env : Env
  deriving DecidableEq, Repr

/-- Why a step stops with a fault. -/
inductive Fault where
  /-- Raised by TX.TICK when it would read the transmit buffer of port `p` at position 72, which addresses nothing
  (spec/20_memory.md R33; spec/40_buffer_ops.md R85: no rule makes that read). Safe: no reachable state raises it. Log
  entry 10. -/
  | readAtEnd (p : Port)
  deriving DecidableEq, Repr

/-- Why a step is refused. A command that the spec refuses (R153) is NOT one of these: it is a next state with its
status output written. -/
inductive Refusal where
  /-- Raised by an arm of `exec` whose operation has no meaning in the model; no arm does. Safe. -/
  | notModelled (mnemonic : String)
  deriving DecidableEq, Repr

/-- The value of a PortBuffer after reset (R31). -/
def PortBuffer.reset : PortBuffer :=
  { bytes := Vector.replicate Config.bufBytes 0, pos := 0, overflowed := false }

/-- The value of a receive port after reset (R31). -/
def RxPort.reset : RxPort :=
  { ring := { slot := Vector.replicate Config.cap ⟨0, false⟩, start := 0, stop := 0, overflowed := false }
    dec := { state := .start, phase := 0, refTs := 0, halfCycles := 0 }
    buf := PortBuffer.reset
    isDataBuffered := false }

/-- The value of a transmit port after reset (R31). -/
def TxPort.reset : TxPort :=
  { buf := PortBuffer.reset, dataEnd := 0, isTransmitting := false, secondHalf := false, line := true }

/-- The machine right after reset (R31); `clock_delay` is `DEFAULT_CLOCK_DELAY` (log entry 1), the outputs and the
environment are empty (log entries 4, 6). -/
def State.reset : State :=
  { rx := PerPort.fill RxPort.reset
    tx := PerPort.fill TxPort.reset
    cfg :=
      { clockDelay := Config.defaultClockDelay
        halfDelay := deriveHalf Config.defaultClockDelay
        shortThr := deriveShort Config.defaultClockDelay
        longThr := deriveLong Config.defaultClockDelay
        txClockShift := 0
        delayUpdateable := true
        shiftUpdateable := true }
    sys := { fatal := false, faultCause := 0, faultPort := 0, irqEn := false, txCompare := 0 }
    out := { status := 0, rdata := .none, rxDone := none }
    env := { inputs := [], pendingEdge := PerPort.fill none, pendingTick := false } }

end Sys2Proof.Machine
end

