-- ==== Sys2Proof/Machine/Ops.lean ====
section
/-! DEFINITION. The named operations over ports, PortBuffers and rings (spec/40_buffer_ops.md R80 to R86;
spec/41_rx_capture.md R92 to R96), how a command ends (spec/60_exceptions.md R153; spec/30_encoding.md R79), and taking
the fatal fault with the one way out of it (R149, R150, R161). -/

namespace Sys2Proof.Machine

/-! ### Ports -/

/-- The index of a port among the `N_PORTS` ports (spec/10_state.md R13). -/
def portIndex : Port → Fin Config.nPorts
  | .n => 0
  | .e => 1
  | .s => 2

/-- The physical ports, in the order north, east, south. -/
def allPorts : List Port := [.n, .e, .s]

/-- The element of port `p`. -/
def PerPort.get {α : Type} (x : PerPort α) (p : Port) : α := x.elem[portIndex p]

/-- The element of port `p` replaced, the others kept. -/
def PerPort.set {α : Type} (x : PerPort α) (p : Port) (a : α) : PerPort α :=
  { elem := x.elem.set (portIndex p).val a (portIndex p).isLt }

/-- `rx[p]`. -/
def State.rxPort (s : State) (p : Port) : RxPort := s.rx.get p

/-- `tx[p]`. -/
def State.txPort (s : State) (p : Port) : TxPort := s.tx.get p

/-- `rx[p] <- r`. -/
def State.setRx (s : State) (p : Port) (r : RxPort) : State := { s with rx := s.rx.set p r }

/-- `tx[p] <- t`. -/
def State.setTx (s : State) (p : Port) (t : TxPort) : State := { s with tx := s.tx.set p t }

/-- The port numbers `N = 0`, `E = 1`, `S = 2` as a `u2` (spec/10_state.md R13, R25). -/
def Port.number : Port → BitVec 2
  | .n => 0
  | .e => 1
  | .s => 2

/-! ### BitPointer (spec/10_state.md R20; spec/30_encoding.md R53; spec/40_buffer_ops.md R81) -/

/-- `ptr_at(n)` as the storage word: `byte_index` and `bit_mask` of position `n`. -/
def ptrAt (n : Nat) : U8 × U8 := (BitVec.ofNat 8 (n / 8), 1#8 <<< (n % 8))

/-- `pos(ptr)`: 8 times the byte index plus the number of the mask's lowest set bit. -/
def posOf (ptr : U8 × U8) : Nat :=
  8 * ptr.1.toNat + ((List.range 8).find? fun k => ptr.2.getLsbD k).getD 0

/-! ### PortBuffer -/

/-- `ptr_start(B)` (R80). -/
def ptrStart (b : PortBuffer) : PortBuffer := { b with pos := 0 }

/-- `ptr_inc(B)`: one bit on, stopping at position 72 (R82). -/
def ptrInc (b : PortBuffer) : PortBuffer :=
  if h : b.pos.val < Config.bufBits then { b with pos := ⟨b.pos.val + 1, Nat.succ_lt_succ h⟩ } else b

/-- `buf_clear(B)` (R83). -/
def bufClear (_b : PortBuffer) : PortBuffer :=
  { bytes := Vector.replicate Config.bufBytes 0, pos := 0, overflowed := false }

/-- A byte with the bit of mask `1 << k` set for 1 and cleared for 0 (R84). -/
def writeBit (y : U8) (k : Nat) (v : Bool) : U8 :=
  if v then y ||| (1#8 <<< k) else y &&& ~~~(1#8 <<< k)

/-- The bytes with the bit at position `n` written (R34, R84); a position past the last byte writes nothing. -/
def writeBytes (bytes : Vector U8 Config.bufBytes) (n : Nat) (v : Bool) : Vector U8 Config.bufBytes :=
  if h : n / 8 < Config.bufBytes then bytes.set (n / 8) (writeBit bytes[n / 8] (n % 8) v) else bytes

/-- `buf_put(B, v)`: the buffer after it (R84). -/
def bufPut (b : PortBuffer) (v : Bool) : PortBuffer :=
  if b.pos.val = Config.bufBits then { b with overflowed := true }
  else ptrInc { b with bytes := writeBytes b.bytes b.pos.val v }

/-- What `buf_put(B, v)` returns: whether the bit was stored (R84). -/
def bufPutStored (b : PortBuffer) : Bool := b.pos.val != Config.bufBits

/-- `buf_get(B, n)`: bit `n mod 8` of byte `n / 8` (R85). No rule calls it with `n ≥ 72`. -/
def bufGet (b : PortBuffer) (n : Nat) : Bool := (b.bytes[n / 8]?.getD 0).getLsbD (n % 8)

/-- The low `w` bits of `v`, least significant first (R35, R69, R86). -/
def fieldBits (v : U16) (w : Nat) : List Bool := (List.range w).map v.getLsbD

/-- Bits appended one after another at the cursor (R84). -/
def putBits (b : PortBuffer) (bits : List Bool) : PortBuffer := bits.foldl bufPut b

/-- `put_field(B, v, w)`: the buffer after it (R86). -/
def putField (b : PortBuffer) (v : U16) (w : Nat) : PortBuffer := putBits b (fieldBits v w)

/-- Whether every one of these bits, appended one after another at the cursor, was stored (R84). -/
def putBitsStored (b : PortBuffer) : List Bool → Bool
  | [] => true
  | v :: bits => bufPutStored b && putBitsStored (bufPut b v) bits

/-- What `put_field(B, v, w)` returns: whether every bit was stored (R86). -/
def putFieldStored (b : PortBuffer) (v : U16) (w : Nat) : Bool := putBitsStored b (fieldBits v w)

/-- The unsigned number of a list of bits, least significant first (spec/30_encoding.md R69). -/
def bitsValue : List Bool → Nat
  | [] => 0
  | b :: bs => b.toNat + 2 * bitsValue bs

/-- `get_field(B, n, w)` (spec/44_packetizer.md R135). -/
def getField (b : PortBuffer) (n w : Nat) : Nat := bitsValue ((List.range w).map fun k => bufGet b (n + k))

/-! ### Snapshots and the ring -/

/-- `snap_make(ts, rising)` for either value of `SNAP_PACKED` (R96). -/
def snapMakeWith (packed : Bool) (ts : Ts) (rising : Bool) : Snapshot :=
  if packed then { ts := ts &&& ~~~1, rising } else { ts, rising }

/-- `snap_make(ts, rising)` (R96). -/
def snapMake (ts : Ts) (rising : Bool) : Snapshot := snapMakeWith Config.snapPacked ts rising

/-- The 16-bit word of a snapshot stored packed: bits 15 to 1 of the timestamp, the level in bit 0 (R52). -/
def snapWord (sn : Snapshot) : Ts := (sn.ts &&& ~~~1) ||| (if sn.rising then 1 else 0)

/-- The snapshot the decoder reads from a packed word (R52). -/
def snapOfWord (w : Ts) : Snapshot := { ts := w &&& ~~~1, rising := w.getLsbD 0 }

/-- An index reduced mod `CAP` (R38). -/
def ringIndex (k : Nat) : Fin Config.cap := ⟨k % Config.cap, Nat.mod_lt _ (by decide)⟩

/-- `(i + 1) mod CAP`. -/
def ringNext (i : Fin Config.cap) : Fin Config.cap := ringIndex (i.val + 1)

/-- `ring_empty(Q)` (R92). -/
def ringEmpty (q : Ring) : Bool := q.start = q.stop

/-- `ring_count(Q)` (R92). -/
def ringCount (q : Ring) : Nat := (q.stop.val + Config.cap - q.start.val) % Config.cap

/-- `ring_full(Q)` (R92). -/
def ringFull (q : Ring) : Bool := ringNext q.stop = q.start

/-- What `ring_enqueue(Q, s)` returns: whether the snapshot was queued (R93). -/
def ringEnqueueStored (q : Ring) : Bool := !ringFull q

/-- `ring_enqueue(Q, s)`: the ring after it (R93). -/
def ringEnqueue (q : Ring) (sn : Snapshot) : Ring :=
  if ringFull q then { q with overflowed := true }
  else { q with slot := q.slot.set q.stop.val sn q.stop.isLt, stop := ringNext q.stop }

/-- `ring_peek(Q)` (R95), used only when the ring is not empty. -/
def ringPeek (q : Ring) : Snapshot := q.slot[q.start.val]

/-- `ring_dequeue(Q)`: the ring after it (R94), used only when the ring is not empty. -/
def ringDequeue (q : Ring) : Ring := { q with start := ringNext q.start }

/-- The queued snapshots, oldest first (spec/10_state.md R17). -/
def ringQueue (q : Ring) : List Snapshot :=
  (List.range (ringCount q)).map fun k => q.slot[(ringIndex (q.start.val + k)).val]

/-! ### How a command ends -/

/-- The refusal reasons of R153. -/
inductive Reason where
  | halted | illegalCommand | badPort | busy | notStaged | txOverflowed | badOperand | rangeOrder | notBuffered
  deriving DecidableEq, Repr

/-- The status code of a refusal (R153); 0 is done. -/
def Reason.code : Reason → U8
  | .halted => 1
  | .illegalCommand => 2
  | .badPort => 3
  | .busy => 4
  | .notStaged => 5
  | .txOverflowed => 6
  | .badOperand => 7
  | .rangeOrder => 8
  | .notBuffered => 9

/-- The status and record outputs of a command, written (R79). -/
def State.answer (s : State) (status : U8) (r : Record) : State :=
  { s with out := { s.out with status := status, rdata := r } }

/-- `refuse(reason)`: no state element changes, the status output is the reason's code (R153). -/
def refuse (r : Reason) (s : State) : Host.Outcome State Fault Refusal := .next (s.answer r.code .none)

/-- A command is done: status 0 and its record (R79). -/
def finish (r : Record) (s : State) : Host.Outcome State Fault Refusal := .next (s.answer 0 r)

/-- `require c` (spec/00_scope.md R11): refused with `r` where `c` is false, else go on. -/
def require (c : Bool) (r : Reason) (s : State) (k : Host.Outcome State Fault Refusal) :
    Host.Outcome State Fault Refusal :=
  if c then k else refuse r s

/-! ### The fatal fault -/

/-- The fatal causes of R151. -/
inductive Cause where
  | ringOverflow | bitbufOverflow
  deriving DecidableEq, Repr

/-- The codes of the fatal causes (R151). -/
def Cause.code : Cause → BitVec 2
  | .ringOverflow => 1
  | .bitbufOverflow => 2

/-- `raise Fatal(cause, p)` (R149): the first fault's cause and port are kept, the latch is set, nothing else is written
and nothing is vectored (R161); the operation that raised it goes on. -/
def raiseFatal (c : Cause) (p : Port) (s : State) : State :=
  { s with
    sys :=
      { s.sys with
        fatal := true
        faultCause := if s.sys.fatal then s.sys.faultCause else c.code
        faultPort := if s.sys.fatal then s.sys.faultPort else Port.number p } }

/-- Reset, the only exit from the halt (R150, R161; spec/45_config_system.md R141; spec/70_reset_and_hazards.md R172): every
element takes its reset value; what stands outside the block is not reset (R173). Log entry 12. -/
def resetBlock (s : State) : State := { State.reset with env := s.env }

end Sys2Proof.Machine
end

