-- ==== Sys2Proof/Machine/Operands.lean ====
section
/-! DEFINITION. Port operands: the physical port of a receive-side operand, the ports a transmit-side operand stands for
(spec/43_encoder_tx.md R114), and the precondition of the staging operations (spec/40_buffer_ops.md R91). -/

namespace Sys2Proof.Machine

/-- The physical port an operand names; `SIM` names none (spec/10_state.md R14). -/
def physical : PortArg → Option Port
  | .n => some .n
  | .e => some .e
  | .s => some .s
  | .sim => none

/-- The operand that names a physical port. -/
def argOf : Port → PortArg
  | .n => .n
  | .e => .e
  | .s => .s

/-- `targets(p)` (R114). -/
def targets : PortArg → List Port
  | .n => [.n]
  | .e => [.e]
  | .s => [.s]
  | .sim => [.e, .s]

/-- An operation that accepts only N, E and S: `SIM` is refused with `BAD_PORT` before any other check (R74, R153). -/
def onPhysical (p : PortArg) (s : State) (k : Port → Host.Outcome State Fault Refusal) :
    Host.Outcome State Fault Refusal :=
  match physical p with
  | some q => k q
  | none => refuse .badPort s

/-- No target port is transmitting (R91, R115). -/
def targetsIdle (p : PortArg) (s : State) : Bool := (targets p).all fun q => !(s.txPort q).isTransmitting

/-- `f` applied to every target port, in the order of `targets(p)` (R14). -/
def updateTargets (p : PortArg) (f : TxPort → TxPort) (s : State) : State :=
  (targets p).foldl (fun t q => t.setTx q (f (t.txPort q))) s

/-- The width operand TX.PUT accepts: 1 .. 16 (spec/40_buffer_ops.md R89). -/
def putWidthOk (w : U16) : Bool := 1 ≤ w.toNat && w.toNat ≤ 16

/-- `tx_stage_ok(p)`, then `k` (R91). -/
def staging (p : PortArg) (s : State) (k : Host.Outcome State Fault Refusal) : Host.Outcome State Fault Refusal :=
  require (!s.sys.fatal) .halted s <| require (targetsIdle p s) .busy s k

end Sys2Proof.Machine
end

