-- ==== Sys2Proof/Machine/Flags.lean ====
section
/-! DEFINITION. Parity, the interrupt enables and the flag bytes of the read-out records (spec/40_buffer_ops.md R87;
spec/43_encoder_tx.md R122; spec/30_encoding.md R54, R79), and the output signals of spec/10_state.md R30. -/

namespace Sys2Proof.Machine

/-- `parity_of(B, n)`: the exclusive or of the first `n` bits (R87). -/
def parityOf (b : PortBuffer) (n : Nat) : Bool := (List.range n).foldl (fun a k => a ^^ bufGet b k) false

/-- The parity bit of the first `n` bits, in the layout's polarity: even, `parity_of(B, n)` (spec/30_encoding.md R56; R90). -/
def parityBit (b : PortBuffer) (n : Nat) : Bool := parityOf b n ^^ frameLayout.oddParity

/-- `tx_irq_enable`, not stored (R26, R122). -/
def txIrqEnable (s : State) : Bool :=
  (s.txPort .n).isTransmitting || (s.txPort .e).isTransmitting || (s.txPort .s).isTransmitting

/-- The 2-bit code of `dec.state` (R54). -/
def decStateCode : DecState → BitVec 2
  | .start => 0
  | .decoding => 1
  | .postTimeoutProcess => 2

/-- A byte with bit `k` at `b`. -/
def flagAt (k : Nat) (b : Bool) : U8 := if b then 1#8 <<< k else 0

/-- The byte of SYS.STATUS (R79). -/
def sysFlags (s : State) : U8 :=
  flagAt 0 s.sys.fatal ||| (s.sys.faultCause.setWidth 8 <<< 1) ||| (s.sys.faultPort.setWidth 8 <<< 3) |||
    flagAt 5 s.sys.irqEn ||| flagAt 6 s.cfg.delayUpdateable ||| flagAt 7 s.cfg.shiftUpdateable

/-- The flag byte of RX.READ (R79). -/
def rxFlags (r : RxPort) : U8 :=
  flagAt 0 r.isDataBuffered ||| flagAt 1 r.buf.overflowed ||| flagAt 2 r.ring.overflowed |||
    ((decStateCode r.dec.state).setWidth 8 <<< 3)

/-- The flag byte of TX.STATUS (R79). -/
def txFlags (t : TxPort) : U8 :=
  flagAt 0 t.isTransmitting ||| flagAt 1 t.buf.overflowed ||| flagAt 2 t.secondHalf ||| flagAt 3 t.line

/-- The record of SYS.STATUS (R79, R145). -/
def sysRecord (s : State) : Record :=
  .sysStatus (sysFlags s) s.cfg.clockDelay s.cfg.halfDelay s.cfg.shortThr s.cfg.longThr s.cfg.txClockShift
    s.sys.txCompare

/-- The record of RX.READ (R79, R109). -/
def rxRecord (r : RxPort) : Record :=
  .rxRead r.buf.bytes r.buf.pos.val (rxFlags r) r.dec.halfCycles (ringCount r.ring)

/-- The record of TX.STATUS (R79, R118). -/
def txRecord (t : TxPort) : Record := .txStatus t.buf.bytes t.buf.pos.val t.dataEnd.val (txFlags t)

/-! ### Output signals (R30) -/

/-- `tx_line[p]`. -/
def txLine (s : State) (p : Port) : Bool := (s.txPort p).line

/-- The output `is_transmitting[p]`. -/
def isTransmittingOut (s : State) (p : Port) : Bool := (s.txPort p).isTransmitting

/-- The output `is_data_buffered[p]`. -/
def isDataBufferedOut (s : State) (p : Port) : Bool := (s.rxPort p).isDataBuffered

/-- The output `fatal` (R169). -/
def fatalOut (s : State) : Bool := s.sys.fatal

/-- The strobe `rx_done(p)`. -/
def rxDoneOut (s : State) (p : Port) : Bool := s.out.rxDone = some p

end Sys2Proof.Machine
end

