-- ==== Sys2Proof/Machine/Capture.lean ====
section
/-! DEFINITION. Edge capture (spec/41_rx_capture.md R97). -/

namespace Sys2Proof.Machine

/-- The snapshot queued on port `q`, or the edge dropped and the fatal fault taken when its ring is full (R93, R97). -/
def captureEdge (q : Port) (ts : Ts) (rising : Bool) (s : State) : State :=
  let r := s.rxPort q
  let s' := s.setRx q { r with ring := ringEnqueue r.ring (snapMake ts rising) }
  if ringEnqueueStored r.ring then s' else raiseFatal .ringOverflow q s'

/-- RX.EDGE (R97), as delivered: masking by `sys.irq_en` is the business of delivery (R157; Machine/Fetch.lean, log entry
5). The word with `pp = 3` is refused (R74; log entry 7). While halted nothing changes. -/
def execRxEdge (p : PortArg) (ts : Ts) (rising : Bool) (s : State) : Host.Outcome State Fault Refusal :=
  onPhysical p s fun q => .next (if s.sys.fatal then s else captureEdge q ts rising s)

end Sys2Proof.Machine
end

