-- ==== Sys2Proof/Machine/Staging.lean ====
section
/-! DEFINITION. The generic staging operations (spec/40_buffer_ops.md R88 to R91). -/

namespace Sys2Proof.Machine

/-- What TX.CLEAR does to one target port (R88). -/
def clearPort (t : TxPort) : TxPort := { t with buf := bufClear t.buf, dataEnd := 0 }

/-- What TX.PUT does to one target port (R89). -/
def putPort (v : U16) (w : Nat) (t : TxPort) : TxPort := { t with buf := putField t.buf v w, dataEnd := 0 }

/-- What TX.SEAL does to one target port: parity of the bits staged, then the end of data (R90). -/
def sealPort (t : TxPort) : TxPort :=
  let buf := bufPut t.buf (parityBit t.buf t.buf.pos.val)
  { t with buf := buf, dataEnd := buf.pos }

/-- TX.CLEAR (R88). -/
def execTxClear (p : PortArg) (s : State) : Host.Outcome State Fault Refusal :=
  staging p s <| finish .none (updateTargets p clearPort s)

/-- TX.PUT (R89). -/
def execTxPut (p : PortArg) (v w : U16) (s : State) : Host.Outcome State Fault Refusal :=
  staging p s <|
    require (putWidthOk w) .badOperand s <|
      finish .none (updateTargets p (putPort v w.toNat) s)

/-- TX.SEAL (R90). -/
def execTxSeal (p : PortArg) (s : State) : Host.Outcome State Fault Refusal :=
  staging p s <| finish .none (updateTargets p sealPort s)

end Sys2Proof.Machine
end

