-- ==== Sys2Proof/Machine/Packetizer.lean ====
section
/-! DEFINITION. The frame packetizer: the ten constructors and the interpreter (spec/44_packetizer.md). -/

namespace Sys2Proof.Machine

/-- A flag as a field value. -/
def flagValue (b : Bool) : U16 := if b then 1 else 0

/-- The values of a frame's fields by name: those of the header that `pkt_begin` puts (R55, R123), then the tail's. -/
def frameValues (v : Variant) (bc : Bool) (values : List (FieldName × U16)) : List (FieldName × U16) :=
  [(.start, frameLayout.startValue), (.id, typeId v), (.range, flagValue (rangeFlag v)), (.bc, flagValue bc)] ++ values

/-- The bit of a frame at position `n`: the bit of the field that holds it, at its place in the field, least significant first
(spec/20_memory.md R35; spec/30_encoding.md R69); a position that no field holds is 0. -/
def frameBit (v : Variant) (values : List (FieldName × U16)) (n : Nat) : Bool :=
  match fieldAt (frameFields v) n with
  | some f => ((values.lookup f.name).getD 0).getLsbD (n - f.pos)
  | none => false

/-- The bits of a frame without its parity bit, from position 0: every field at its position, reduced to its width (R69, R123). In
the reference layout they are the `put_field`s of R123 one after another (`frameBits` lemmas of Laws/Packetizer.lean). -/
def frameBits (v : Variant) (bc : Bool) (values : List (FieldName × U16)) : List Bool :=
  (List.range (frameLen v - 1)).map (frameBit v (frameValues v bc values))

/-- `pkt_begin`, the fields, `pkt_end`, on one target port: cleared, filled and sealed in one step (R123). -/
def stageFrame (v : Variant) (bc : Bool) (values : List (FieldName × U16)) (t : TxPort) : TxPort :=
  let t0 := clearPort t
  sealPort { t0 with buf := putBits t0.buf (frameBits v bc values) }

/-- A constructor without its preconditions: the frame staged on every target port (R123). -/
def stagePackage (p : PortArg) (v : Variant) (bc : Bool) (values : List (FieldName × U16)) (s : State) :
    Host.Outcome State Fault Refusal :=
  finish .none (updateTargets p (stageFrame v bc values) s)

/-- The high remainder of a duration, above the bits its low field carries (R131, R138). -/
def durHi (v : Variant) (duration : U16) : U16 := duration >>> fieldWidth v .durLo

/-- PKT.HEADER (R124). -/
def execPktHeader (p : PortArg) (bc : Bool) (s : State) : Host.Outcome State Fault Refusal :=
  staging p s <| stagePackage p .header bc [] s

/-- PKT.ACK (R125). -/
def execPktAck (p : PortArg) (bc : Bool) (s : State) : Host.Outcome State Fault Refusal :=
  staging p s <| stagePackage p .ack bc [] s

/-- PKT.ACKADDR (R126). -/
def execPktAckaddr (p : PortArg) (row col : U8) (bc : Bool) (s : State) : Host.Outcome State Fault Refusal :=
  staging p s <| stagePackage p .ackAddr bc [(.row, row.setWidth 16), (.col, col.setWidth 16)] s

/-- PKT.ENUM (R127). -/
def execPktEnum (p : PortArg) (row col : U8) (bcr bc : Bool) (s : State) : Host.Outcome State Fault Refusal :=
  staging p s <| stagePackage p .enumerate bc [(.row, row.setWidth 16), (.col, col.setWidth 16), (.bcr, flagValue bcr)] s

/-- PKT.SYNCTIME (R128); the stuffing is sent as 0. -/
def execPktSynctime (p : PortArg) (time latency : U16) (bc : Bool) (s : State) : Host.Outcome State Fault Refusal :=
  staging p s <| stagePackage p .syncTime bc [(.time, time), (.latency, latency), (.stuffing, 0)] s

/-- PKT.ANNGEOM (R129). -/
def execPktAnngeom (p : PortArg) (rows cols : U8) (bc : Bool) (s : State) : Host.Outcome State Fault Refusal :=
  staging p s <| stagePackage p .announceGeometry bc [(.rows, rows.setWidth 16), (.cols, cols.setWidth 16)] s

/-- PKT.SETGEOM (R130). -/
def execPktSetgeom (p : PortArg) (rows cols : U8) (bc : Bool) (s : State) : Host.Outcome State Fault Refusal :=
  staging p s <| stagePackage p .setGeometry bc [(.rows, rows.setWidth 16), (.cols, cols.setWidth 16)] s

/-- PKT.HEAT (R131). -/
def execPktHeat (p : PortArg) (row col : U8) (startTs duration : U16) (wires : BitVec 2) (bc : Bool) (s : State) :
    Host.Outcome State Fault Refusal :=
  staging p s <|
    stagePackage p .heatWires bc
      [(.row, row.setWidth 16), (.col, col.setWidth 16), (.startTs, startTs), (.durLo, duration),
        (.durHi, durHi .heatWires duration), (.wires, wires.setWidth 16)] s

/-- The corner ordering PKT.HEATRNG requires; equal corners are accepted (R132). -/
def cornersOrdered (tlRow tlCol brRow brCol : U8) : Bool := tlRow ≤ brRow && tlCol ≤ brCol

/-- PKT.HEATRNG (R132). -/
def execPktHeatrng (p : PortArg) (tlRow tlCol brRow brCol : U8) (startTs duration : U16) (wires : BitVec 2) (bc : Bool)
    (s : State) : Host.Outcome State Fault Refusal :=
  staging p s <|
    require (cornersOrdered tlRow tlCol brRow brCol) .rangeOrder s <|
      stagePackage p .heatWiresRange bc
        [(.tlRow, tlRow.setWidth 16), (.tlCol, tlCol.setWidth 16), (.brRow, brRow.setWidth 16),
          (.brCol, brCol.setWidth 16), (.startTs, startTs), (.durLo, duration),
          (.durHi, durHi .heatWiresRange duration), (.wires, wires.setWidth 16)] s

/-- PKT.HEATMODE (R133). -/
def execPktHeatmode (p : PortArg) (mode : BitVec 2) (bc : Bool) (s : State) : Host.Outcome State Fault Refusal :=
  staging p s <| stagePackage p .heatWiresMode bc [(.mode, mode.setWidth 16)] s

/-! ### The interpreter -/

/-- The value of a named field of a table (R135); 0 for a field it does not have. -/
def readNamed (b : PortBuffer) (fields : List Field) (name : FieldName) : Nat :=
  match fieldNamed fields name with
  | some f => getField b f.pos f.width
  | none => 0

/-- The value of a header field (R55, R134). -/
def readHeader (b : PortBuffer) (name : FieldName) : Nat := readNamed b frameLayout.header name

/-- The value of a named field of the tail of variant `v` (R135). -/
def readField (b : PortBuffer) (v : Variant) (name : FieldName) : Nat := readNamed b (layout v) name

/-- The merged duration `dur_lo + 256 * dur_hi` (R69, R135); 256 is the weight of the bit above the low field. -/
def readDuration (b : PortBuffer) (v : Variant) : U16 :=
  BitVec.ofNat 16 (readField b v .durLo + 2 ^ fieldWidth v .durLo * readField b v .durHi)

/-- The fields PKT.INTERPRET returns for each variant (R135). -/
def packageOf (b : PortBuffer) (v : Variant) : Package :=
  let u8 (f : FieldName) : U8 := BitVec.ofNat 8 (readField b v f)
  let u16 (f : FieldName) : U16 := BitVec.ofNat 16 (readField b v f)
  let u2 (f : FieldName) : BitVec 2 := BitVec.ofNat 2 (readField b v f)
  match v with
  | .header => .header
  | .ack => .ack
  | .ackAddr => .ackAddr (u8 .row) (u8 .col)
  | .enumerate => .enumerate (u8 .row) (u8 .col) (readField b v .bcr != 0)
  | .syncTime => .syncTime (u16 .time) (u16 .latency) (u8 .stuffing)
  | .announceGeometry => .announceGeometry (u8 .rows) (u8 .cols)
  | .setGeometry => .setGeometry (u8 .rows) (u8 .cols)
  | .heatWires => .heatWires (u8 .row) (u8 .col) (u16 .startTs) (readDuration b v) (u2 .wires)
  | .heatWiresRange =>
      .heatWiresRange (u8 .tlRow) (u8 .tlCol) (u8 .brRow) (u8 .brCol) (u16 .startTs) (readDuration b v) (u2 .wires)
  | .heatWiresMode => .heatWiresMode (u2 .mode)

/-- The six checks of R134, in order, then the fields. -/
def interpret (b : PortBuffer) : Interpreted :=
  let n := b.pos.val
  if b.overflowed then .reject .overflowed
  else if !validLengths.contains n then .reject .badLength
  else if readHeader b .start != frameLayout.startValue.toNat then .reject .badStart
  else
    match variantOf (readHeader b .id) (readHeader b .range != 0) with
    | none => .reject .badType
    | some v =>
      if n != frameLen v then .reject .lengthMismatch
      else if parityOf b n != frameLayout.oddParity then .reject .badParity
      else .accept (readHeader b .bc != 0) (packageOf b v)

/-- PKT.INTERPRET (R134). -/
def execPktInterpret (p : PortArg) (s : State) : Host.Outcome State Fault Refusal :=
  onPhysical p s fun q =>
    require (s.rxPort q).isDataBuffered .notBuffered s <|
      finish (.interpreted (interpret (s.rxPort q).buf)) s

end Sys2Proof.Machine
end

