-- ==== Sys2Proof/Machine/Receiver.lean ====
section
/-! DEFINITION. The Manchester decoder: the edge-recovery state machine (spec/42_decoder.md). -/

namespace Sys2Proof.Machine

/-- `store_bit(p, v)`: one recovered bit appended, or the fatal fault taken when the receive buffer is full (R101). -/
def storeBit (q : Port) (v : Bool) (s : State) : State :=
  let r := s.rxPort q
  let s' := s.setRx q { r with buf := bufPut r.buf v }
  if bufPutStored r.buf then s' else raiseFatal .bitbufOverflow q s'

/-- RX.STEP in state START (R103). -/
def stepStart (q : Port) (s : State) : State × StepResult :=
  let r := s.rxPort q
  if r.isDataBuffered then (s, .yield)
  else if ringEmpty r.ring then (s, .yield)
  else
    let sn := ringPeek r.ring
    let r1 := { r with ring := ringDequeue r.ring }
    if sn.rising then (s.setRx q r1, .again)
    else
      (s.setRx q
        { r1 with
          dec := { state := .decoding, phase := 0, refTs := sn.ts, halfCycles := 0 }
          buf := ptrStart r.buf }, .again)

/-- The counters advanced by `adv`, the snapshot taken from the ring (R104). -/
def advance (adv : Nat) (r : RxPort) : RxPort :=
  { r with
    ring := ringDequeue r.ring
    dec :=
      { r.dec with
        phase := r.dec.phase + BitVec.ofNat Config.phaseBits adv
        halfCycles := r.dec.halfCycles + BitVec.ofNat Config.hcBits adv } }

/-- The decode reference of port `q` moved to a consumed snapshot (R104). -/
def setRef (q : Port) (ts : Ts) (s : State) : State :=
  let r := s.rxPort q
  s.setRx q { r with dec := { r.dec with refTs := ts } }

/-- A snapshot consumed: counters advanced, the direction stored in a data phase, the reference moved, also when storing
raised the fatal fault (R104). -/
def consume (q : Port) (adv : Nat) (sn : Snapshot) (s : State) : State :=
  let r1 := advance adv (s.rxPort q)
  let s1 := s.setRx q r1
  let s2 := if r1.dec.phase.getLsbD 0 then storeBit q sn.rising s1 else s1
  setRef q sn.ts s2

/-- `dec.state` of port `q` moved. -/
def setDecState (q : Port) (st : DecState) (s : State) : State :=
  let r := s.rxPort q
  s.setRx q { r with dec := { r.dec with state := st } }

/-- RX.STEP in state DECODING with a snapshot queued (R104); an overdue snapshot stays in the ring. -/
def stepQueued (q : Port) (s : State) : State × StepResult :=
  let r := s.rxPort q
  let sn := ringPeek r.ring
  match classify s.cfg.shortThr s.cfg.longThr (sub16 sn.ts r.dec.refTs) with
  | .overdue => (setDecState q .postTimeoutProcess s, .again)
  | .short => (consume q 1 sn s, .again)
  | .long => (consume q 2 sn s, .again)

/-- RX.STEP in state DECODING with the ring empty: the timeout check (R105). -/
def stepTimeout (q : Port) (now : Ts) (s : State) : State × StepResult :=
  if timeoutThr s.cfg.clockDelay ≤ (sub16 now (s.rxPort q).dec.refTs).toNat then
    (setDecState q .postTimeoutProcess s, .again)
  else (s, .yield)

/-- RX.STEP in state POST_TIMEOUT_PROCESS: the package is complete, `rx_done(p)` is emitted (R106). -/
def stepComplete (q : Port) (s : State) : State × StepResult :=
  let r := s.rxPort q
  let s' := s.setRx q { r with isDataBuffered := true, dec := { r.dec with state := .start } }
  ({ s' with out := { s'.out with rxDone := some q } }, .done)

/-- One micro-step of the decoder of port `q` (R102). -/
def microStep (q : Port) (now : Ts) (s : State) : State × StepResult :=
  if s.sys.fatal then (s, .yield)
  else
    match (s.rxPort q).dec.state with
    | .start => stepStart q s
    | .decoding => if ringEmpty (s.rxPort q).ring then stepTimeout q now s else stepQueued q s
    | .postTimeoutProcess => stepComplete q s

/-- Micro-steps repeated while they return `Continue`, at most `fuel` of them (R107). -/
def pollLoop (q : Port) (now : Ts) : Nat → State → State × StepResult
  | 0, s => (s, .yield)
  | fuel + 1, s =>
    match microStep q now s with
    | (s', .again) => pollLoop q now fuel s'
    | (s', .yield) => (s', .yield)
    | (s', .done) => (s', .done)

/-- The bound of R107 on the micro-steps of one poll: `ring_count + 3`. -/
def pollBound (q : Port) (s : State) : Nat := ringCount (s.rxPort q).ring + 3

/-- RX.STEP (R102). -/
def execRxStep (p : PortArg) (now : Ts) (s : State) : Host.Outcome State Fault Refusal :=
  onPhysical p s fun q => finish (.stepped (microStep q now s).2) (microStep q now s).1

/-- RX.POLL (R107), one atomic operation (log entry 8). -/
def execRxPoll (p : PortArg) (now : Ts) (s : State) : Host.Outcome State Fault Refusal :=
  onPhysical p s fun q =>
    finish (.stepped (pollLoop q now (pollBound q s) s).2) (pollLoop q now (pollBound q s) s).1

/-- RX.CLEAR (R108). -/
def execRxClear (p : PortArg) (s : State) : Host.Outcome State Fault Refusal :=
  onPhysical p s fun q =>
    require (!s.sys.fatal) .halted s <|
      require (s.rxPort q).isDataBuffered .notBuffered s <|
        finish .none (s.setRx q { s.rxPort q with buf := bufClear (s.rxPort q).buf, isDataBuffered := false })

/-- RX.READ (R109). -/
def execRxRead (p : PortArg) (s : State) : Host.Outcome State Fault Refusal :=
  onPhysical p s fun q => finish (rxRecord (s.rxPort q)) s

end Sys2Proof.Machine
end

