-- ==== Sys2Proof/Machine/System.lean ====
section
/-! DEFINITION. Configuration and system operations (spec/45_config_system.md). -/

namespace Sys2Proof.Machine

/-- SYS.RESET (R141). -/
def execSysReset (s : State) : Host.Outcome State Fault Refusal := .next (resetBlock s)

/-- The clock delay group written, the handshake flag cleared before and set after, in one atomic step (R142, R45). -/
def writeDelay (d : Ts) (s : State) : State :=
  { s with
    cfg :=
      { s.cfg with
        clockDelay := d
        halfDelay := deriveHalf d
        shortThr := deriveShort d
        longThr := deriveLong d
        delayUpdateable := true } }

/-- CFG.DELAY (R142). -/
def execCfgDelay (d : Ts) (s : State) : Host.Outcome State Fault Refusal :=
  require (!s.sys.fatal) .halted s <|
    require (legalDelay d) .badOperand s <|
      finish .none (writeDelay d s)

/-- CFG.SHIFT (R143). -/
def execCfgShift (sh : Ts) (s : State) : Host.Outcome State Fault Refusal :=
  require (!s.sys.fatal) .halted s <|
    finish .none { s with cfg := { s.cfg with txClockShift := sh, shiftUpdateable := true } }

/-- SYS.IRQEN (R144). -/
def execSysIrqen (en : Bool) (s : State) : Host.Outcome State Fault Refusal :=
  finish .none { s with sys := { s.sys with irqEn := en } }

/-- SYS.STATUS (R145). -/
def execSysStatus (s : State) : Host.Outcome State Fault Refusal := finish (sysRecord s) s

end Sys2Proof.Machine
end

