-- ==== Sys2Proof/Machine/Transmitter.lean ====
section
/-! DEFINITION. The Manchester encoder: arming a port, the half-cell tick, status (spec/43_encoder_tx.md). -/

namespace Sys2Proof.Machine

/-- What TX.ENABLE does to one target port (R115). -/
def armPort (t : TxPort) : TxPort :=
  { t with buf := ptrStart t.buf, secondHalf := false, isTransmitting := true }

/-- The compare value of the first tick: `now` plus the clock delay plus the signed shift, mod 65536 (R115). -/
def firstCompare (now : Ts) (s : State) : Ts := add16 (add16 now s.cfg.clockDelay) s.cfg.txClockShift

/-- The compare value set only when no port was transmitting (R115). -/
def startCadence (now : Ts) (was : Bool) (s : State) : State :=
  if was then s else { s with sys := { s.sys with txCompare := firstCompare now s } }

/-- TX.ENABLE (R115). -/
def execTxEnable (p : PortArg) (now : Ts) (s : State) : Host.Outcome State Fault Refusal :=
  require (!s.sys.fatal) .halted s <|
    require (targetsIdle p s) .busy s <|
      require ((targets p).all fun q => 0 < (s.txPort q).dataEnd.val) .notStaged s <|
        require ((targets p).all fun q => !(s.txPort q).buf.overflowed) .txOverflowed s <|
          finish .none (startCadence now (txIrqEnable s) (updateTargets p armPort s))

/-- `tx_half_step(q)` (R116); `none` where it would read position 72, which no reachable state does (log entry 10). -/
def txHalfStep (t : TxPort) : Option TxPort :=
  if !t.secondHalf && t.buf.pos.val == t.dataEnd.val then
    some { t with line := true, isTransmitting := false }
  else if t.buf.pos.val = Config.bufBits then none
  else if t.secondHalf then
    some { t with line := bufGet t.buf t.buf.pos.val, buf := ptrInc t.buf, secondHalf := false }
  else some { t with line := !bufGet t.buf t.buf.pos.val, secondHalf := true }

/-- What one tick does to one port: a half step where it is transmitting (R117). -/
def tickPort (t : TxPort) : Option TxPort := if t.isTransmitting then txHalfStep t else some t

/-- The three ports served by one tick, in the order N, E, S (R117); the port that faults, if one does. -/
def tickPorts (x : PerPort TxPort) : Except Port (PerPort TxPort) :=
  match tickPort (x.get .n), tickPort (x.get .e), tickPort (x.get .s) with
  | none, _, _ => .error .n
  | some _, none, _ => .error .e
  | some _, some _, none => .error .s
  | some a, some b, some c => .ok (((x.set .n a).set .e b).set .s c)

/-- TX.TICK (R117), as delivered (log entry 5). While halted nothing changes. -/
def execTxTick (s : State) : Host.Outcome State Fault Refusal :=
  if s.sys.fatal then .next s
  else
    match tickPorts s.tx with
    | .error p => .fault (.readAtEnd p)
    | .ok x => .next { s with tx := x, sys := { s.sys with txCompare := add16 s.sys.txCompare s.cfg.halfDelay } }

/-- TX.STATUS (R118). -/
def execTxStatus (p : PortArg) (s : State) : Host.Outcome State Fault Refusal :=
  onPhysical p s fun q => finish (txRecord (s.txPort q)) s

end Sys2Proof.Machine
end

