-- ==== Sys2Proof/Machine/Dispatch.lean ====
section
/-! DEFINITION. One arm per operation of spec/30_encoding.md R73, each one direct call of its meaning. -/

namespace Sys2Proof.Machine

def exec (i : Instr) (s : State) : Host.Outcome State Fault Refusal :=
  match i with
  | .sysReset => Sys2Proof.Machine.execSysReset s
  | .cfgDelay d => Sys2Proof.Machine.execCfgDelay d s
  | .cfgShift sh => Sys2Proof.Machine.execCfgShift sh s
  | .sysStatus => Sys2Proof.Machine.execSysStatus s
  | .sysIrqen en => Sys2Proof.Machine.execSysIrqen en s
  | .rxEdge p ts rising => Sys2Proof.Machine.execRxEdge p ts rising s
  | .rxStep p now => Sys2Proof.Machine.execRxStep p now s
  | .rxPoll p now => Sys2Proof.Machine.execRxPoll p now s
  | .rxClear p => Sys2Proof.Machine.execRxClear p s
  | .rxRead p => Sys2Proof.Machine.execRxRead p s
  | .pktInterpret p => Sys2Proof.Machine.execPktInterpret p s
  | .txEnable p now => Sys2Proof.Machine.execTxEnable p now s
  | .txTick => Sys2Proof.Machine.execTxTick s
  | .txStatus p => Sys2Proof.Machine.execTxStatus p s
  | .txClear p => Sys2Proof.Machine.execTxClear p s
  | .txPut p v w => Sys2Proof.Machine.execTxPut p v w s
  | .txSeal p => Sys2Proof.Machine.execTxSeal p s
  | .pktHeader p bc => Sys2Proof.Machine.execPktHeader p bc s
  | .pktAck p bc => Sys2Proof.Machine.execPktAck p bc s
  | .pktAckaddr p row col bc => Sys2Proof.Machine.execPktAckaddr p row col bc s
  | .pktEnum p row col bcr bc => Sys2Proof.Machine.execPktEnum p row col bcr bc s
  | .pktSynctime p time latency bc => Sys2Proof.Machine.execPktSynctime p time latency bc s
  | .pktAnngeom p rows cols bc => Sys2Proof.Machine.execPktAnngeom p rows cols bc s
  | .pktSetgeom p rows cols bc => Sys2Proof.Machine.execPktSetgeom p rows cols bc s
  | .pktHeat p row col startTs duration wires bc => Sys2Proof.Machine.execPktHeat p row col startTs duration wires bc s
  | .pktHeatrng p tlRow tlCol brRow brCol startTs duration wires bc => Sys2Proof.Machine.execPktHeatrng p tlRow tlCol brRow brCol startTs duration wires bc s
  | .pktHeatmode p mode bc => Sys2Proof.Machine.execPktHeatmode p mode bc s

end Sys2Proof.Machine
end

