-- ==== Sys2Proof/WellFormed.lean ====
section
/-! DEFINITION. Well-formed operations: the columns "Ports accepted" and "Operands" of spec/30_encoding.md R73. An
ill-formed operation still has a meaning: it is refused with `BAD_PORT` or `BAD_OPERAND` (R74, R89). -/

namespace Sys2Proof

/-- A port operand that names one physical port (`N`, `E` or `S`). -/
def PortArg.isPhysical : PortArg → Bool
  | .n | .e | .s => true
  | .sim => false

/-- The width operand of TX.PUT is in 1 .. 16 (R73, R89). -/
def widthLegal (w : U16) : Bool := 1 ≤ w.toNat && w.toNat ≤ 16

/-- The operation has an accepted port and an operand in its stated range (R73). -/
def Instr.wellFormed : Instr → Bool
  | .sysReset => true
  | .cfgDelay _ => true
  | .cfgShift _ => true
  | .sysStatus => true
  | .sysIrqen _ => true
  | .rxEdge p _ _ => p.isPhysical
  | .rxStep p _ => p.isPhysical
  | .rxPoll p _ => p.isPhysical
  | .rxClear p => p.isPhysical
  | .rxRead p => p.isPhysical
  | .pktInterpret p => p.isPhysical
  | .txEnable _ _ => true
  | .txTick => true
  | .txStatus p => p.isPhysical
  | .txClear _ => true
  | .txPut _ _ w => widthLegal w
  | .txSeal _ => true
  | .pktHeader _ _ => true
  | .pktAck _ _ => true
  | .pktAckaddr _ _ _ _ => true
  | .pktEnum _ _ _ _ _ => true
  | .pktSynctime _ _ _ _ => true
  | .pktAnngeom _ _ _ _ => true
  | .pktSetgeom _ _ _ _ => true
  | .pktHeat _ _ _ _ _ _ _ => true
  | .pktHeatrng _ _ _ _ _ _ _ _ _ => true
  | .pktHeatmode _ _ _ => true

end Sys2Proof
end

