-- ==== Sys2Proof/Decode.lean ====
section
/-! DEFINITION. Command words: the decoder, total on any word and arguments, and the encoder, both from
spec/30_encoding.md R71 to R74. `cmd[7:2]` is the operation number, `cmd[1:0]` the port number. -/

namespace Sys2Proof

/-- Why a command word names no operation (R74); both are refused with `ILLEGAL_COMMAND` (R153). -/
inductive DecodeError where
  /-- The operation number is reserved. -/
  | reservedOp (op : Nat)
  /-- `pp` is not 0 on an operation that takes no port. -/
  | portOnPortless (op : Nat)
  deriving DecidableEq, Repr

/-- The port numbers `N = 0`, `E = 1`, `S = 2`, `SIM = 3` (spec/10_state.md R13, R14; R71). -/
def PortArg.code : PortArg → BitVec 2
  | .n => 0
  | .e => 1
  | .s => 2
  | .sim => 3

/-- The port a 2-bit field names (R71). -/
def portOfCode (c : BitVec 2) : PortArg :=
  match c.toNat with
  | 0 => .n
  | 1 => .e
  | 2 => .s
  | _ => .sim

/-- A `u1` operand: the low bit of its slot; the rest of the slot is ignored (R72). -/
def slotBit (a : U16) : Bool := a.getLsbD 0

/-- A `u2` operand: the low two bits of its slot (R72). -/
def slotU2 (a : U16) : BitVec 2 := a.setWidth 2

/-- A `u8` operand: the low byte of its slot (R72). -/
def slotU8 (a : U16) : U8 := a.setWidth 8

/-- A counter value: the low `TS_BITS` of its slot (R72; spec/00_scope.md R6). -/
def slotTs (a : U16) : Ts := a.setWidth Config.tsBits

/-- The operation number of a command word, `cmd[7:2]` (R71). -/
def opField (cmd : U8) : Nat := cmd.toNat / 4

/-- The port field of a command word, `cmd[1:0]` (R71). -/
def portField (cmd : U8) : BitVec 2 := cmd.setWidth 2

/-- An operation that takes no port requires `pp = 0` (R71, R74). -/
def portless (cmd : U8) (i : Instr) : Except DecodeError Instr :=
  if portField cmd = 0 then .ok i else .error (.portOnPortless (opField cmd))

/-- The operation a command word and its argument slots name, or why they name none (R71 to R74). -/
def decode (c : Command) : Except DecodeError Instr :=
  let p := portOfCode (portField c.cmd)
  match opField c.cmd with
  | 0x00 => portless c.cmd .sysReset
  | 0x01 => portless c.cmd (.cfgDelay (slotTs c.arg0))
  | 0x02 => portless c.cmd (.cfgShift (slotTs c.arg0))
  | 0x03 => portless c.cmd .sysStatus
  | 0x04 => portless c.cmd (.sysIrqen (slotBit c.arg0))
  | 0x08 => .ok (.rxEdge p (slotTs c.arg0) (slotBit c.arg1))
  | 0x09 => .ok (.rxStep p (slotTs c.arg0))
  | 0x0A => .ok (.rxPoll p (slotTs c.arg0))
  | 0x0B => .ok (.rxClear p)
  | 0x0C => .ok (.rxRead p)
  | 0x0D => .ok (.pktInterpret p)
  | 0x10 => .ok (.txEnable p (slotTs c.arg0))
  | 0x11 => portless c.cmd .txTick
  | 0x12 => .ok (.txStatus p)
  | 0x13 => .ok (.txClear p)
  | 0x14 => .ok (.txPut p c.arg0 c.arg1)
  | 0x15 => .ok (.txSeal p)
  | 0x20 => .ok (.pktHeader p (slotBit c.arg0))
  | 0x21 => .ok (.pktAck p (slotBit c.arg0))
  | 0x22 => .ok (.pktAckaddr p (slotU8 c.arg0) (slotU8 c.arg1) (slotBit c.arg2))
  | 0x23 => .ok (.pktEnum p (slotU8 c.arg0) (slotU8 c.arg1) (slotBit c.arg2) (slotBit c.arg3))
  | 0x24 => .ok (.pktSynctime p c.arg0 c.arg1 (slotBit c.arg2))
  | 0x25 => .ok (.pktAnngeom p (slotU8 c.arg0) (slotU8 c.arg1) (slotBit c.arg2))
  | 0x26 => .ok (.pktSetgeom p (slotU8 c.arg0) (slotU8 c.arg1) (slotBit c.arg2))
  | 0x27 => .ok (.pktHeat p (slotU8 c.arg0) (slotU8 c.arg1) c.arg2 c.arg3 (slotU2 c.arg4) (slotBit c.arg5))
  | 0x28 => .ok (.pktHeatrng p (slotU8 c.arg0) (slotU8 c.arg1) (slotU8 c.arg2) (slotU8 c.arg3) c.arg4 c.arg5
      (slotU2 c.arg6) (slotBit c.arg7))
  | 0x29 => .ok (.pktHeatmode p (slotU2 c.arg0) (slotBit c.arg1))
  | op => .error (.reservedOp op)

/-- The slot that holds a `u1` operand (R72). -/
def bitSlot (b : Bool) : U16 := if b then 1 else 0

/-- The command word of an operation number and a port number (R71). -/
def word (op : BitVec 6) (pp : BitVec 2) : U8 := op ++ pp

/-- The command word and argument slots of an operation (R71 to R73); slots beyond its operands are 0. -/
def encode : Instr → Command
  | .sysReset => { cmd := word 0x00 0 }
  | .cfgDelay d => { cmd := word 0x01 0, arg0 := d.setWidth 16 }
  | .cfgShift sh => { cmd := word 0x02 0, arg0 := sh.setWidth 16 }
  | .sysStatus => { cmd := word 0x03 0 }
  | .sysIrqen en => { cmd := word 0x04 0, arg0 := bitSlot en }
  | .rxEdge p ts rising => { cmd := word 0x08 p.code, arg0 := ts.setWidth 16, arg1 := bitSlot rising }
  | .rxStep p now => { cmd := word 0x09 p.code, arg0 := now.setWidth 16 }
  | .rxPoll p now => { cmd := word 0x0A p.code, arg0 := now.setWidth 16 }
  | .rxClear p => { cmd := word 0x0B p.code }
  | .rxRead p => { cmd := word 0x0C p.code }
  | .pktInterpret p => { cmd := word 0x0D p.code }
  | .txEnable p now => { cmd := word 0x10 p.code, arg0 := now.setWidth 16 }
  | .txTick => { cmd := word 0x11 0 }
  | .txStatus p => { cmd := word 0x12 p.code }
  | .txClear p => { cmd := word 0x13 p.code }
  | .txPut p v w => { cmd := word 0x14 p.code, arg0 := v, arg1 := w }
  | .txSeal p => { cmd := word 0x15 p.code }
  | .pktHeader p bc => { cmd := word 0x20 p.code, arg0 := bitSlot bc }
  | .pktAck p bc => { cmd := word 0x21 p.code, arg0 := bitSlot bc }
  | .pktAckaddr p row col bc =>
      { cmd := word 0x22 p.code, arg0 := row.setWidth 16, arg1 := col.setWidth 16, arg2 := bitSlot bc }
  | .pktEnum p row col bcr bc =>
      { cmd := word 0x23 p.code, arg0 := row.setWidth 16, arg1 := col.setWidth 16, arg2 := bitSlot bcr,
        arg3 := bitSlot bc }
  | .pktSynctime p time latency bc =>
      { cmd := word 0x24 p.code, arg0 := time, arg1 := latency, arg2 := bitSlot bc }
  | .pktAnngeom p rows cols bc =>
      { cmd := word 0x25 p.code, arg0 := rows.setWidth 16, arg1 := cols.setWidth 16, arg2 := bitSlot bc }
  | .pktSetgeom p rows cols bc =>
      { cmd := word 0x26 p.code, arg0 := rows.setWidth 16, arg1 := cols.setWidth 16, arg2 := bitSlot bc }
  | .pktHeat p row col startTs duration wires bc =>
      { cmd := word 0x27 p.code, arg0 := row.setWidth 16, arg1 := col.setWidth 16, arg2 := startTs,
        arg3 := duration, arg4 := wires.setWidth 16, arg5 := bitSlot bc }
  | .pktHeatrng p tlRow tlCol brRow brCol startTs duration wires bc =>
      { cmd := word 0x28 p.code, arg0 := tlRow.setWidth 16, arg1 := tlCol.setWidth 16,
        arg2 := brRow.setWidth 16, arg3 := brCol.setWidth 16, arg4 := startTs, arg5 := duration,
        arg6 := wires.setWidth 16, arg7 := bitSlot bc }
  | .pktHeatmode p mode bc => { cmd := word 0x29 p.code, arg0 := mode.setWidth 16, arg1 := bitSlot bc }

/-- A command laid out as one number: bits 7 to 0 are `cmd`, and slot `k` is the 16 bits from bit `8 + 16 * k` up. The
signals are parallel (R30), so this order is only a numbering. DESIGN CHOICE, log entry 13. -/
def commandOfBits (w : Nat) : Command :=
  let slot (k : Nat) : U16 := BitVec.ofNat 16 (w >>> (8 + 16 * k))
  { cmd := BitVec.ofNat 8 w, arg0 := slot 0, arg1 := slot 1, arg2 := slot 2, arg3 := slot 3,
    arg4 := slot 4, arg5 := slot 5, arg6 := slot 6, arg7 := slot 7 }

/-- The operation the decoder reads from an instruction whose low `nbits` bits are those of `w` and whose other bits are
0, numbered as spec/opcode_table.json numbers them. -/
def decodeTableWord (nbits w : Nat) : Option Instr :=
  match decode (commandOfBits (w % 2 ^ nbits)) with
  | .ok i => some i
  | .error _ => none

end Sys2Proof
end

