-- ==== Sys2Proof/Machine/Fetch.lean ====
section
/-! DEFINITION. What the block does next: delivery of the two interrupt sources (spec/60_exceptions.md R154 to R158) and the
next input (spec/10_state.md R29, R30). One step takes one input, or delivers one pending interrupt. Log entries 3, 4, 5. -/

namespace Sys2Proof.Machine

/-- What a step has to do. -/
inductive Work where
  /-- Nothing happens in this step (R190). -/
  | idle
  /-- An operation is performed. -/
  | run (i : Instr)
  /-- A command word that names no operation: refused with `ILLEGAL_COMMAND` (R74, R153). -/
  | illegal
  deriving DecidableEq, Repr

/-- The `rx_done` strobe of the last step has ended (R30: one pulse). -/
def endStrobe (s : State) : State := { s with out := { s.out with rxDone := none } }

/-- The input queue with its first item taken. -/
def setInputs (is : List Input) (s : State) : State := { s with env := { s.env with inputs := is } }

/-- The pending pin change of port `p` written. -/
def setPendingEdge (p : Port) (x : Option Snapshot) (s : State) : State :=
  { s with env := { s.env with pendingEdge := s.env.pendingEdge.set p x } }

/-- The pending compare match written. -/
def setPendingTick (b : Bool) (s : State) : State := { s with env := { s.env with pendingTick := b } }

/-- The pending pin change that is served first: north, east, south (R158). -/
def firstPending (x : PerPort (Option Snapshot)) : Option (Port × Snapshot) :=
  match x.get .n, x.get .e, x.get .s with
  | some sn, _, _ => some (.n, sn)
  | none, some sn, _ => some (.e, sn)
  | none, none, some sn => some (.s, sn)
  | none, none, none => none

/-- A command word taken from the inputs (R71 to R74). -/
def fetchCommand (c : Command) (s : State) : State × Work :=
  match decode c with
  | .ok i => (s, .run i)
  | .error _ => (s, .illegal)

/-- A pin change: RX.EDGE while `sys.irq_en = 1`; while masked it is remembered or lost, as `PENDING_LATCH` says (R154,
R155, R157). A second one remembered before delivery replaces the first. -/
def fetchPinChange (p : Port) (ts : Ts) (level : Bool) (s : State) : State × Work :=
  if s.sys.irqEn then (s, .run (.rxEdge (argOf p) ts level))
  else (if Config.latchEdges then setPendingEdge p (some ⟨ts, level⟩) s else s, .idle)

/-- The counter reaches `tcnt`: a compare match on equality while `tx_irq_enable = 1` (R26, R30, R156) is TX.TICK while
`sys.irq_en = 1`; while masked it is remembered or lost, as `PENDING_LATCH` says (R157). -/
def fetchCounter (tcnt : Ts) (s : State) : State × Work :=
  if !(txIrqEnable s && tcnt == s.sys.txCompare) then (s, .idle)
  else if s.sys.irqEn then (s, .run .txTick)
  else (if Config.latchMatch then setPendingTick true s else s, .idle)

/-- The next input, if there is one. -/
def fetchInput (s : State) : State × Work :=
  match s.env.inputs with
  | [] => (s, .idle)
  | .command c :: rest => fetchCommand c (setInputs rest s)
  | .pinChange p ts level :: rest => fetchPinChange p ts level (setInputs rest s)
  | .counter tcnt :: rest => fetchCounter tcnt (setInputs rest s)
  | .resetPin :: rest => (setInputs rest s, .run .sysReset)

/-- What the step does: while `sys.irq_en = 1` a pending interrupt comes first, in the order north, east, south, compare
match (R157, R158); a pending match that finds `tx_irq_enable = 0` is dropped (R122). -/
def fetch (s : State) : State × Work :=
  let s := endStrobe s
  if s.sys.irqEn then
    match firstPending s.env.pendingEdge with
    | some (p, sn) => (setPendingEdge p none s, .run (.rxEdge (argOf p) sn.ts sn.rising))
    | none =>
      if s.env.pendingTick then (setPendingTick false s, if txIrqEnable s then .run .txTick else .idle)
      else fetchInput s
  else fetchInput s

/-- A command placed as the next input, with no pending interrupt before it. -/
def presentCommand (c : Command) (s : State) : State :=
  { s with env := { inputs := .command c :: s.env.inputs, pendingEdge := PerPort.fill none, pendingTick := false } }

end Sys2Proof.Machine
end

