-- ==== Sys2Proof/Machine/Step.lean ====
section
/-! DEFINITION. The step: what is to be done is fetched, then done (spec/00_scope.md R5; spec/20_memory.md R42). -/

namespace Sys2Proof.Machine

/-- One step of the block: one operation, or nothing. -/
def step (s : State) : Host.Outcome State Fault Refusal :=
  match fetch s with
  | (t, .idle) => .next t
  | (t, .run i) => exec i t
  | (t, .illegal) => refuse .illegalCommand t

/-- The command whose low `nbits` bits are those of `w`, its other bits 0, placed as the input the next step takes. Log
entry 4. -/
def State.withFetchWord (s : State) (nbits w : Nat) : State := presentCommand (commandOfBits (w % 2 ^ nbits)) s

end Sys2Proof.Machine
end

