-- ==== Sys2Proof/Safety.lean ====
section
/-! DEFINITION. The invariant of the block and the terms its claims use: what stays, who may write what, the frames and the
line levels of the spec written out bit by bit, and runs of operations. -/

namespace Sys2Proof.Machine

/-! ### What stays -/

/-- Every state element of the block is the same (spec/10_state.md R15); outputs and environment may differ. -/
abbrev SameBlock (s t : State) : Prop := t.rx = s.rx ∧ t.tx = s.tx ∧ t.cfg = s.cfg ∧ t.sys = s.sys

/-- An operation that an interrupt causes (R154): it returns no status. -/
def isEvent : Instr → Bool
  | .rxEdge _ _ _ => true
  | .txTick => true
  | _ => false

/-- The staging operations (spec/40_buffer_ops.md R91): TX.CLEAR, TX.PUT, TX.SEAL and the constructors, with their port. -/
def stagingPort : Instr → Option PortArg
  | .txClear p => some p
  | .txPut p _ _ => some p
  | .txSeal p => some p
  | .pktHeader p _ => some p
  | .pktAck p _ => some p
  | .pktAckaddr p _ _ _ => some p
  | .pktEnum p _ _ _ _ => some p
  | .pktSynctime p _ _ _ => some p
  | .pktAnngeom p _ _ _ => some p
  | .pktSetgeom p _ _ _ => some p
  | .pktHeat p _ _ _ _ _ _ => some p
  | .pktHeatrng p _ _ _ _ _ _ _ _ => some p
  | .pktHeatmode p _ _ => some p
  | _ => none

/-- The operation runs the decoder of port `q`. -/
def decodes (i : Instr) (q : Port) : Prop := ∃ now, i = .rxStep (argOf q) now ∨ i = .rxPoll (argOf q) now

/-- No pending interrupt is served before the next input: none is pending, or they are masked (R157). -/
def NothingPending (s : State) : Prop :=
  s.sys.irqEn = false ∨ (s.env.pendingEdge = PerPort.fill none ∧ s.env.pendingTick = false)

/-- The state in which the operation of a step is performed: the input taken, the strobe of the last step ended. -/
def afterInput (rest : List Input) (s : State) : State :=
  { s with out := { s.out with rxDone := none }, env := { s.env with inputs := rest } }

/-! ### The invariant -/

/-- A property of each of the three ports. -/
abbrev AllPorts {α : Type} (P : α → Prop) (x : PerPort α) : Prop := P (x.get .n) ∧ P (x.get .e) ∧ P (x.get .s)

/-- The configuration registers: a legal clock delay, the three derived registers functions of it, the handshake flags set
(spec/00_scope.md R8; spec/10_state.md R24; spec/20_memory.md R45). -/
abbrev CfgOk (c : Cfg) : Prop :=
  legalDelay c.clockDelay = true ∧ c.halfDelay = deriveHalf c.clockDelay ∧ c.shortThr = deriveShort c.clockDelay ∧
    c.longThr = deriveLong c.clockDelay ∧ c.delayUpdateable = true ∧ c.shiftUpdateable = true

/-- The fault registers: cause 0 exactly while not halted, cause and port never 3, port 0 while not halted (R25,
spec/60_exceptions.md R149, R151). -/
abbrev SysOk (y : Sys) : Prop :=
  (y.fatal = true ↔ y.faultCause ≠ 0) ∧ y.faultCause ≠ 3 ∧ y.faultPort ≠ 3 ∧ (y.fatal = false → y.faultPort = 0)

/-- A receive port: the phase and the half cycles are reset and advanced together (spec/42_decoder.md R103, R104); a completed
package is held in START (R103, R106); an empty START has the cursor at 0; an overflow of ring or buffer leaves it full and
has halted the block (R97, R101). -/
abbrev RxOk (fatal : Bool) (r : RxPort) : Prop :=
  r.dec.phase.toNat = r.dec.halfCycles.toNat ∧ (r.isDataBuffered = true → r.dec.state = .start) ∧
    (r.dec.state = .start → r.isDataBuffered = false → r.buf.pos = 0) ∧
    (r.ring.overflowed = true → ringFull r.ring = true ∧ fatal = true) ∧
    (r.buf.overflowed = true → r.buf.pos.val = Config.bufBits ∧ fatal = true)

/-- A transmit port: while transmitting, the read cursor is within the data, before its end in the middle of a cell, and
nothing overflowed (spec/43_encoder_tx.md R115, R116); while not, the line is idle at 1 (spec/30_encoding.md R49, R50); an
overflowed buffer is full (R84). -/
abbrev TxOk (t : TxPort) : Prop :=
  (t.isTransmitting = true →
      t.buf.pos.val ≤ t.dataEnd.val ∧ 0 < t.dataEnd.val ∧ t.buf.overflowed = false ∧
        (t.secondHalf = true → t.buf.pos.val < t.dataEnd.val)) ∧
    (t.isTransmitting = false → t.secondHalf = false ∧ t.line = true) ∧
    (t.buf.overflowed = true → t.buf.pos.val = Config.bufBits)

/-- The invariant of the block. -/
abbrev Inv (s : State) : Prop :=
  CfgOk s.cfg ∧ SysOk s.sys ∧ AllPorts (RxOk s.sys.fatal) s.rx ∧ AllPorts TxOk s.tx

/-! ### Runs of operations -/

/-- Operations performed one after another, stopping at the first that answers no next state. -/
def runOps : List Instr → State → Host.Outcome State Fault Refusal
  | [], s => .next s
  | i :: is, s =>
    match exec i s with
    | .next t => runOps is t
    | .fault f => .fault f
    | .refused r => .refused r

/-! ### Frames, written from the tables of spec/30_encoding.md R55 to R67 -/

/-- A field of a frame, least significant bit first (spec/20_memory.md R35). -/
def lsbFirst {w : Nat} (v : BitVec w) : List Bool := (List.range w).map v.getLsbD

/-- The 7 header bits (R55). -/
def frameHeader (id : BitVec 4) (range bc : Bool) : List Bool := [true] ++ lsbFirst id ++ [range, bc]

/-- A frame without its last bit, completed with even parity over all of it (R56). -/
def withParity (bits : List Bool) : List Bool := bits ++ [bits.foldl xor false]

/-- The frame of a package (R58 to R67); of a duration bits 9 to 0 are carried (R65). -/
def frameOf (bc : Bool) : Package → List Bool
  | .header => withParity (frameHeader 8 false bc)
  | .ack => withParity (frameHeader 1 false bc)
  | .ackAddr row col => withParity (frameHeader 2 false bc ++ lsbFirst row ++ lsbFirst col)
  | .enumerate row col bcr => withParity (frameHeader 0 false bc ++ lsbFirst row ++ lsbFirst col ++ [bcr])
  | .syncTime time latency stuffing =>
      withParity (frameHeader 3 false bc ++ lsbFirst time ++ lsbFirst latency ++ lsbFirst stuffing)
  | .announceGeometry rows cols => withParity (frameHeader 4 false bc ++ lsbFirst rows ++ lsbFirst cols)
  | .setGeometry rows cols => withParity (frameHeader 5 false bc ++ lsbFirst rows ++ lsbFirst cols)
  | .heatWires row col startTs duration wires =>
      withParity
        (frameHeader 6 false bc ++ lsbFirst row ++ lsbFirst col ++ lsbFirst startTs ++
          lsbFirst (duration.extractLsb' 0 8) ++ lsbFirst (duration.extractLsb' 8 2) ++ lsbFirst wires)
  | .heatWiresRange tlRow tlCol brRow brCol startTs duration wires =>
      withParity
        (frameHeader 6 true bc ++ lsbFirst tlRow ++ lsbFirst tlCol ++ lsbFirst brRow ++ lsbFirst brCol ++
          lsbFirst startTs ++ lsbFirst (duration.extractLsb' 0 8) ++ lsbFirst (duration.extractLsb' 8 2) ++
          lsbFirst wires)
  | .heatWiresMode mode => withParity (frameHeader 7 false bc ++ lsbFirst mode)

/-- The constructor operation of a package on port `p` (spec/44_packetizer.md R124 to R133). -/
def constructor (p : PortArg) (bc : Bool) : Package → Instr
  | .header => .pktHeader p bc
  | .ack => .pktAck p bc
  | .ackAddr row col => .pktAckaddr p row col bc
  | .enumerate row col bcr => .pktEnum p row col bcr bc
  | .syncTime time latency _ => .pktSynctime p time latency bc
  | .announceGeometry rows cols => .pktAnngeom p rows cols bc
  | .setGeometry rows cols => .pktSetgeom p rows cols bc
  | .heatWires row col startTs duration wires => .pktHeat p row col startTs duration wires bc
  | .heatWiresRange tlRow tlCol brRow brCol startTs duration wires =>
      .pktHeatrng p tlRow tlCol brRow brCol startTs duration wires bc
  | .heatWiresMode mode => .pktHeatmode p mode bc

/-- Operands within the fields' widths, stuffing 0, corners ordered (R137). -/
def validPackage : Package → Prop
  | .header => True
  | .ack => True
  | .ackAddr _ _ => True
  | .enumerate _ _ _ => True
  | .syncTime _ _ stuffing => stuffing = 0
  | .announceGeometry _ _ => True
  | .setGeometry _ _ => True
  | .heatWires _ _ _ duration _ => duration.toNat ≤ 1023
  | .heatWiresRange tlRow tlCol brRow brCol _ duration _ =>
      tlRow.toNat ≤ brRow.toNat ∧ tlCol.toNat ≤ brCol.toNat ∧ duration.toNat ≤ 1023
  | .heatWiresMode _ => True

/-- The first `n` bits of a PortBuffer. -/
def bitsOf (b : PortBuffer) (n : Nat) : List Bool := (List.range n).map (bufGet b)

/-- The transmit buffer holds exactly these bits from position 0, zeros above them, the cursor after them, no overflow. -/
abbrev Holds (b : PortBuffer) (bits : List Bool) : Prop :=
  (∀ n, n < Config.bufBits → bufGet b n = bits.getD n false) ∧ b.pos.val = bits.length ∧ b.overflowed = false

/-- From `s` the operation answers the next state `t` with status 0 in which every target port of `p` holds exactly the sealed
frame `bits`, idle as before, and nothing else of the block, its environment or its strobe is changed. -/
abbrev StagesFrame (i : Instr) (p : PortArg) (bits : List Bool) (s : State) : Prop :=
  ∃ t, exec i s = .next t ∧ t.rx = s.rx ∧ t.cfg = s.cfg ∧ t.sys = s.sys ∧ t.env = s.env ∧
    t.out = { status := 0, rdata := .none, rxDone := s.out.rxDone } ∧
    (∀ q, q ∉ targets p → t.txPort q = s.txPort q) ∧
    ∀ q, q ∈ targets p →
      Holds (t.txPort q).buf bits ∧ (t.txPort q).dataEnd.val = bits.length ∧
        (t.txPort q).isTransmitting = (s.txPort q).isTransmitting ∧
        (t.txPort q).secondHalf = (s.txPort q).secondHalf ∧ (t.txPort q).line = (s.txPort q).line

/-- `sum over k of b[n + k] * 2^k` (R69; spec/44_packetizer.md R135). -/
def fieldSum (b : PortBuffer) (n w : Nat) : Nat := ∑ k ∈ Finset.range w, (bufGet b (n + k)).toNat * 2 ^ k

/-- The length of the variant a header's `(id, range)` identifies (R57). -/
def lengthOf (id : Nat) (range : Bool) : Option Nat :=
  match id, range with
  | 0, false => some 25
  | 1, false => some 8
  | 2, false => some 24
  | 3, false => some 48
  | 4, false => some 24
  | 5, false => some 24
  | 6, false => some 52
  | 6, true => some 68
  | 7, false => some 10
  | 8, false => some 8
  | _, _ => none

/-- The package read from a buffer whose header says `(id, range)`, at the positions of the table of
spec/44_packetizer.md R135. -/
def packageRead (b : PortBuffer) (id : Nat) (range : Bool) : Package :=
  let u8 (n : Nat) : U8 := BitVec.ofNat 8 (fieldSum b n 8)
  let u16 (n : Nat) : U16 := BitVec.ofNat 16 (fieldSum b n 16)
  let u2 (n : Nat) : BitVec 2 := BitVec.ofNat 2 (fieldSum b n 2)
  match id, range with
  | 0, _ => .enumerate (u8 7) (u8 15) (bufGet b 23)
  | 1, _ => .ack
  | 2, _ => .ackAddr (u8 7) (u8 15)
  | 3, _ => .syncTime (u16 7) (u16 23) (u8 39)
  | 4, _ => .announceGeometry (u8 7) (u8 15)
  | 5, _ => .setGeometry (u8 7) (u8 15)
  | 6, false =>
      .heatWires (u8 7) (u8 15) (u16 23) (BitVec.ofNat 16 (fieldSum b 39 8 + 256 * fieldSum b 47 2)) (u2 49)
  | 6, true =>
      .heatWiresRange (u8 7) (u8 15) (u8 23) (u8 31) (u16 39)
        (BitVec.ofNat 16 (fieldSum b 55 8 + 256 * fieldSum b 63 2)) (u2 65)
  | 7, _ => .heatWiresMode (u2 7)
  | _, _ => .header

/-- A PortBuffer with the bit at position `k` inverted. -/
def flipBit (b : PortBuffer) (k : Nat) : PortBuffer := { b with bytes := writeBytes b.bytes k (!bufGet b k) }

/-! ### The line, written from spec/30_encoding.md R48 to R51 -/

/-- The levels of a line at the ticks of a frame: `~b` then `b` for every bit, then idle (R48, R50;
spec/43_encoder_tx.md R119). -/
def lineLevels (bits : List Bool) : List Bool := bits.flatMap (fun b => [!b, b]) ++ [true]

/-- The half cells of its frame that a transmitting port has driven: two for each bit before the cursor, one more in the middle
of a cell (spec/43_encoder_tx.md R116). -/
def halvesDone (t : TxPort) : Nat := 2 * t.buf.pos.val + t.secondHalf.toNat

/-- While a port transmits, its line is idle before the first half cell and then at the level its frame has in the half cell
driven last (spec/43_encoder_tx.md R119). -/
def LineOk (t : TxPort) : Prop :=
  t.isTransmitting = true →
    (halvesDone t = 0 → t.line = true) ∧
      ∀ k, halvesDone t = k + 1 → (lineLevels (bitsOf t.buf t.dataEnd.val))[k]? = some t.line

/-- The level changes of a line that was at `prev`, its levels set at times `t`, `t + h`, `t + 2h`, … -/
def levelChanges (prev : Bool) (t h : Nat) : List Bool → List (Nat × Bool)
  | [] => []
  | l :: ls => if l = prev then levelChanges prev (t + h) h ls else (t, l) :: levelChanges l (t + h) h ls

/-- The edges a frame sent from tick time `t0` with half delay `h` puts on an idle line (R51). -/
def frameEdges (bits : List Bool) (t0 h : Nat) : List (Nat × Bool) := levelChanges true t0 h (lineLevels bits)

/-- Edges delivered to port `q`, each followed by polls at the given numbers of ticks after it; every time is taken mod
65536. -/
def deliveries (q : Port) (tr : List ((Nat × Bool) × List Nat)) : List Instr :=
  tr.flatMap fun x =>
    .rxEdge (argOf q) (BitVec.ofNat Config.tsBits x.1.1) x.1.2 ::
      x.2.map fun d => .rxPoll (argOf q) (BitVec.ofNat Config.tsBits (x.1.1 + d))

/-- The ring never fills: of any 28 edges that another one follows, at least one is followed by a poll
(spec/70_reset_and_hazards.md R175). -/
def PolledOften (tr : List ((Nat × Bool) × List Nat)) : Prop :=
  ∀ i, i + 28 < tr.length → ∃ j, i ≤ j ∧ j < i + 28 ∧ ∃ x, tr[j]? = some x ∧ x.2 ≠ []

/-! ### The refusal table of spec/60_exceptions.md R153 -/

/-- The port of a command that accepts only N, E, S: the row BAD_PORT. -/
def physicalOnly : Instr → Option PortArg
  | .rxStep p _ => some p
  | .rxPoll p _ => some p
  | .rxClear p => some p
  | .rxRead p => some p
  | .pktInterpret p => some p
  | .txStatus p => some p
  | _ => none

/-- The commands of the row HALTED (spec/45_config_system.md R147). -/
def refusedWhileHalted : Instr → Bool
  | .cfgDelay _ => true
  | .cfgShift _ => true
  | .rxClear _ => true
  | .txEnable _ _ => true
  | i => (stagingPort i).isSome

/-- The port operand of the row BUSY: TX.ENABLE and the staging operations. -/
def busyPort : Instr → Option PortArg
  | .txEnable p _ => some p
  | i => stagingPort i

/-- A condition holds of some target port of an operand. -/
def someTarget (p : PortArg) (s : State) (f : TxPort → Bool) : Bool := (targets p).any fun q => f (s.txPort q)

/-- The operand condition of the row BAD_OPERAND. -/
def badOperand : Instr → Bool
  | .txPut _ _ w => w.toNat < 1 || 16 < w.toNat
  | .cfgDelay d => d.toNat < 2 || 32767 < d.toNat
  | _ => false

/-- The operand condition of the row RANGE_ORDER. -/
def badRange : Instr → Bool
  | .pktHeatrng _ tlRow tlCol brRow brCol _ _ _ _ => brRow.toNat < tlRow.toNat || brCol.toNat < tlCol.toNat
  | _ => false

/-- The rows of R153 below the decoder's, in checking order: whether the row's condition holds, and its reason. -/
def refusalRows (i : Instr) (s : State) : List (Bool × Reason) :=
  [((physicalOnly i).any (fun p => !p.isPhysical), .badPort),
    (refusedWhileHalted i && s.sys.fatal, .halted),
    ((busyPort i).any (fun p => someTarget p s (fun t => t.isTransmitting)), .busy),
    (badOperand i, .badOperand),
    (badRange i, .rangeOrder),
    (match i with
      | .txEnable p _ => someTarget p s (fun t => t.dataEnd.val == 0)
      | _ => false, .notStaged),
    (match i with
      | .txEnable p _ => someTarget p s (fun t => t.buf.overflowed)
      | _ => false, .txOverflowed),
    (match i with
      | .rxClear p => (physical p).any (fun q => !(s.rxPort q).isDataBuffered)
      | .pktInterpret p => (physical p).any (fun q => !(s.rxPort q).isDataBuffered)
      | _ => false, .notBuffered)]

/-- The reason of the first row whose condition holds. -/
def firstReason (i : Instr) (s : State) : Option Reason := ((refusalRows i s).find? (·.1)).map (·.2)

end Sys2Proof.Machine
end

