-- ==== Sys2Proof/Certificates/Slice0/Obligations.lean ====
section
/-! DEFINITION. The statements for the provers. Rule numbers are those of spec/. -/

open Sys2Proof Sys2Proof.Machine

/-! ### Command words -/

/-- R71 to R73, every operand at every value: decoding what encode writes gives the operation back. -/
def Obligations.DecodeOfEncodeIsTheOperation : Prop :=
  ∀ i : Instr, i.wellFormed = true → decode (encode i) = .ok i

/-- Words of spec/95_test_vectors.md P1 to P5, written out bit by bit: `cmd[7:2]` is the operation number, `cmd[1:0]` the
port. -/
def Obligations.SampleWordsDecode : Prop :=
  decode { cmd := 0b00000000#8 } = .ok .sysReset ∧
  decode { cmd := 0b00010000#8, arg0 := 1 } = .ok (.sysIrqen true) ∧
  decode { cmd := 0b00100001#8, arg0 := 1500, arg1 := 1 } = .ok (.rxEdge .e 1500 true) ∧
  decode { cmd := 0b00101000#8, arg0 := 9300 } = .ok (.rxPoll .n 9300) ∧
  decode { cmd := 0b01000011#8, arg0 := 500 } = .ok (.txEnable .sim 500) ∧
  decode { cmd := 0b01000100#8 } = .ok .txTick ∧
  decode { cmd := 0b10000110#8 } = .ok (.pktAck .s false) ∧
  decode { cmd := 0b10001110#8, arg0 := 2, arg1 := 1, arg2 := 1 } = .ok (.pktEnum .s 2 1 true false)

/-- R74: every reserved operation number, every `pp ≠ 0` where no port is taken (ILLEGAL_COMMAND, status 2) and every `pp = 3`
where SIM is not accepted (BAD_PORT, status 3) is refused and changes no state. -/
def Obligations.ReservedWordsAreRefused : Prop :=
  ∀ (s : State) (c : Command) (rest : List Input), s.env.inputs = .command c :: rest → NothingPending s →
    let op := c.cmd.toNat / 4
    let pp := c.cmd.toNat % 4
    ((5 ≤ op ∧ op ≤ 7 ∨ op = 0x0E ∨ op = 0x0F ∨ 0x16 ≤ op ∧ op ≤ 0x1F ∨ 0x2A ≤ op ∨
        (op ≤ 4 ∨ op = 0x11) ∧ pp ≠ 0) →
      step s = .next ((afterInput rest s).answer 2 .none)) ∧
    ((8 ≤ op ∧ op ≤ 0x0D ∨ op = 0x12) ∧ pp = 3 → step s = .next ((afterInput rest s).answer 3 .none))

/-! ### The step -/

/-- A command word at the head of the inputs is the operation of the step: the input is taken, the strobe of the last step
ends, and the rest is exec (log entry 4). -/
def Obligations.StepRunsTheDecodedCommand : Prop :=
  ∀ (s : State) (c : Command) (i : Instr) (rest : List Input), s.env.inputs = .command c :: rest → NothingPending s →
    decode c = .ok i → step s = exec i (afterInput rest s)

/-- R154, R156, while `sys.irq_en = 1`: a pin change of port `p` is RX.EDGE `p`; the counter reaching a value is TX.TICK exactly
when it equals `sys.tx_compare` and some port is transmitting, and nothing otherwise. -/
def Obligations.UnmaskedInterruptsAreDelivered : Prop :=
  ∀ (s : State) (rest : List Input), s.sys.irqEn = true → NothingPending s →
    (∀ p ts level, s.env.inputs = .pinChange p ts level :: rest →
      step s = exec (.rxEdge (argOf p) ts level) (afterInput rest s)) ∧
    (∀ tcnt, s.env.inputs = .counter tcnt :: rest →
      (tcnt = s.sys.txCompare → (∃ p, (s.txPort p).isTransmitting = true) →
        step s = exec .txTick (afterInput rest s)) ∧
      (tcnt ≠ s.sys.txCompare ∨ (∀ p, (s.txPort p).isTransmitting = false) →
        step s = .next (afterInput rest s)))

/-- R157, for either value of `PENDING_LATCH`: while `sys.irq_en = 0` a pin change or a compare match changes no element of the
block and no output but the ended strobe. -/
def Obligations.MaskedInterruptsChangeNothing : Prop :=
  ∀ (s : State) (x : Input) (rest : List Input), s.sys.irqEn = false → s.env.inputs = x :: rest →
    ((∃ p ts level, x = .pinChange p ts level) ∨ ∃ tcnt, x = .counter tcnt) →
    ∃ t, step s = .next t ∧ SameBlock s t ∧ t.out = { s.out with rxDone := none } ∧ t.env.inputs = rest

/-- R157, R158 (the latch is log entry 3): while `sys.irq_en = 1` a pending pin change is served before any input, north first,
then east, then south, and only then a pending compare match. -/
def Obligations.PendingInterruptsComeFirst : Prop :=
  ∀ (s : State) (x : Snapshot), s.sys.irqEn = true →
    let pending (p : Port) := s.env.pendingEdge.get p
    let edge (p : Port) :=
      step s = exec (.rxEdge (argOf p) x.ts x.rising)
        { s with
          out := { s.out with rxDone := none }
          env := { s.env with pendingEdge := s.env.pendingEdge.set p none } }
    (pending .n = some x → edge .n) ∧
    (pending .n = none → pending .e = some x → edge .e) ∧
    (pending .n = none → pending .e = none → pending .s = some x → edge .s) ∧
    ((∀ p, pending p = none) → s.env.pendingTick = true → txIrqEnable s = true →
      step s = exec .txTick
        { s with out := { s.out with rxDone := none }, env := { s.env with pendingTick := false } })

/-- R171: the `reset` input and the command SYS.RESET are the same operation. -/
def Obligations.ResetInputIsSysReset : Prop :=
  ∀ (s : State) (rest : List Input), NothingPending s →
    (s.env.inputs = .resetPin :: rest → step s = exec .sysReset (afterInput rest s)) ∧
    (s.env.inputs = .command { cmd := 0 } :: rest → step s = exec .sysReset (afterInput rest s))

/-- R190: from a quiescent state RX.POLL yields and changes nothing, and with no input and nothing pending a step changes nothing
but the ended strobe. -/
def Obligations.QuiescentBlockDoesNothing : Prop :=
  ∀ s : State, (∀ p, (s.txPort p).isTransmitting = false) →
    (∀ p, ringEmpty (s.rxPort p).ring = true ∧ (s.rxPort p).dec.state = .start) →
    (∀ p now, exec (.rxPoll (argOf p) now) s = .next (s.answer 0 (.stepped .yield))) ∧
    (NothingPending s → s.env.inputs = [] → step s = .next (afterInput [] s))

/-! ### Reset and configuration -/

/-- R31: the value of every element after reset. -/
def Obligations.ResetValues : Prop :=
  (∀ p, (∀ (i : Nat) (h : i < Config.cap), ((State.reset.rxPort p).ring.slot[i]) = { ts := 0, rising := false }) ∧
    (State.reset.rxPort p).ring.start.val = 0 ∧ (State.reset.rxPort p).ring.stop.val = 0 ∧
    (State.reset.rxPort p).ring.overflowed = false ∧
    (State.reset.rxPort p).dec = { state := .start, phase := 0, refTs := 0, halfCycles := 0 } ∧
    (∀ n, bufGet (State.reset.rxPort p).buf n = false) ∧ (State.reset.rxPort p).buf.pos.val = 0 ∧
    (State.reset.rxPort p).buf.overflowed = false ∧ (State.reset.rxPort p).isDataBuffered = false) ∧
  (∀ p, (∀ n, bufGet (State.reset.txPort p).buf n = false) ∧ (State.reset.txPort p).buf.pos.val = 0 ∧
    (State.reset.txPort p).buf.overflowed = false ∧ (State.reset.txPort p).dataEnd.val = 0 ∧
    (State.reset.txPort p).isTransmitting = false ∧ (State.reset.txPort p).secondHalf = false ∧
    (State.reset.txPort p).line = true) ∧
  State.reset.cfg.clockDelay = Config.defaultClockDelay ∧
  State.reset.cfg.halfDelay.toNat = Config.defaultClockDelay.toNat / 2 ∧
  State.reset.cfg.shortThr.toNat = Config.defaultClockDelay.toNat * 59 / 100 ∧
  State.reset.cfg.longThr.toNat = Config.defaultClockDelay.toNat * 112 / 100 ∧
  State.reset.cfg.txClockShift = 0 ∧ State.reset.cfg.delayUpdateable = true ∧
  State.reset.cfg.shiftUpdateable = true ∧
  State.reset.sys = { fatal := false, faultCause := 0, faultPort := 0, irqEn := false, txCompare := 0 }

/-- R141: SYS.RESET gives every element its reset value in every state, also while halted. -/
def Obligations.SysResetResult : Prop :=
  ∀ s : State, ∃ t, exec .sysReset s = .next t ∧ t.rx = State.reset.rx ∧ t.tx = State.reset.tx ∧
    t.cfg = State.reset.cfg ∧ t.sys = State.reset.sys

/-- The model's choice (log entries 6, 12): SYS.RESET keeps what stands outside the block, the inputs still to come and the
pending interrupts, and clears the outputs. -/
def Obligations.ResetKeepsTheEnvironment : Prop :=
  ∀ s : State, ∃ t, exec .sysReset s = .next t ∧ t.env = s.env ∧
    t.out = { status := 0, rdata := .none, rxDone := none }

/-- R142: CFG.DELAY, done or refused; every register of the group on a done call, nothing on a refused one. -/
def Obligations.CfgDelayResult : Prop :=
  ∀ (s : State) (d : Ts),
    (s.sys.fatal = true → exec (.cfgDelay d) s = .next (s.answer 1 .none)) ∧
    (s.sys.fatal = false → ¬ (2 ≤ d.toNat ∧ d.toNat ≤ 32767) → exec (.cfgDelay d) s = .next (s.answer 7 .none)) ∧
    (s.sys.fatal = false → 2 ≤ d.toNat ∧ d.toNat ≤ 32767 →
      ∃ half short long : Ts, half.toNat = d.toNat / 2 ∧ short.toNat = d.toNat * 59 / 100 ∧
        long.toNat = d.toNat * 112 / 100 ∧
        exec (.cfgDelay d) s =
          .next
            ({ s with
                cfg :=
                  { s.cfg with
                    clockDelay := d, halfDelay := half, shortThr := short, longThr := long,
                    delayUpdateable := true } }.answer 0 .none))

/-- R143: CFG.SHIFT. -/
def Obligations.CfgShiftResult : Prop :=
  ∀ (s : State) (sh : Ts),
    (s.sys.fatal = true → exec (.cfgShift sh) s = .next (s.answer 1 .none)) ∧
    (s.sys.fatal = false →
      exec (.cfgShift sh) s =
        .next ({ s with cfg := { s.cfg with txClockShift := sh, shiftUpdateable := true } }.answer 0 .none))

/-- R144: SYS.IRQEN, in every state. -/
def Obligations.SysIrqenResult : Prop :=
  ∀ (s : State) (e : Bool),
    exec (.sysIrqen e) s = .next ({ s with sys := { s.sys with irqEn := e } }.answer 0 .none)

/-- R109, R118, R145: SYS.STATUS, RX.READ and TX.STATUS answer the records of R79 in every state and change nothing. -/
def Obligations.ReadOutRecords : Prop :=
  ∀ s : State,
    (∃ f : U8,
      exec .sysStatus s =
        .next
          (s.answer 0
            (.sysStatus f s.cfg.clockDelay s.cfg.halfDelay s.cfg.shortThr s.cfg.longThr s.cfg.txClockShift
              s.sys.txCompare)) ∧
      f.getLsbD 0 = s.sys.fatal ∧ f.extractLsb' 1 2 = s.sys.faultCause ∧ f.extractLsb' 3 2 = s.sys.faultPort ∧
      f.getLsbD 5 = s.sys.irqEn ∧ f.getLsbD 6 = s.cfg.delayUpdateable ∧ f.getLsbD 7 = s.cfg.shiftUpdateable) ∧
    (∀ q, ∃ f : U8,
      let r := s.rxPort q
      exec (.rxRead (argOf q)) s =
        .next (s.answer 0 (.rxRead r.buf.bytes r.buf.pos.val f r.dec.halfCycles (ringCount r.ring))) ∧
      f.getLsbD 0 = r.isDataBuffered ∧ f.getLsbD 1 = r.buf.overflowed ∧ f.getLsbD 2 = r.ring.overflowed ∧
      f.extractLsb' 3 2 = decStateCode r.dec.state) ∧
    (∀ q, ∃ f : U8,
      let t := s.txPort q
      exec (.txStatus (argOf q)) s = .next (s.answer 0 (.txStatus t.buf.bytes t.buf.pos.val t.dataEnd.val f)) ∧
      f.getLsbD 0 = t.isTransmitting ∧ f.getLsbD 1 = t.buf.overflowed ∧ f.getLsbD 2 = t.secondHalf ∧
      f.getLsbD 3 = t.line) ∧
    exec (.rxRead .sim) s = .next (s.answer 3 .none) ∧ exec (.txStatus .sim) s = .next (s.answer 3 .none)

/-- R79 gives no meaning to the bits above the listed ones in the flag bytes of RX.READ and TX.STATUS: the model reads them as 0
(log entry 18). -/
def Obligations.UnlistedFlagBitsReadZero : Prop :=
  ∀ (s : State) (q : Port),
    (∃ f : U8,
      let r := s.rxPort q
      exec (.rxRead (argOf q)) s =
        .next (s.answer 0 (.rxRead r.buf.bytes r.buf.pos.val f r.dec.halfCycles (ringCount r.ring))) ∧
      f.extractLsb' 5 3 = 0) ∧
    (∃ f : U8,
      let t := s.txPort q
      exec (.txStatus (argOf q)) s = .next (s.answer 0 (.txStatus t.buf.bytes t.buf.pos.val t.dataEnd.val f)) ∧
      f.extractLsb' 4 4 = 0)

/-! ### Storage -/

/-- R84: `buf_put` writes exactly the bit at the cursor, both ways, and moves the cursor by one; at position 72 it only sets
`overflowed`. -/
def Obligations.BufPutWritesOneBit : Prop :=
  ∀ (b : PortBuffer) (v : Bool),
    (b.pos.val = 72 → bufPutStored b = false ∧ bufPut b v = { b with overflowed := true }) ∧
    (b.pos.val < 72 →
      bufPutStored b = true ∧ (bufPut b v).pos.val = b.pos.val + 1 ∧ (bufPut b v).overflowed = b.overflowed ∧
        ∀ n, n < 72 → bufGet (bufPut b v) n = if n = b.pos.val then v else bufGet b n)

/-- R86: `put_field` stores the low `w` bits least significant first as far as they fit below position 72, and reports `true`
exactly when all of them fit. -/
def Obligations.PutFieldReportsWhetherStored : Prop :=
  ∀ (b : PortBuffer) (v : U16) (w : Nat), 1 ≤ w → w ≤ 16 →
    (putFieldStored b v w = true ↔ b.pos.val + w ≤ 72) ∧
      (putField b v w).pos.val = min (b.pos.val + w) 72 ∧
      ((putField b v w).overflowed = true ↔ b.overflowed = true ∨ 72 < b.pos.val + w) ∧
      ∀ n, n < 72 →
        bufGet (putField b v w) n =
          if b.pos.val ≤ n ∧ n < b.pos.val + w then v.getLsbD (n - b.pos.val) else bufGet b n

/-- R93, R94, R98: an enqueue that is not refused appends, a full ring keeps every entry and raises the flag, a dequeue takes the
oldest entry: first in, first out. -/
def Obligations.RingIsFirstInFirstOut : Prop :=
  ∀ (q : Ring) (sn : Snapshot),
    (ringEnqueueStored q = true ↔ ringFull q = false) ∧
    (ringFull q = false → ringQueue (ringEnqueue q sn) = ringQueue q ++ [sn] ∧
      (ringEnqueue q sn).overflowed = q.overflowed ∧ (ringEnqueue q sn).start = q.start) ∧
    (ringFull q = true → ringEnqueue q sn = { q with overflowed := true }) ∧
    (ringEmpty q = false → ringQueue q = ringPeek q :: ringQueue (ringDequeue q) ∧
      (ringDequeue q).slot = q.slot ∧ (ringDequeue q).stop = q.stop)

/-- R21, R92: at most 28 snapshots are queued; empty, full and the count say the same as the two indices. -/
def Obligations.RingCountBounds : Prop :=
  ∀ q : Ring, ringCount q ≤ 28 ∧ (ringQueue q).length = ringCount q ∧
    (ringEmpty q = true ↔ q.start = q.stop) ∧ (ringEmpty q = true ↔ ringCount q = 0) ∧
    (ringFull q = true ↔ ringCount q = 28) ∧ (ringFull q = true ↔ (q.stop.val + 1) % 29 = q.start.val)

/-! ### Staging -/

/-- R88: TX.CLEAR on every target port, refused as a whole while halted or while a target is transmitting. -/
def Obligations.TxClearResult : Prop :=
  ∀ (s : State) (p : PortArg),
    (s.sys.fatal = true → exec (.txClear p) s = .next (s.answer 1 .none)) ∧
    (s.sys.fatal = false → (∃ q ∈ targets p, (s.txPort q).isTransmitting = true) →
      exec (.txClear p) s = .next (s.answer 4 .none)) ∧
    (s.sys.fatal = false → (∀ q ∈ targets p, (s.txPort q).isTransmitting = false) →
      ∃ t, exec (.txClear p) s = .next t ∧ t.rx = s.rx ∧ t.cfg = s.cfg ∧ t.sys = s.sys ∧ t.env = s.env ∧
        t.out = { status := 0, rdata := .none, rxDone := s.out.rxDone } ∧
        (∀ q, q ∉ targets p → t.txPort q = s.txPort q) ∧
        ∀ q, q ∈ targets p → ∃ b : PortBuffer, b.pos.val = 0 ∧ b.overflowed = false ∧
          (∀ n, n < 72 → bufGet b n = false) ∧ t.txPort q = { s.txPort q with buf := b, dataEnd := 0 })

/-- R89: TX.PUT appends the low `w` bits, least significant first, at the cursor of every target; bits that fall at position 72
are dropped and set `overflowed`; the buffer is no longer sealed. -/
def Obligations.TxPutResult : Prop :=
  ∀ (s : State) (p : PortArg) (v w : U16),
    (s.sys.fatal = true → exec (.txPut p v w) s = .next (s.answer 1 .none)) ∧
    (s.sys.fatal = false → (∃ q ∈ targets p, (s.txPort q).isTransmitting = true) →
      exec (.txPut p v w) s = .next (s.answer 4 .none)) ∧
    (s.sys.fatal = false → (∀ q ∈ targets p, (s.txPort q).isTransmitting = false) →
      (¬ (1 ≤ w.toNat ∧ w.toNat ≤ 16) → exec (.txPut p v w) s = .next (s.answer 7 .none)) ∧
      (1 ≤ w.toNat ∧ w.toNat ≤ 16 →
        ∃ t, exec (.txPut p v w) s = .next t ∧ t.rx = s.rx ∧ t.cfg = s.cfg ∧ t.sys = s.sys ∧ t.env = s.env ∧
          t.out = { status := 0, rdata := .none, rxDone := s.out.rxDone } ∧
          (∀ q, q ∉ targets p → t.txPort q = s.txPort q) ∧
          ∀ q, q ∈ targets p → ∃ b : PortBuffer, t.txPort q = { s.txPort q with buf := b, dataEnd := 0 } ∧
            b.pos.val = min ((s.txPort q).buf.pos.val + w.toNat) 72 ∧
            b.overflowed = ((s.txPort q).buf.overflowed || decide (72 < (s.txPort q).buf.pos.val + w.toNat)) ∧
            ∀ n, n < 72 →
              bufGet b n =
                if (s.txPort q).buf.pos.val ≤ n ∧ n < (s.txPort q).buf.pos.val + w.toNat then
                  v.getLsbD (n - (s.txPort q).buf.pos.val)
                else bufGet (s.txPort q).buf n))

/-- R90: TX.SEAL writes the even parity of the bits staged so far after them and marks the end of data; with no room
`overflowed` is set and the end of data is 72. -/
def Obligations.TxSealResult : Prop :=
  ∀ (s : State) (p : PortArg),
    (s.sys.fatal = true → exec (.txSeal p) s = .next (s.answer 1 .none)) ∧
    (s.sys.fatal = false → (∃ q ∈ targets p, (s.txPort q).isTransmitting = true) →
      exec (.txSeal p) s = .next (s.answer 4 .none)) ∧
    (s.sys.fatal = false → (∀ q ∈ targets p, (s.txPort q).isTransmitting = false) →
      ∃ t, exec (.txSeal p) s = .next t ∧ t.rx = s.rx ∧ t.cfg = s.cfg ∧ t.sys = s.sys ∧ t.env = s.env ∧
        t.out = { status := 0, rdata := .none, rxDone := s.out.rxDone } ∧
        (∀ q, q ∉ targets p → t.txPort q = s.txPort q) ∧
        ∀ q, q ∈ targets p → ∃ b : PortBuffer,
          t.txPort q = { s.txPort q with buf := b, dataEnd := b.pos } ∧
          b.pos.val = min ((s.txPort q).buf.pos.val + 1) 72 ∧
          b.overflowed = ((s.txPort q).buf.overflowed || decide ((s.txPort q).buf.pos.val = 72)) ∧
          ∀ n, n < 72 →
            bufGet b n =
              if n = (s.txPort q).buf.pos.val then (bitsOf (s.txPort q).buf n).foldl xor false
              else bufGet (s.txPort q).buf n)

/-! ### Edge capture -/

/-- R97: RX.EDGE, as delivered: halted, queued, or dropped with the fatal fault of cause 1; nothing else is written. With
`SNAP_PACKED` at its default the snapshot is the captured value and the level (log entry 2). -/
def Obligations.RxEdgeResult : Prop :=
  ∀ (s : State) (q : Port) (ts : Ts) (rising : Bool),
    let r := s.rxPort q
    (s.sys.fatal = true → exec (.rxEdge (argOf q) ts rising) s = .next s) ∧
    (s.sys.fatal = false → (r.ring.stop.val + 1) % 29 ≠ r.ring.start.val →
      exec (.rxEdge (argOf q) ts rising) s =
        .next
          (s.setRx q
            { r with
              ring :=
                { r.ring with
                  slot := r.ring.slot.set r.ring.stop.val { ts := ts, rising := rising } r.ring.stop.isLt
                  stop := ringIndex (r.ring.stop.val + 1) } })) ∧
    (s.sys.fatal = false → (r.ring.stop.val + 1) % 29 = r.ring.start.val →
      exec (.rxEdge (argOf q) ts rising) s =
        .next
          { s.setRx q { r with ring := { r.ring with overflowed := true } } with
            sys := { s.sys with fatal := true, faultCause := 1, faultPort := Port.number q } })

/-! ### The decoder -/

/-- R100: both comparisons are inclusive and unsigned. -/
def Obligations.IntervalBoundaries : Prop :=
  ∀ shortThr longThr delta : Ts,
    (delta.toNat ≤ shortThr.toNat → classify shortThr longThr delta = .short) ∧
    (shortThr.toNat < delta.toNat → delta.toNat ≤ longThr.toNat → classify shortThr longThr delta = .long) ∧
    (shortThr.toNat < delta.toNat → longThr.toNat < delta.toNat → classify shortThr longThr delta = .overdue)

/-- R8: the legal clock delays, the orders of the derived values that hold for each of them, and the refusal of any other. -/
def Obligations.LegalDelayThresholds : Prop :=
  ∀ d : Ts,
    (¬ (2 ≤ d.toNat ∧ d.toNat ≤ 32767) → ∀ s : State, s.sys.fatal = false →
      exec (.cfgDelay d) s = .next (s.answer 7 .none)) ∧
    (2 ≤ d.toNat ∧ d.toNat ≤ 32767 →
      legalDelay d = true ∧ 1 ≤ (deriveHalf d).toNat ∧ timeoutThr d ≤ 65534 ∧
        (deriveHalf d).toNat ≤ (deriveShort d).toNat ∧ (deriveShort d).toNat < d.toNat ∧
        d.toNat ≤ (deriveLong d).toNat ∧ (deriveLong d).toNat < timeoutThr d ∧
        (deriveShort d).toNat < 2 * (deriveHalf d).toNat ∧ 2 * (deriveHalf d).toNat ≤ (deriveLong d).toNat)

/-- R103: RX.STEP in START holds on a buffered package, yields on an empty ring, discards a rising snapshot, and takes a falling
one as the start. -/
def Obligations.RxStepInStart : Prop :=
  ∀ (s : State) (q : Port) (now : Ts), s.sys.fatal = false → (s.rxPort q).dec.state = .start →
    let r := s.rxPort q
    let sn := r.ring.slot[r.ring.start.val]
    let ring := { r.ring with start := ringIndex (r.ring.start.val + 1) }
    (r.isDataBuffered = true ∨ r.ring.start = r.ring.stop →
      exec (.rxStep (argOf q) now) s = .next (s.answer 0 (.stepped .yield))) ∧
    (r.isDataBuffered = false → r.ring.start ≠ r.ring.stop → sn.rising = true →
      exec (.rxStep (argOf q) now) s = .next ((s.setRx q { r with ring := ring }).answer 0 (.stepped .again))) ∧
    (r.isDataBuffered = false → r.ring.start ≠ r.ring.stop → sn.rising = false →
      exec (.rxStep (argOf q) now) s =
        .next
          ((s.setRx q
              { r with
                ring := ring
                dec := { state := .decoding, phase := 0, refTs := sn.ts, halfCycles := 0 }
                buf := { r.buf with pos := 0 } }).answer 0 (.stepped .again)))

/-- R104: RX.STEP in DECODING with a snapshot queued: an overdue one stays in the ring, a short one advances by 1, a long one by 2;
an odd phase stores the direction; a bit at position 72 takes the fatal fault of cause 2 and the step still ends. -/
def Obligations.RxStepWithSnapshotQueued : Prop :=
  ∀ (s : State) (q : Port) (now : Ts), s.sys.fatal = false → (s.rxPort q).dec.state = .decoding →
    (s.rxPort q).ring.start ≠ (s.rxPort q).ring.stop →
    let r := s.rxPort q
    let sn := r.ring.slot[r.ring.start.val]
    let delta := (sn.ts - r.dec.refTs).toNat
    let phase (adv : Nat) : Phase := r.dec.phase + BitVec.ofNat Config.phaseBits adv
    let consumed (adv : Nat) (buf : PortBuffer) : State :=
      s.setRx q
        { r with
          ring := { r.ring with start := ringIndex (r.ring.start.val + 1) }
          dec :=
            { state := .decoding, phase := phase adv, refTs := sn.ts
              halfCycles := r.dec.halfCycles + BitVec.ofNat Config.hcBits adv }
          buf := buf }
    let after (adv : Nat) : State :=
      if (phase adv).toNat % 2 = 1 then
        if r.buf.pos.val = 72 then
          { consumed adv { r.buf with overflowed := true } with
            sys := { s.sys with fatal := true, faultCause := 2, faultPort := Port.number q } }
        else consumed adv (bufPut r.buf sn.rising)
      else consumed adv r.buf
    (s.cfg.shortThr.toNat < delta → s.cfg.longThr.toNat < delta →
      exec (.rxStep (argOf q) now) s =
        .next
          ((s.setRx q { r with dec := { r.dec with state := .postTimeoutProcess } }).answer 0 (.stepped .again))) ∧
    (delta ≤ s.cfg.shortThr.toNat →
      exec (.rxStep (argOf q) now) s = .next ((after 1).answer 0 (.stepped .again))) ∧
    (s.cfg.shortThr.toNat < delta → delta ≤ s.cfg.longThr.toNat →
      exec (.rxStep (argOf q) now) s = .next ((after 2).answer 0 (.stepped .again)))

/-- R105: RX.STEP in DECODING with the ring empty: the timeout at `2 * D`, inclusive. -/
def Obligations.RxStepTimeoutCheck : Prop :=
  ∀ (s : State) (q : Port) (now : Ts), s.sys.fatal = false → (s.rxPort q).dec.state = .decoding →
    (s.rxPort q).ring.start = (s.rxPort q).ring.stop →
    let r := s.rxPort q
    exec (.rxStep (argOf q) now) s =
      .next
        (if 2 * s.cfg.clockDelay.toNat ≤ (now - r.dec.refTs).toNat then
          (s.setRx q { r with dec := { r.dec with state := .postTimeoutProcess } }).answer 0 (.stepped .again)
        else s.answer 0 (.stepped .yield))

/-- R106: RX.STEP in POST_TIMEOUT_PROCESS completes the package and emits `rx_done`. -/
def Obligations.RxStepCompletes : Prop :=
  ∀ (s : State) (q : Port) (now : Ts), s.sys.fatal = false → (s.rxPort q).dec.state = .postTimeoutProcess →
    let r := s.rxPort q
    exec (.rxStep (argOf q) now) s =
      .next
        { s.setRx q { r with isDataBuffered := true, dec := { r.dec with state := .start } } with
          out := { status := 0, rdata := .stepped .done, rxDone := some q } }

/-- R107, R188: RX.POLL is RX.STEP repeated while it answers Continue, at most `ring_count + 3` times; it answers Yield or Done. -/
def Obligations.RxPollIsRepeatedStep : Prop :=
  ∀ (s : State) (q : Port) (now : Ts), ∃ k t, 1 ≤ k ∧ k ≤ ringCount (s.rxPort q).ring + 3 ∧
    exec (.rxPoll (argOf q) now) s = .next t ∧
    runOps (List.replicate k (.rxStep (argOf q) now)) s = .next t ∧
    (t.out.rdata = .stepped .yield ∨ t.out.rdata = .stepped .done) ∧
    ∀ j, 0 < j → j < k →
      ∃ u, runOps (List.replicate j (.rxStep (argOf q) now)) s = .next u ∧ u.out.rdata = .stepped .again

/-- R108: RX.CLEAR, done or refused. -/
def Obligations.RxClearResult : Prop :=
  ∀ (s : State) (q : Port),
    (s.sys.fatal = true → exec (.rxClear (argOf q)) s = .next (s.answer 1 .none)) ∧
    (s.sys.fatal = false → (s.rxPort q).isDataBuffered = false →
      exec (.rxClear (argOf q)) s = .next (s.answer 9 .none)) ∧
    (s.sys.fatal = false → (s.rxPort q).isDataBuffered = true →
      ∃ b : PortBuffer, b.pos.val = 0 ∧ b.overflowed = false ∧ (∀ n, n < 72 → bufGet b n = false) ∧
        exec (.rxClear (argOf q)) s =
          .next ((s.setRx q { s.rxPort q with buf := b, isDataBuffered := false }).answer 0 .none)) ∧
    exec (.rxClear .sim) s = .next (s.answer 3 .none)

/-- R112: the only moves of `dec.state`. RX.POLL is RX.STEP repeated. -/
def Obligations.DecoderStateMoves : Prop :=
  ∀ (s : State) (q : Port),
    (∀ now t, exec (.rxStep (argOf q) now) s = .next t →
      let r := s.rxPort q
      let sn := r.ring.slot[r.ring.start.val]
      (t.rxPort q).dec.state =
        match r.dec.state with
        | .start =>
          if s.sys.fatal = false ∧ r.isDataBuffered = false ∧ r.ring.start ≠ r.ring.stop ∧ sn.rising = false then
            .decoding
          else .start
        | .decoding =>
          if s.sys.fatal = false ∧
              (r.ring.start ≠ r.ring.stop ∧
                  classify s.cfg.shortThr s.cfg.longThr (sub16 sn.ts r.dec.refTs) = .overdue ∨
                r.ring.start = r.ring.stop ∧ 2 * s.cfg.clockDelay.toNat ≤ (sub16 now r.dec.refTs).toNat) then
            .postTimeoutProcess
          else .decoding
        | .postTimeoutProcess => if s.sys.fatal = false then .start else .postTimeoutProcess) ∧
    (∀ t, exec .sysReset s = .next t → (t.rxPort q).dec.state = .start) ∧
    (∀ i t, exec i s = .next t → i ≠ .sysReset → ¬ decodes i q → (t.rxPort q).dec.state = (s.rxPort q).dec.state)

/-- R110: from a state with the invariant, an operation emits `rx_done(p)` exactly when it takes `is_data_buffered` of port `p`
from 0 to 1. -/
def Obligations.CompletionIsSignalledOnce : Prop :=
  ∀ (i : Instr) (s t : State) (q : Port), Inv s → exec i s = .next t → s.out.rxDone = none →
    (t.out.rxDone = some q ↔ (s.rxPort q).isDataBuffered = false ∧ (t.rxPort q).isDataBuffered = true)

/-! ### The encoder -/

/-- R115: TX.ENABLE: the refusals in their order, else every target armed, the compare value set only when no port was
transmitting. -/
def Obligations.TxEnableResult : Prop :=
  ∀ (s : State) (p : PortArg) (now : Ts),
    (s.sys.fatal = true → exec (.txEnable p now) s = .next (s.answer 1 .none)) ∧
    (s.sys.fatal = false → (∃ q ∈ targets p, (s.txPort q).isTransmitting = true) →
      exec (.txEnable p now) s = .next (s.answer 4 .none)) ∧
    (s.sys.fatal = false → (∀ q ∈ targets p, (s.txPort q).isTransmitting = false) →
      ((∃ q ∈ targets p, (s.txPort q).dataEnd.val = 0) → exec (.txEnable p now) s = .next (s.answer 5 .none)) ∧
      ((∀ q ∈ targets p, (s.txPort q).dataEnd.val ≠ 0) →
        ((∃ q ∈ targets p, (s.txPort q).buf.overflowed = true) →
          exec (.txEnable p now) s = .next (s.answer 6 .none)) ∧
        ((∀ q ∈ targets p, (s.txPort q).buf.overflowed = false) →
          ∃ t, exec (.txEnable p now) s = .next t ∧ t.rx = s.rx ∧ t.cfg = s.cfg ∧ t.env = s.env ∧
            t.out = { status := 0, rdata := .none, rxDone := s.out.rxDone } ∧
            (∀ q, q ∉ targets p → t.txPort q = s.txPort q) ∧
            (∀ q, q ∈ targets p →
              t.txPort q =
                { s.txPort q with
                  buf := { (s.txPort q).buf with pos := 0 }, secondHalf := false, isTransmitting := true }) ∧
            ((∃ q, (s.txPort q).isTransmitting = true) → t.sys = s.sys) ∧
            ((∀ q, (s.txPort q).isTransmitting = false) →
              t.sys = { s.sys with txCompare := now + s.cfg.clockDelay + s.cfg.txClockShift }))))

/-- R116, R117: TX.TICK: halted, nothing; else every transmitting port makes its half step and the compare value moves by
`half_delay`. The premise leaves out only states in which a port would read position 72. -/
def Obligations.TxTickResult : Prop :=
  ∀ s : State,
    (s.sys.fatal = true → exec .txTick s = .next s) ∧
    (s.sys.fatal = false →
      (∀ q, (s.txPort q).isTransmitting = true →
        (s.txPort q).buf.pos.val < 72 ∨
          (s.txPort q).secondHalf = false ∧ (s.txPort q).buf.pos.val = (s.txPort q).dataEnd.val) →
      ∃ t, exec .txTick s = .next t ∧ t.rx = s.rx ∧ t.cfg = s.cfg ∧ t.out = s.out ∧ t.env = s.env ∧
        t.sys = { s.sys with txCompare := s.sys.txCompare + s.cfg.halfDelay } ∧
        ∀ q, ((s.txPort q).isTransmitting = false → t.txPort q = s.txPort q) ∧
          ((s.txPort q).isTransmitting = true → (s.txPort q).secondHalf = false →
            t.txPort q =
              if (s.txPort q).buf.pos.val = (s.txPort q).dataEnd.val then
                { s.txPort q with line := true, isTransmitting := false }
              else
                { s.txPort q with
                  line := !bufGet (s.txPort q).buf (s.txPort q).buf.pos.val, secondHalf := true }) ∧
          ((s.txPort q).isTransmitting = true → (s.txPort q).secondHalf = true →
            ∃ b : PortBuffer, b.bytes = (s.txPort q).buf.bytes ∧ b.overflowed = (s.txPort q).buf.overflowed ∧
              b.pos.val = (s.txPort q).buf.pos.val + 1 ∧
              t.txPort q =
                { s.txPort q with
                  line := bufGet (s.txPort q).buf (s.txPort q).buf.pos.val, buf := b, secondHalf := false }))

/-- The one fault of the model (log entry 10): only TX.TICK stops, only where a transmitting port stands at position 72 and has not
just finished; no operation is refused by the model. -/
def Obligations.OnlyTheTickCanStop : Prop :=
  ∀ (i : Instr) (s : State),
    (∀ r, exec i s ≠ .refused r) ∧
    ((∃ f, exec i s = .fault f) ↔
      i = .txTick ∧ s.sys.fatal = false ∧
        ∃ q, (s.txPort q).isTransmitting = true ∧ (s.txPort q).buf.pos.val = 72 ∧
          ¬ ((s.txPort q).secondHalf = false ∧ (s.txPort q).dataEnd.val = 72))

/-- R119, R120: a port armed at position 0 puts the levels of its frame on the line tick by tick, is transmitting up to tick `2L`,
and the compare value moves by `half_delay` at every tick. -/
def Obligations.FrameWaveform : Prop :=
  ∀ (s : State) (q : Port), Inv s → s.sys.fatal = false → (s.txPort q).isTransmitting = true →
    (s.txPort q).secondHalf = false → (s.txPort q).buf.pos.val = 0 →
    let L := (s.txPort q).dataEnd.val
    ∀ k, k ≤ 2 * L →
      ∃ t, runOps (List.replicate (k + 1) .txTick) s = .next t ∧
        (lineLevels (bitsOf (s.txPort q).buf L))[k]? = some (t.txPort q).line ∧
        (t.txPort q).isTransmitting = decide (k < 2 * L) ∧
        t.sys.txCompare = s.sys.txCompare + BitVec.ofNat Config.tsBits (k + 1) * s.cfg.halfDelay

/-- R51: the level changes of a frame's line and no others: at the beginning of a cell where the bit equals the one before (the
idle level counting as a 1), at the middle of every cell, and at the release where the last bit is 0. -/
def Obligations.FrameEdgesOfTheLine : Prop :=
  ∀ (bits : List Bool) (t0 h t : Nat) (level : Bool),
    (t, level) ∈ frameEdges bits t0 h ↔
      (∃ k b, bits[k]? = some b ∧ t = t0 + 2 * k * h ∧ level = !b ∧
          (k = 0 ∧ b = true ∨ 0 < k ∧ bits[k - 1]? = some b)) ∨
        (∃ k, bits[k]? = some level ∧ t = t0 + (2 * k + 1) * h) ∨
        (bits.getLast? = some false ∧ t = t0 + 2 * bits.length * h ∧ level = true)

/-! ### The packetizer -/

/-- R124, R125: PKT.HEADER and PKT.ACK. -/
def Obligations.HeaderAndAckFrames : Prop :=
  ∀ (s : State) (p : PortArg) (bc : Bool), s.sys.fatal = false →
    (∀ q ∈ targets p, (s.txPort q).isTransmitting = false) →
    StagesFrame (.pktHeader p bc) p (withParity (frameHeader 8 false bc)) s ∧
    StagesFrame (.pktAck p bc) p (withParity (frameHeader 1 false bc)) s

/-- R126, R129, R130: PKT.ACKADDR, PKT.ANNGEOM, PKT.SETGEOM. -/
def Obligations.AddressAndGeometryFrames : Prop :=
  ∀ (s : State) (p : PortArg) (a b : U8) (bc : Bool), s.sys.fatal = false →
    (∀ q ∈ targets p, (s.txPort q).isTransmitting = false) →
    StagesFrame (.pktAckaddr p a b bc) p (withParity (frameHeader 2 false bc ++ lsbFirst a ++ lsbFirst b)) s ∧
    StagesFrame (.pktAnngeom p a b bc) p (withParity (frameHeader 4 false bc ++ lsbFirst a ++ lsbFirst b)) s ∧
    StagesFrame (.pktSetgeom p a b bc) p (withParity (frameHeader 5 false bc ++ lsbFirst a ++ lsbFirst b)) s

/-- R127, R133: PKT.ENUM and PKT.HEATMODE. -/
def Obligations.EnumerateAndHeatModeFrames : Prop :=
  ∀ (s : State) (p : PortArg) (row col : U8) (bcr bc : Bool) (mode : BitVec 2), s.sys.fatal = false →
    (∀ q ∈ targets p, (s.txPort q).isTransmitting = false) →
    StagesFrame (.pktEnum p row col bcr bc) p
      (withParity (frameHeader 0 false bc ++ lsbFirst row ++ lsbFirst col ++ [bcr])) s ∧
    StagesFrame (.pktHeatmode p mode bc) p (withParity (frameHeader 7 false bc ++ lsbFirst mode)) s

/-- R128: PKT.SYNCTIME, its stuffing sent as 0. -/
def Obligations.SyncTimeFrame : Prop :=
  ∀ (s : State) (p : PortArg) (time latency : U16) (bc : Bool), s.sys.fatal = false →
    (∀ q ∈ targets p, (s.txPort q).isTransmitting = false) →
    StagesFrame (.pktSynctime p time latency bc) p
      (withParity (frameHeader 3 false bc ++ lsbFirst time ++ lsbFirst latency ++ List.replicate 8 false)) s

/-- R131: PKT.HEAT; the duration is split into its low byte and bits 9 to 8. -/
def Obligations.HeatWiresFrame : Prop :=
  ∀ (s : State) (p : PortArg) (row col : U8) (startTs duration : U16) (wires : BitVec 2) (bc : Bool),
    s.sys.fatal = false → (∀ q ∈ targets p, (s.txPort q).isTransmitting = false) →
    StagesFrame (.pktHeat p row col startTs duration wires bc) p
      (withParity
        (frameHeader 6 false bc ++ lsbFirst row ++ lsbFirst col ++ lsbFirst startTs ++
          lsbFirst (duration.extractLsb' 0 8) ++ lsbFirst (duration.extractLsb' 8 2) ++ lsbFirst wires)) s

/-- R132: PKT.HEATRNG: ordered corners are staged, others are refused and write nothing. -/
def Obligations.HeatWiresRangeFrame : Prop :=
  ∀ (s : State) (p : PortArg) (tlRow tlCol brRow brCol : U8) (startTs duration : U16) (wires : BitVec 2) (bc : Bool),
    s.sys.fatal = false → (∀ q ∈ targets p, (s.txPort q).isTransmitting = false) →
    (tlRow.toNat ≤ brRow.toNat ∧ tlCol.toNat ≤ brCol.toNat →
      StagesFrame (.pktHeatrng p tlRow tlCol brRow brCol startTs duration wires bc) p
        (withParity
          (frameHeader 6 true bc ++ lsbFirst tlRow ++ lsbFirst tlCol ++ lsbFirst brRow ++ lsbFirst brCol ++
            lsbFirst startTs ++ lsbFirst (duration.extractLsb' 0 8) ++ lsbFirst (duration.extractLsb' 8 2) ++
            lsbFirst wires)) s) ∧
    (brRow.toNat < tlRow.toNat ∨ brCol.toNat < tlCol.toNat →
      exec (.pktHeatrng p tlRow tlCol brRow brCol startTs duration wires bc) s = .next (s.answer 8 .none))

/-- R134, R135, R152: PKT.INTERPRET: the six checks in their order, then the fields; it changes nothing. -/
def Obligations.InterpretResult : Prop :=
  ∀ (s : State) (q : Port),
    let b := (s.rxPort q).buf
    let n := b.pos.val
    let id := fieldSum b 1 4
    let range := bufGet b 5
    let answers (x : Interpreted) : Prop :=
      exec (.pktInterpret (argOf q)) s = .next (s.answer 0 (.interpreted x))
    exec (.pktInterpret .sim) s = .next (s.answer 3 .none) ∧
    ((s.rxPort q).isDataBuffered = false → exec (.pktInterpret (argOf q)) s = .next (s.answer 9 .none)) ∧
    ((s.rxPort q).isDataBuffered = true →
      if b.overflowed = true then answers (.reject .overflowed)
      else if n ∉ [8, 10, 24, 25, 48, 52, 68] then answers (.reject .badLength)
      else if bufGet b 0 = false then answers (.reject .badStart)
      else if 9 ≤ id ∨ range = true ∧ id ≠ 6 then answers (.reject .badType)
      else if lengthOf id range ≠ some n then answers (.reject .lengthMismatch)
      else if (bitsOf b n).foldl xor false = true then answers (.reject .badParity)
      else answers (.accept (bufGet b 6) (packageRead b id range)))

/-- R137: what any constructor stages on any target port, placed in any receive buffer, is accepted by PKT.INTERPRET with the
constructor's variant and exactly the operand values. -/
def Obligations.CodecRoundTrip : Prop :=
  ∀ (s u : State) (p : PortArg) (q r : Port) (bc : Bool) (pkg : Package), validPackage pkg →
    s.sys.fatal = false → (∀ q ∈ targets p, (s.txPort q).isTransmitting = false) → q ∈ targets p →
    ∃ t, exec (constructor p bc pkg) s = .next t ∧ t.out.status = 0 ∧
      ((u.rxPort r).isDataBuffered = true → (u.rxPort r).buf.bytes = (t.txPort q).buf.bytes →
        (u.rxPort r).buf.pos = (t.txPort q).dataEnd → (u.rxPort r).buf.overflowed = false →
        exec (.pktInterpret (argOf r)) u = .next (u.answer 0 (.interpreted (.accept bc pkg))))

/-- R139: a single inverted bit of an accepted frame is always rejected: BAD_START at position 0, else BAD_TYPE where the type and
range read are no variant, LENGTH_MISMATCH where they are a variant of another length, BAD_PARITY otherwise. Two inverted
bits can pass: the broadcast bit with the parity bit does, in every accepted frame. -/
def Obligations.SingleBitErrorIsRejected : Prop :=
  ∀ (s t : State) (q : Port) (bc : Bool) (pkg : Package),
    exec (.pktInterpret (argOf q)) s = .next (s.answer 0 (.interpreted (.accept bc pkg))) →
    (t.rxPort q).isDataBuffered = true →
    (∀ k, k < (s.rxPort q).buf.pos.val → (t.rxPort q).buf = flipBit (s.rxPort q).buf k →
      exec (.pktInterpret (argOf q)) t =
        .next
          (t.answer 0
            (.interpreted
              (.reject
                (if k = 0 then .badStart
                else
                  match lengthOf (fieldSum (t.rxPort q).buf 1 4) (bufGet (t.rxPort q).buf 5) with
                  | none => .badType
                  | some n => if n = (s.rxPort q).buf.pos.val then .badParity else .lengthMismatch))))) ∧
    ((t.rxPort q).buf = flipBit (flipBit (s.rxPort q).buf 6) ((s.rxPort q).buf.pos.val - 1) →
      exec (.pktInterpret (argOf q)) t = .next (t.answer 0 (.interpreted (.accept (!bc) pkg))))

/-! ### Faults, refusals, ownership -/

/-- R149: `raise Fatal` keeps the first fault's cause and port and writes the three registers only. -/
def Obligations.FirstFaultIsKept : Prop :=
  ∀ (s : State) (c : Cause) (p : Port),
    (s.sys.fatal = true → raiseFatal c p s = s) ∧
    (s.sys.fatal = false →
      raiseFatal c p s =
        { s with sys := { s.sys with fatal := true, faultCause := c.code, faultPort := Port.number p } })

/-- R151: the complete list of what latches the fatal fault: RX.EDGE on a full ring (cause 1), or the decoder of that port
storing a bit at position 72 (cause 2). -/
def Obligations.FatalOnlyFromTheTwoOverflows : Prop :=
  ∀ (i : Instr) (s t : State), exec i s = .next t → s.sys.fatal = false → t.sys.fatal = true →
    ∃ q, t.sys.faultPort = Port.number q ∧
      ((∃ ts rising, i = .rxEdge (argOf q) ts rising) ∧ ringCount (s.rxPort q).ring = 28 ∧ t.sys.faultCause = 1 ∧
          t.rxPort q = { s.rxPort q with ring := { (s.rxPort q).ring with overflowed := true } } ∨
        decodes i q ∧ t.sys.faultCause = 2 ∧ (t.rxPort q).buf.overflowed = true ∧
          (t.rxPort q).buf.pos.val = 72)

/-- R147, R150: every operation while halted. -/
def Obligations.HaltedBlock : Prop :=
  ∀ (i : Instr) (s : State), s.sys.fatal = true →
    (i = .sysReset → ∃ t, exec i s = .next t ∧ t.sys.fatal = false) ∧
    (i ≠ .sysReset →
      ∃ t, exec i s = .next t ∧ t.rx = s.rx ∧ t.tx = s.tx ∧ t.cfg = s.cfg ∧ t.env = s.env ∧
        t.out.rxDone = s.out.rxDone ∧
        (∀ e, i = .sysIrqen e → t.sys = { s.sys with irqEn := e } ∧ t.out.status = 0) ∧
        ((∀ e, i ≠ .sysIrqen e) → t.sys = s.sys) ∧
        (i = .txTick ∨ (∃ q ts rising, i = .rxEdge (argOf q) ts rising) → t = s) ∧
        (∀ q, decodes i q → t.out.rdata = .stepped .yield ∧ t.out.status = 0) ∧
        (refusedWhileHalted i = true → i ≠ .rxClear .sim → t.out.status = 1) ∧
        (i = .sysStatus ∨ (∃ q, i = .rxRead (argOf q) ∨ i = .txStatus (argOf q)) → t.out.status = 0) ∧
        (∀ q, i = .pktInterpret (argOf q) → t.out.status ≠ 1))

/-- R153: the reason is the first row of the table, in checking order, whose condition holds; a refused command writes its
status and nothing else; with no such row the command is done; an illegal word is refused with 2; an event is never
refused. -/
def Obligations.RefusalTable : Prop :=
  (∀ (i : Instr) (s : State), isEvent i = false →
    (∀ r, firstReason i s = some r → exec i s = .next (s.answer r.code .none)) ∧
    (firstReason i s = none → ∃ t, exec i s = .next t ∧ t.out.status = 0)) ∧
  (∀ (s : State) (c : Command) (e : DecodeError) (rest : List Input), s.env.inputs = .command c :: rest →
    NothingPending s → decode c = .error e → step s = .next ((afterInput rest s).answer 2 .none)) ∧
  (∀ (s t : State), exec .txTick s = .next t → t.out = s.out) ∧
  (∀ (s t : State) (q : Port) (ts : Ts) (rising : Bool), exec (.rxEdge (argOf q) ts rising) s = .next t →
    t.out = s.out)

/-- R43: who may write what, but for reset. -/
def Obligations.OwnershipTable : Prop :=
  ∀ (i : Instr) (s t : State), exec i s = .next t → i ≠ .sysReset →
    (∀ q,
      ((t.rxPort q).ring.slot ≠ (s.rxPort q).ring.slot ∨ (t.rxPort q).ring.stop ≠ (s.rxPort q).ring.stop ∨
          (t.rxPort q).ring.overflowed ≠ (s.rxPort q).ring.overflowed →
        ∃ ts rising, i = .rxEdge (argOf q) ts rising) ∧
      ((t.rxPort q).ring.start ≠ (s.rxPort q).ring.start → decodes i q) ∧
      ((t.rxPort q).dec ≠ (s.rxPort q).dec → decodes i q) ∧
      ((t.rxPort q).buf ≠ (s.rxPort q).buf ∨ (t.rxPort q).isDataBuffered ≠ (s.rxPort q).isDataBuffered →
        decodes i q ∨ i = .rxClear (argOf q)) ∧
      ((t.txPort q).buf.bytes ≠ (s.txPort q).buf.bytes ∨ (t.txPort q).dataEnd ≠ (s.txPort q).dataEnd →
        (s.txPort q).isTransmitting = false ∧ ∃ p, stagingPort i = some p ∧ q ∈ targets p) ∧
      ((t.txPort q).buf.pos ≠ (s.txPort q).buf.pos ∨ (t.txPort q).secondHalf ≠ (s.txPort q).secondHalf ∨
          (t.txPort q).line ≠ (s.txPort q).line →
        (s.txPort q).isTransmitting = true ∧ i = .txTick ∨
          (s.txPort q).isTransmitting = false ∧ ∃ p, busyPort i = some p ∧ q ∈ targets p) ∧
      ((s.txPort q).isTransmitting = true → (t.txPort q).isTransmitting = false → i = .txTick) ∧
      ((s.txPort q).isTransmitting = false → (t.txPort q).isTransmitting = true →
        ∃ p now, i = .txEnable p now ∧ q ∈ targets p)) ∧
    (t.sys.txCompare ≠ s.sys.txCompare →
      i = .txTick ∨ (∃ p now, i = .txEnable p now) ∧ ∀ q, (s.txPort q).isTransmitting = false) ∧
    (t.cfg ≠ s.cfg → (∃ d, i = .cfgDelay d) ∨ ∃ sh, i = .cfgShift sh)

/-! ### The invariant -/

/-- The invariant holds after reset (the clock delay of log entry 1 is legal), and every line agrees with its frame. -/
def Obligations.InvariantHoldsAtReset : Prop := Inv State.reset ∧ ∀ p, LineOk (State.reset.txPort p)

/-- R119, step by step: where every transmitting port's line is at the level its frame has at the read cursor and half, every
step from a state with the invariant keeps it so. -/
def Obligations.LineFollowsTheFrame : Prop :=
  ∀ s t : State, Inv s → (∀ p, LineOk (s.txPort p)) → step s = .next t → ∀ p, LineOk (t.txPort p)

/-- Every step from any state with the invariant keeps it: legal configuration and derived registers, consistent fault
registers, cursors within the data, idle lines at 1, completed packages held. -/
def Obligations.EveryStepKeepsTheInvariant : Prop :=
  ∀ s t : State, Inv s → step s = .next t → Inv t

/-- From any state with the invariant no run of any length ever stops, and every state of it has the invariant. -/
def Obligations.RunsNeverStop : Prop :=
  ∀ (n : Nat) (s : State), Inv s → ∃ t, core.run n s = .next t ∧ Inv t

/-! ### Sender to receiver -/

/-- R121, with `SNAP_PACKED` at its default (log entry 2): the edges of any frame of 1 to 72 bits whose first bit is 1, sent from any
time at the receiver's clock delay and polled often enough, are decoded to exactly its bits, once, at the first poll `2 * D`
after the last edge. -/
def Obligations.ManchesterRoundTrip : Prop :=
  ∀ (s : State) (q : Port) (bits : List Bool) (t0 last silence : Nat) (tr : List ((Nat × Bool) × List Nat)),
    Inv s → s.sys.fatal = false → (s.rxPort q).dec.state = .start → (s.rxPort q).isDataBuffered = false →
    ringEmpty (s.rxPort q).ring = true → bits.length ≤ 72 → bits.head? = some true →
    tr.map (fun x => x.1) = frameEdges bits t0 s.cfg.halfDelay.toNat → PolledOften tr →
    (∀ x ∈ tr, ∀ d ∈ x.2, d < 2 * s.cfg.clockDelay.toNat) → tr.getLast?.map (fun x => x.1.1) = some last →
    2 * s.cfg.clockDelay.toNat ≤ silence → silence < 65536 →
    ∃ u t, runOps (deliveries q tr) s = .next u ∧ (u.rxPort q).isDataBuffered = false ∧
      u.out.rxDone = s.out.rxDone ∧
      exec (.rxPoll (argOf q) (BitVec.ofNat Config.tsBits (last + silence))) u = .next t ∧
      (t.rxPort q).isDataBuffered = true ∧ t.out.rxDone = some q ∧ t.out.rdata = .stepped .done ∧
      (t.rxPort q).buf.pos.val = bits.length ∧ bitsOf (t.rxPort q).buf bits.length = bits ∧
      (t.rxPort q).buf.overflowed = false ∧
      (t.rxPort q).dec.halfCycles.toNat =
        if bits.getLast? = some true then 2 * bits.length - 1 else 2 * bits.length
end

