-- ==== Sys2Proof/Laws/State.lean ====
section
/-! SUPPORT. The small lemmas of the ports and of the state updates: one per field per update. -/

namespace Sys2Proof.Machine

/-! ### One of each port -/

theorem portIndex_injective {p q : Port} (h : portIndex p = portIndex q) : p = q := by
  cases p <;> cases q <;> first | rfl | exact absurd h (by decide)

/-- The named ports are the `N_PORTS` ports, each once (R6, R13). -/
theorem allPorts_index : allPorts.map portIndex = List.finRange Config.nPorts := by decide

theorem mem_allPorts (p : Port) : p ∈ allPorts := by cases p <;> decide

theorem PerPort.get_set {α : Type} (x : PerPort α) (p q : Port) (a : α) :
    (x.set p a).get q = if q = p then a else x.get q := by
  simp only [PerPort.get, PerPort.set, Fin.getElem_fin, Vector.getElem_set]
  by_cases h : q = p
  · simp [h]
  · have : (portIndex p).val ≠ (portIndex q).val := fun hv => h (portIndex_injective (Fin.ext hv)).symm
    simp [h, this]

@[simp] theorem PerPort.get_set_self {α : Type} (x : PerPort α) (p : Port) (a : α) : (x.set p a).get p = a := by
  simp [PerPort.get_set]

theorem PerPort.get_set_of_ne {α : Type} (x : PerPort α) {p q : Port} (a : α) (h : q ≠ p) :
    (x.set p a).get q = x.get q := by
  simp [PerPort.get_set, h]

@[simp] theorem PerPort.get_fill {α : Type} (a : α) (p : Port) : (PerPort.fill a).get p = a := by
  simp [PerPort.get, PerPort.fill]

theorem PerPort.ext_get {α : Type} {x y : PerPort α} (h : ∀ p, x.get p = y.get p) : x = y := by
  obtain ⟨x⟩ := x
  obtain ⟨y⟩ := y
  have hn := h .n
  have he := h .e
  have hs := h .s
  congr 1
  apply Vector.ext
  intro i hi
  match i, hi with
  | 0, _ => exact hn
  | 1, _ => exact he
  | 2, _ => exact hs

@[simp] theorem PerPort.set_set {α : Type} (x : PerPort α) (p : Port) (a b : α) :
    (x.set p a).set p b = x.set p b :=
  PerPort.ext_get fun q => by simp only [PerPort.get_set]; split <;> rfl

@[simp] theorem PerPort.set_get {α : Type} (x : PerPort α) (p : Port) : x.set p (x.get p) = x :=
  PerPort.ext_get fun q => by
    rw [PerPort.get_set]
    split
    · subst q; rfl
    · rfl

/-- A property of all three elements, port by port. -/
theorem allPorts_iff {α : Type} (P : α → Prop) (x : PerPort α) : AllPorts P x ↔ ∀ p, P (x.get p) :=
  ⟨fun h p => by cases p <;> tauto, fun h => ⟨h .n, h .e, h .s⟩⟩

/-! ### `rx[p]` and `tx[p]` -/

@[simp] theorem rxPort_setRx_self (s : State) (p : Port) (r : RxPort) : (s.setRx p r).rxPort p = r :=
  PerPort.get_set_self ..

theorem rxPort_setRx (s : State) (p q : Port) (r : RxPort) :
    (s.setRx p r).rxPort q = if q = p then r else s.rxPort q := PerPort.get_set ..

theorem rxPort_setRx_of_ne (s : State) {p q : Port} (r : RxPort) (h : q ≠ p) :
    (s.setRx p r).rxPort q = s.rxPort q := PerPort.get_set_of_ne _ _ h

@[simp] theorem setRx_setRx (s : State) (p : Port) (a b : RxPort) : (s.setRx p a).setRx p b = s.setRx p b := by
  simp [State.setRx]

@[simp] theorem setRx_tx (s : State) (p : Port) (r : RxPort) : (s.setRx p r).tx = s.tx := rfl
@[simp] theorem setRx_cfg (s : State) (p : Port) (r : RxPort) : (s.setRx p r).cfg = s.cfg := rfl
@[simp] theorem setRx_sys (s : State) (p : Port) (r : RxPort) : (s.setRx p r).sys = s.sys := rfl
@[simp] theorem setRx_out (s : State) (p : Port) (r : RxPort) : (s.setRx p r).out = s.out := rfl
@[simp] theorem setRx_env (s : State) (p : Port) (r : RxPort) : (s.setRx p r).env = s.env := rfl
@[simp] theorem setRx_txPort (s : State) (p q : Port) (r : RxPort) : (s.setRx p r).txPort q = s.txPort q := rfl

@[simp] theorem txPort_setTx_self (s : State) (p : Port) (t : TxPort) : (s.setTx p t).txPort p = t :=
  PerPort.get_set_self ..

theorem txPort_setTx (s : State) (p q : Port) (t : TxPort) :
    (s.setTx p t).txPort q = if q = p then t else s.txPort q := PerPort.get_set ..

theorem txPort_setTx_of_ne (s : State) {p q : Port} (t : TxPort) (h : q ≠ p) :
    (s.setTx p t).txPort q = s.txPort q := PerPort.get_set_of_ne _ _ h

@[simp] theorem setTx_rx (s : State) (p : Port) (t : TxPort) : (s.setTx p t).rx = s.rx := rfl
@[simp] theorem setTx_cfg (s : State) (p : Port) (t : TxPort) : (s.setTx p t).cfg = s.cfg := rfl
@[simp] theorem setTx_sys (s : State) (p : Port) (t : TxPort) : (s.setTx p t).sys = s.sys := rfl
@[simp] theorem setTx_out (s : State) (p : Port) (t : TxPort) : (s.setTx p t).out = s.out := rfl
@[simp] theorem setTx_env (s : State) (p : Port) (t : TxPort) : (s.setTx p t).env = s.env := rfl
@[simp] theorem setTx_rxPort (s : State) (p q : Port) (t : TxPort) : (s.setTx p t).rxPort q = s.rxPort q := rfl

/-! ### The outputs of a command -/

@[simp] theorem answer_rx (s : State) (c : U8) (r : Record) : (s.answer c r).rx = s.rx := rfl
@[simp] theorem answer_tx (s : State) (c : U8) (r : Record) : (s.answer c r).tx = s.tx := rfl
@[simp] theorem answer_cfg (s : State) (c : U8) (r : Record) : (s.answer c r).cfg = s.cfg := rfl
@[simp] theorem answer_sys (s : State) (c : U8) (r : Record) : (s.answer c r).sys = s.sys := rfl
@[simp] theorem answer_env (s : State) (c : U8) (r : Record) : (s.answer c r).env = s.env := rfl
@[simp] theorem answer_status (s : State) (c : U8) (r : Record) : (s.answer c r).out.status = c := rfl
@[simp] theorem answer_rdata (s : State) (c : U8) (r : Record) : (s.answer c r).out.rdata = r := rfl
@[simp] theorem answer_rxDone (s : State) (c : U8) (r : Record) : (s.answer c r).out.rxDone = s.out.rxDone := rfl
@[simp] theorem answer_rxPort (s : State) (c : U8) (r : Record) (p : Port) : (s.answer c r).rxPort p = s.rxPort p := rfl
@[simp] theorem answer_txPort (s : State) (c : U8) (r : Record) (p : Port) : (s.answer c r).txPort p = s.txPort p := rfl
@[simp] theorem answer_answer (s : State) (c d : U8) (r x : Record) : (s.answer c r).answer d x = s.answer d x := rfl

/-! ### The fatal fault -/

@[simp] theorem raiseFatal_rx (c : Cause) (p : Port) (s : State) : (raiseFatal c p s).rx = s.rx := rfl
@[simp] theorem raiseFatal_tx (c : Cause) (p : Port) (s : State) : (raiseFatal c p s).tx = s.tx := rfl
@[simp] theorem raiseFatal_cfg (c : Cause) (p : Port) (s : State) : (raiseFatal c p s).cfg = s.cfg := rfl
@[simp] theorem raiseFatal_out (c : Cause) (p : Port) (s : State) : (raiseFatal c p s).out = s.out := rfl
@[simp] theorem raiseFatal_env (c : Cause) (p : Port) (s : State) : (raiseFatal c p s).env = s.env := rfl
@[simp] theorem raiseFatal_rxPort (c : Cause) (p q : Port) (s : State) : (raiseFatal c p s).rxPort q = s.rxPort q := rfl
@[simp] theorem raiseFatal_txPort (c : Cause) (p q : Port) (s : State) : (raiseFatal c p s).txPort q = s.txPort q := rfl
@[simp] theorem raiseFatal_fatal (c : Cause) (p : Port) (s : State) : (raiseFatal c p s).sys.fatal = true := rfl
@[simp] theorem raiseFatal_irqEn (c : Cause) (p : Port) (s : State) : (raiseFatal c p s).sys.irqEn = s.sys.irqEn := rfl
@[simp] theorem raiseFatal_txCompare (c : Cause) (p : Port) (s : State) :
    (raiseFatal c p s).sys.txCompare = s.sys.txCompare := rfl

/-! ### Environment updates -/

@[simp] theorem endStrobe_block (s : State) : SameBlock s (endStrobe s) := ⟨rfl, rfl, rfl, rfl⟩
@[simp] theorem endStrobe_env (s : State) : (endStrobe s).env = s.env := rfl
@[simp] theorem endStrobe_sys (s : State) : (endStrobe s).sys = s.sys := rfl
@[simp] theorem endStrobe_rxDone (s : State) : (endStrobe s).out.rxDone = none := rfl
@[simp] theorem endStrobe_status (s : State) : (endStrobe s).out.status = s.out.status := rfl
@[simp] theorem endStrobe_rdata (s : State) : (endStrobe s).out.rdata = s.out.rdata := rfl
@[simp] theorem setInputs_block (is : List Input) (s : State) : SameBlock s (setInputs is s) := ⟨rfl, rfl, rfl, rfl⟩
@[simp] theorem setInputs_inputs (is : List Input) (s : State) : (setInputs is s).env.inputs = is := rfl
@[simp] theorem setInputs_out (is : List Input) (s : State) : (setInputs is s).out = s.out := rfl
@[simp] theorem setPendingEdge_block (p : Port) (x : Option Snapshot) (s : State) :
    SameBlock s (setPendingEdge p x s) := ⟨rfl, rfl, rfl, rfl⟩
@[simp] theorem setPendingEdge_inputs (p : Port) (x : Option Snapshot) (s : State) :
    (setPendingEdge p x s).env.inputs = s.env.inputs := rfl
@[simp] theorem setPendingEdge_out (p : Port) (x : Option Snapshot) (s : State) :
    (setPendingEdge p x s).out = s.out := rfl
@[simp] theorem setPendingTick_block (b : Bool) (s : State) : SameBlock s (setPendingTick b s) := ⟨rfl, rfl, rfl, rfl⟩
@[simp] theorem setPendingTick_inputs (b : Bool) (s : State) : (setPendingTick b s).env.inputs = s.env.inputs := rfl
@[simp] theorem setPendingTick_out (b : Bool) (s : State) : (setPendingTick b s).out = s.out := rfl

/-- The fetch of an input with nothing pending: the strobe ends and the input is taken. -/
theorem setInputs_endStrobe (is : List Input) (s : State) : setInputs is (endStrobe s) = afterInput is s := rfl

/-! ### Reset -/

@[simp] theorem resetBlock_rx (s : State) : (resetBlock s).rx = State.reset.rx := rfl
@[simp] theorem resetBlock_tx (s : State) : (resetBlock s).tx = State.reset.tx := rfl
@[simp] theorem resetBlock_cfg (s : State) : (resetBlock s).cfg = State.reset.cfg := rfl
@[simp] theorem resetBlock_sys (s : State) : (resetBlock s).sys = State.reset.sys := rfl
@[simp] theorem resetBlock_out (s : State) : (resetBlock s).out = State.reset.out := rfl
@[simp] theorem resetBlock_env (s : State) : (resetBlock s).env = s.env := rfl

end Sys2Proof.Machine
end

