-- ==== Sys2Proof/Laws/Buffer.lean ====
section
/-! SUPPORT. What the PortBuffer primitives do (spec/40_buffer_ops.md R80 to R87): each is unfolded here once. -/

namespace Sys2Proof.Machine

/-- A bit written into a byte reads back, the others are kept (R84). -/
theorem getLsbD_writeBit (y : U8) (k : Nat) (v : Bool) (hk : k < 8) (j : Nat) (hj : j < 8) :
    (writeBit y k v).getLsbD j = if j = k then v else y.getLsbD j := by
  have h : (1#8 <<< k).getLsbD j = decide (j = k) := by
    rw [BitVec.getLsbD_shiftLeft, BitVec.getLsbD_one]
    by_cases h1 : j < k
    · simp [h1, Nat.ne_of_lt h1]
    · by_cases h2 : j = k
      · subst h2; simp [hj]
      · have : j - k ≠ 0 := by omega
        simp [h2, this]
  unfold writeBit
  by_cases hjk : j = k
  · subst hjk
    cases v
    · rw [if_neg (by decide), if_pos rfl, BitVec.getLsbD_and, BitVec.getLsbD_not, h]; simp
    · rw [if_pos rfl, if_pos rfl, BitVec.getLsbD_or, h]; simp
  · rw [if_neg hjk]
    cases v
    · rw [if_neg (by decide), BitVec.getLsbD_and, BitVec.getLsbD_not, h]; simp [hjk, hj]
    · rw [if_pos rfl, BitVec.getLsbD_or, h]; simp [hjk]

/-- Reading a bit after writing one: the same position reads the value written, another reads as before (R34, R84). -/
theorem bufGet_writeBytes (b : PortBuffer) (bytes : Vector U8 Config.bufBytes) (m : Nat) (v : Bool)
    (hb : b.bytes = writeBytes bytes m v) (hm : m < Config.bufBits) (n : Nat) (hn : n < Config.bufBits) :
    bufGet b n = if n = m then v else (bytes[n / 8]?.getD 0).getLsbD (n % 8) := by
  have hm8 : m / 8 < Config.bufBytes := by simp only [Config.bufBits, Config.bufBytes] at *; omega
  have hn8 : n / 8 < Config.bufBytes := by simp only [Config.bufBits, Config.bufBytes] at *; omega
  unfold bufGet
  rw [hb, writeBytes, dif_pos hm8, Vector.getElem?_set]
  by_cases hbyte : m / 8 = n / 8
  · rw [if_pos hbyte]
    simp only [Option.getD_some]
    rw [getLsbD_writeBit _ _ _ (Nat.mod_lt _ (by decide)) _ (Nat.mod_lt _ (by decide))]
    by_cases hnm : n = m
    · subst hnm; simp
    · have : n % 8 ≠ m % 8 := by omega
      rw [if_neg this, if_neg hnm]
      simp only [hbyte, Vector.getElem?_eq_getElem hn8, Option.getD_some]
  · have hnm : n ≠ m := by intro h; subst h; exact hbyte rfl
    rw [if_neg hbyte, if_neg hnm]

/-- The cursor never exceeds the end position (R20). -/
theorem pos_le (b : PortBuffer) : b.pos.val ≤ Config.bufBits := Nat.le_of_lt_succ b.pos.isLt

/-- `ptr_inc` with room (R82). -/
theorem ptrInc_pos_of_lt (b : PortBuffer) (h : b.pos.val < Config.bufBits) : (ptrInc b).pos.val = b.pos.val + 1 := by
  simp only [ptrInc, dif_pos h]

/-- `ptr_inc` at the end position (R82). -/
theorem ptrInc_of_end (b : PortBuffer) (h : b.pos.val = Config.bufBits) : ptrInc b = b := by
  simp only [ptrInc, h, Nat.lt_irrefl, ↓reduceDIte]

@[simp] theorem ptrInc_bytes (b : PortBuffer) : (ptrInc b).bytes = b.bytes := by
  unfold ptrInc; split <;> rfl

@[simp] theorem ptrInc_overflowed (b : PortBuffer) : (ptrInc b).overflowed = b.overflowed := by
  unfold ptrInc; split <;> rfl

@[simp] theorem ptrStart_pos (b : PortBuffer) : (ptrStart b).pos = 0 := rfl
@[simp] theorem ptrStart_bytes (b : PortBuffer) : (ptrStart b).bytes = b.bytes := rfl
@[simp] theorem ptrStart_overflowed (b : PortBuffer) : (ptrStart b).overflowed = b.overflowed := rfl
@[simp] theorem bufClear_pos (b : PortBuffer) : (bufClear b).pos = 0 := rfl
@[simp] theorem bufClear_overflowed (b : PortBuffer) : (bufClear b).overflowed = false := rfl

/-- A cleared buffer reads 0 everywhere (R83). -/
@[simp] theorem bufGet_bufClear (b : PortBuffer) (n : Nat) : bufGet (bufClear b) n = false := by
  simp only [bufGet, bufClear, Vector.getElem?_replicate]
  split <;> simp

/-- Equal bytes read equal bits. -/
theorem bufGet_congr {a b : PortBuffer} (h : a.bytes = b.bytes) (n : Nat) : bufGet a n = bufGet b n := by
  simp only [bufGet, h]

/-- `buf_put` on a full buffer (R84). -/
theorem bufPut_of_full (b : PortBuffer) (v : Bool) (h : b.pos.val = Config.bufBits) :
    bufPut b v = { b with overflowed := true } := by
  simp only [bufPut, if_pos h]

/-- `buf_put` with room (R84). -/
theorem bufPut_of_room (b : PortBuffer) (v : Bool) (h : b.pos.val < Config.bufBits) :
    bufPut b v = ptrInc { b with bytes := writeBytes b.bytes b.pos.val v } := by
  simp only [bufPut, if_neg (Nat.ne_of_lt h)]

theorem bufPut_pos (b : PortBuffer) (v : Bool) : (bufPut b v).pos.val = min (b.pos.val + 1) Config.bufBits := by
  have := pos_le b
  rcases Nat.lt_or_ge b.pos.val Config.bufBits with h | h
  · rw [bufPut_of_room b v h, ptrInc_pos_of_lt { b with bytes := writeBytes b.bytes b.pos.val v } h]
    simp only; omega
  · rw [bufPut_of_full b v (by omega)]; simp only; omega

@[simp] theorem putBits_nil (b : PortBuffer) : putBits b [] = b := rfl

@[simp] theorem putBits_cons (b : PortBuffer) (v : Bool) (bits : List Bool) :
    putBits b (v :: bits) = putBits (bufPut b v) bits := rfl

/-- Bits appended in two parts are appended in one (R84, R86). -/
theorem putBits_append (b : PortBuffer) (xs ys : List Bool) : putBits b (xs ++ ys) = putBits (putBits b xs) ys :=
  List.foldl_append ..

theorem fieldBits_length (v : U16) (w : Nat) : (fieldBits v w).length = w := by simp [fieldBits]

/-- `parity_of` as the exclusive or of the bits (R87). -/
theorem parityOf_eq (b : PortBuffer) (n : Nat) : parityOf b n = (bitsOf b n).foldl xor false := by
  simp only [parityOf, bitsOf, List.foldl_map]

end Sys2Proof.Machine
end

