-- ==== Sys2Proof/Laws/Ops.lean ====
section
/-! SUPPORT. What the shared operations can do, said once each: how a command ends, the port operands, the ring indices, the
decoder's micro-step, the tick, the fetch. Proofs cite these instead of unfolding the operations. -/

namespace Sys2Proof.Machine

/-! ### How a command ends -/

theorem require_eq_next {c : Bool} {r : Reason} {s t : State} {k : Host.Outcome State Fault Refusal} :
    require c r s k = .next t ↔ c = false ∧ t = s.answer r.code .none ∨ c = true ∧ k = .next t := by
  cases c <;> simp [require, refuse, eq_comm]

theorem finish_eq_next {r : Record} {s t : State} : finish r s = .next t ↔ t = s.answer 0 r := by
  simp [finish, eq_comm]

@[simp] theorem require_true (r : Reason) (s : State) (k : Host.Outcome State Fault Refusal) :
    require true r s k = k := rfl

@[simp] theorem require_false (r : Reason) (s : State) (k : Host.Outcome State Fault Refusal) :
    require false r s k = .next (s.answer r.code .none) := rfl

/-! ### Port operands -/

@[simp] theorem physical_argOf (q : Port) : physical (argOf q) = some q := by cases q <;> rfl

theorem physical_eq_some {p : PortArg} {q : Port} : physical p = some q ↔ p = argOf q := by
  cases p <;> cases q <;> simp [physical, argOf]

theorem argOf_injective {p q : Port} (h : argOf p = argOf q) : p = q := by
  cases p <;> cases q <;> first | rfl | exact absurd h (by decide)

@[simp] theorem onPhysical_argOf (q : Port) (s : State) (k : Port → Host.Outcome State Fault Refusal) :
    onPhysical (argOf q) s k = k q := by cases q <;> rfl

@[simp] theorem onPhysical_sim (s : State) (k : Port → Host.Outcome State Fault Refusal) :
    onPhysical .sim s k = .next (s.answer 3 .none) := rfl

/-- What an operation on a physical port can do. -/
theorem onPhysical_eq_next {p : PortArg} {s t : State} {k : Port → Host.Outcome State Fault Refusal}
    (h : onPhysical p s k = .next t) :
    (p = .sim ∧ t = s.answer 3 .none) ∨ ∃ q, p = argOf q ∧ k q = .next t := by
  cases p
  · exact .inr ⟨.n, rfl, h⟩
  · exact .inr ⟨.e, rfl, h⟩
  · exact .inr ⟨.s, rfl, h⟩
  · exact .inl ⟨rfl, by simpa [eq_comm] using h⟩

theorem targetsIdle_iff (p : PortArg) (s : State) :
    targetsIdle p s = true ↔ ∀ q ∈ targets p, (s.txPort q).isTransmitting = false := by
  simp [targetsIdle]

/-- What a staging operation can do (R91). -/
theorem staging_eq_next {p : PortArg} {s t : State} {k : Host.Outcome State Fault Refusal}
    (h : staging p s k = .next t) :
    (s.sys.fatal = true ∧ t = s.answer 1 .none) ∨
      (s.sys.fatal = false ∧ targetsIdle p s = false ∧ t = s.answer 4 .none) ∨
      (s.sys.fatal = false ∧ targetsIdle p s = true ∧ k = .next t) := by
  unfold staging at h
  rw [require_eq_next] at h
  rcases h with ⟨h, rfl⟩ | ⟨h, h'⟩
  · exact .inl ⟨by simpa using h, rfl⟩
  · rw [require_eq_next] at h'
    rcases h' with ⟨h', rfl⟩ | ⟨h', h''⟩
    · exact .inr (.inl ⟨by simpa using h, h', rfl⟩)
    · exact .inr (.inr ⟨by simpa using h, h', h''⟩)

/-- A staging operation whose precondition holds goes on (R91). -/
theorem staging_of_ok {p : PortArg} {s : State} (k : Host.Outcome State Fault Refusal) (hf : s.sys.fatal = false)
    (hi : ∀ q ∈ targets p, (s.txPort q).isTransmitting = false) : staging p s k = k := by
  simp [staging, hf, (targetsIdle_iff p s).mpr hi]

/-- Every target port updated, every other port kept (R14, R114). -/
theorem txPort_updateTargets (p : PortArg) (f : TxPort → TxPort) (s : State) (q : Port) :
    (updateTargets p f s).txPort q = if q ∈ targets p then f (s.txPort q) else s.txPort q := by
  cases p <;> cases q <;> simp [updateTargets, targets, txPort_setTx]

theorem updateTargets_frame (p : PortArg) (f : TxPort → TxPort) (s : State) :
    (updateTargets p f s).rx = s.rx ∧ (updateTargets p f s).cfg = s.cfg ∧ (updateTargets p f s).sys = s.sys ∧
      (updateTargets p f s).out = s.out ∧ (updateTargets p f s).env = s.env := by
  cases p <;> exact ⟨rfl, rfl, rfl, rfl, rfl⟩

/-- Some port is transmitting (R122). -/
theorem txIrqEnable_iff (s : State) : txIrqEnable s = true ↔ ∃ p, (s.txPort p).isTransmitting = true := by
  constructor
  · intro h
    simp only [txIrqEnable, Bool.or_eq_true] at h
    rcases h with (h | h) | h
    exacts [⟨_, h⟩, ⟨_, h⟩, ⟨_, h⟩]
  · rintro ⟨p, h⟩
    cases p <;> simp [txIrqEnable, h]

/-! ### The ring -/

theorem ringIndex_val (k : Nat) : (ringIndex k).val = k % 29 := rfl

theorem ringEmpty_iff (q : Ring) : ringEmpty q = true ↔ q.start = q.stop := by simp [ringEmpty]

@[simp] theorem ringEnqueueStored_eq (q : Ring) : ringEnqueueStored q = !ringFull q := rfl

theorem ringFull_iff (q : Ring) : ringFull q = true ↔ (q.stop.val + 1) % 29 = q.start.val := by
  simp [ringFull, ringNext, Fin.ext_iff, ringIndex_val]

theorem ringEnqueue_of_full {q : Ring} (h : ringFull q = true) (sn : Snapshot) :
    ringEnqueue q sn = { q with overflowed := true } := by simp [ringEnqueue, h]

theorem ringEnqueue_of_room {q : Ring} (h : ringFull q = false) (sn : Snapshot) :
    ringEnqueue q sn =
      { q with slot := q.slot.set q.stop.val sn q.stop.isLt, stop := ringNext q.stop } := by simp [ringEnqueue, h]

/-! ### The decoder -/

/-- What a micro-step keeps, whatever it does: the transmit side, the configuration, the environment, the other ports, the
command outputs, the interrupt registers (spec/20_memory.md R43). -/
theorem microStep_frame (q : Port) (now : U16) (s : State) :
    (microStep q now s).1.tx = s.tx ∧ (microStep q now s).1.cfg = s.cfg ∧ (microStep q now s).1.env = s.env ∧
      (microStep q now s).1.out.status = s.out.status ∧ (microStep q now s).1.out.rdata = s.out.rdata ∧
      (microStep q now s).1.sys.irqEn = s.sys.irqEn ∧ (microStep q now s).1.sys.txCompare = s.sys.txCompare ∧
      ∀ p, p ≠ q → (microStep q now s).1.rxPort p = s.rxPort p := by
  have hrx : ∀ (t : State) (r : RxPort) (p : Port), p ≠ q → (t.setRx q r).rxPort p = t.rxPort p :=
    fun t r p h => rxPort_setRx_of_ne t r h
  have hst : ∀ (v : Bool) (t : State) (p : Port), p ≠ q → (storeBit q v t).rxPort p = t.rxPort p := by
    intro v t p h
    simp only [storeBit]; split <;> simp [hrx _ _ p h]
  unfold microStep
  split
  · simp
  · split
    · unfold stepStart; simp only
      split
      · simp
      · split
        · simp
        · split <;> simp +contextual [hrx]
    · split
      · unfold stepTimeout; split <;> simp +contextual [setDecState, hrx]
      · unfold stepQueued; simp only
        split
        · simp +contextual [setDecState, hrx]
        all_goals
          simp only [consume, setRef]
          split
          · simp only [storeBit]; split <;> simp +contextual [hrx]
          · simp +contextual [hrx]
    · simp only [stepComplete]
      refine ⟨rfl, rfl, rfl, rfl, rfl, rfl, rfl, fun p h => ?_⟩
      exact hrx s _ p h

/-- A micro-step of a halted block changes nothing (R102, R150). -/
theorem microStep_of_fatal (q : Port) (now : U16) {s : State} (h : s.sys.fatal = true) :
    microStep q now s = (s, .yield) := by simp [microStep, h]

/-- A poll takes a micro-step and goes on only after `Continue` (R107). -/
theorem pollLoop_succ (q : Port) (now : U16) (k : Nat) (s : State) :
    pollLoop q now (k + 1) s =
      if (microStep q now s).2 = .again then pollLoop q now k (microStep q now s).1 else microStep q now s := by
  rw [pollLoop]
  rcases h : microStep q now s with ⟨t, r⟩
  cases r <;> simp

/-- Whatever every micro-step keeps, a poll keeps. -/
theorem pollLoop_keeps {P : State → Prop} {q : Port} {now : U16} (h : ∀ s, P s → P (microStep q now s).1) (k : Nat)
    (s : State) (hs : P s) : P (pollLoop q now k s).1 := by
  induction k generalizing s with
  | zero => exact hs
  | succ k ih =>
    rw [pollLoop_succ]
    split
    · exact ih _ (h s hs)
    · exact h s hs

/-! ### The tick -/

/-- What a half step can do (R116). -/
theorem txHalfStep_cases (t : TxPort) :
    (t.secondHalf = false ∧ t.buf.pos.val = t.dataEnd.val ∧
        txHalfStep t = some { t with line := true, isTransmitting := false }) ∨
      (¬ (t.secondHalf = false ∧ t.buf.pos.val = t.dataEnd.val) ∧ t.buf.pos.val = Config.bufBits ∧
        txHalfStep t = none) ∨
      (t.secondHalf = true ∧ t.buf.pos.val < Config.bufBits ∧
        txHalfStep t =
          some { t with line := bufGet t.buf t.buf.pos.val, buf := ptrInc t.buf, secondHalf := false }) ∨
      (t.secondHalf = false ∧ t.buf.pos.val ≠ t.dataEnd.val ∧ t.buf.pos.val < Config.bufBits ∧
        txHalfStep t = some { t with line := !bufGet t.buf t.buf.pos.val, secondHalf := true }) := by
  have hle := pos_le t.buf
  unfold txHalfStep
  cases h2 : t.secondHalf <;> by_cases he : t.buf.pos.val = t.dataEnd.val <;>
    by_cases hb : t.buf.pos.val = Config.bufBits <;> simp [he, hb] <;> grind

/-- What a tick can do (R117). -/
theorem execTxTick_cases (s : State) :
    (s.sys.fatal = true ∧ execTxTick s = .next s) ∨
      (s.sys.fatal = false ∧ (∃ p, (s.txPort p).isTransmitting = true ∧ txHalfStep (s.txPort p) = none ∧
        execTxTick s = .fault (.readAtEnd p))) ∨
      (s.sys.fatal = false ∧ ∃ x : PerPort TxPort, (∀ p, tickPort (s.txPort p) = some (x.get p)) ∧
        execTxTick s =
          .next { s with tx := x, sys := { s.sys with txCompare := add16 s.sys.txCompare s.cfg.halfDelay } }) := by
  unfold execTxTick
  cases hf : s.sys.fatal
  · right
    have hnone : ∀ p, tickPort (s.tx.get p) = none →
        (s.txPort p).isTransmitting = true ∧ txHalfStep (s.txPort p) = none := by
      intro p h
      simp only [tickPort] at h
      split at h
      · exact ⟨‹_›, h⟩
      · exact absurd h (by simp)
    simp only [tickPorts]
    rcases hn : tickPort (s.tx.get .n) with _ | a
    · exact .inl ⟨trivial, .n, (hnone .n hn).1, (hnone .n hn).2, rfl⟩
    · rcases he : tickPort (s.tx.get .e) with _ | b
      · exact .inl ⟨trivial, .e, (hnone .e he).1, (hnone .e he).2, rfl⟩
      · rcases hs : tickPort (s.tx.get .s) with _ | c
        · exact .inl ⟨trivial, .s, (hnone .s hs).1, (hnone .s hs).2, rfl⟩
        · refine .inr ⟨trivial, ((s.tx.set .n a).set .e b).set .s c, fun p => ?_, rfl⟩
          cases p <;> simpa [PerPort.get_set, State.txPort] using by assumption
  · exact .inl ⟨rfl, rfl⟩

/-! ### The fetch -/

/-- With nothing pending the fetch goes to the inputs (R157). -/
theorem fetch_of_nothingPending {s : State} (h : NothingPending s) : fetch s = fetchInput (endStrobe s) := by
  unfold fetch
  rcases h with h | ⟨h1, h2⟩
  · simp [h]
  · simp [h1, h2, firstPending]

/-- The fetch changes no element of the block and no output but the strobe (R159). -/
theorem fetch_frame (s : State) :
    SameBlock s (fetch s).1 ∧ (fetch s).1.out = { s.out with rxDone := none } := by
  have hin : ∀ t : State, SameBlock t (fetchInput t).1 ∧ (fetchInput t).1.out = t.out := by
    intro t
    unfold fetchInput
    split
    · exact ⟨⟨rfl, rfl, rfl, rfl⟩, rfl⟩
    · unfold fetchCommand; split <;> exact ⟨⟨rfl, rfl, rfl, rfl⟩, rfl⟩
    · unfold fetchPinChange; split
      · exact ⟨⟨rfl, rfl, rfl, rfl⟩, rfl⟩
      · dsimp only; split <;> exact ⟨⟨rfl, rfl, rfl, rfl⟩, rfl⟩
    · unfold fetchCounter; split
      · exact ⟨⟨rfl, rfl, rfl, rfl⟩, rfl⟩
      · split
        · exact ⟨⟨rfl, rfl, rfl, rfl⟩, rfl⟩
        · dsimp only; split <;> exact ⟨⟨rfl, rfl, rfl, rfl⟩, rfl⟩
    · exact ⟨⟨rfl, rfl, rfl, rfl⟩, rfl⟩
  unfold fetch
  simp only
  split
  · split
    · exact ⟨⟨rfl, rfl, rfl, rfl⟩, rfl⟩
    · split
      · exact ⟨⟨rfl, rfl, rfl, rfl⟩, rfl⟩
      · exact hin (endStrobe s)
  · exact hin (endStrobe s)

/-- What a step can do (spec/00_scope.md R5). -/
theorem step_cases {s t : State} (h : step s = .next t) :
    ((fetch s).2 = .idle ∧ t = (fetch s).1) ∨ (∃ i, (fetch s).2 = .run i ∧ exec i (fetch s).1 = .next t) ∨
      ((fetch s).2 = .illegal ∧ t = (fetch s).1.answer 2 .none) := by
  unfold step at h
  split at h
  · rename_i u hu
    exact .inl ⟨by rw [hu], by simpa [hu, eq_comm] using h⟩
  · rename_i u i hu
    exact .inr (.inl ⟨i, by rw [hu], by simpa [hu] using h⟩)
  · rename_i u hu
    exact .inr (.inr ⟨by rw [hu], by simpa [hu, refuse, Reason.code, eq_comm] using h⟩)

end Sys2Proof.Machine
end

