-- ==== Sys2Proof/Laws/Packetizer.lean ====
section
/-! SUPPORT. The frame layout record, read once: the lengths, the variants and, for each variant, the bits of its frame as the
`put_field`s of spec/44_packetizer.md R123 one after another. -/

namespace Sys2Proof.Machine

/-- The lengths of the variants are the set `VALID_LEN` (R68). -/
theorem mem_validLengths (n : Nat) : n ∈ validLengths ↔ n ∈ [8, 10, 24, 25, 48, 52, 68] := by
  simp only [validLengths, variants, frameLen, FrameLayout.row, frameLayout, List.map_cons, List.map_nil, List.mem_cons,
    List.not_mem_nil, or_false]
  omega

/-- The fields of every frame lie one after another from position 0, and the parity bit is the next one: no gap, no overlap (R55
to R67). -/
theorem frameFields_packed (v : Variant) :
    ((frameFields v).foldl (fun n f => if f.pos = n then n + f.width else 0) 0) + 1 = frameLen v := by
  cases v <;> decide

/-- The parity of the layout is even, so the parity bit is `parity_of` (R56, R90). -/
@[simp] theorem parityBit_eq (b : PortBuffer) (n : Nat) : parityBit b n = parityOf b n := by
  simp [parityBit, frameLayout]

theorem frameBits_length (v : Variant) (bc : Bool) (values : List (FieldName × U16)) :
    (frameBits v bc values).length = frameLen v - 1 := by simp [frameBits]

/-- The header bits of a frame: start, id, range, broadcast (R55). -/
def headerPuts (v : Variant) (bc : Bool) : List Bool :=
  fieldBits 1 1 ++ fieldBits (typeId v) 4 ++ fieldBits (flagValue (rangeFlag v)) 1 ++ fieldBits (flagValue bc) 1

theorem frameBits_header (bc : Bool) : frameBits .header bc [] = headerPuts .header bc := rfl

theorem frameBits_ack (bc : Bool) : frameBits .ack bc [] = headerPuts .ack bc := rfl

theorem frameBits_ackAddr (bc : Bool) (a b : U16) :
    frameBits .ackAddr bc [(.row, a), (.col, b)] = headerPuts .ackAddr bc ++ fieldBits a 8 ++ fieldBits b 8 := rfl

theorem frameBits_enumerate (bc : Bool) (a b c : U16) :
    frameBits .enumerate bc [(.row, a), (.col, b), (.bcr, c)] =
      headerPuts .enumerate bc ++ fieldBits a 8 ++ fieldBits b 8 ++ fieldBits c 1 := rfl

theorem frameBits_syncTime (bc : Bool) (a b c : U16) :
    frameBits .syncTime bc [(.time, a), (.latency, b), (.stuffing, c)] =
      headerPuts .syncTime bc ++ fieldBits a 16 ++ fieldBits b 16 ++ fieldBits c 8 := rfl

theorem frameBits_announceGeometry (bc : Bool) (a b : U16) :
    frameBits .announceGeometry bc [(.rows, a), (.cols, b)] =
      headerPuts .announceGeometry bc ++ fieldBits a 8 ++ fieldBits b 8 := rfl

theorem frameBits_setGeometry (bc : Bool) (a b : U16) :
    frameBits .setGeometry bc [(.rows, a), (.cols, b)] =
      headerPuts .setGeometry bc ++ fieldBits a 8 ++ fieldBits b 8 := rfl

theorem frameBits_heatWires (bc : Bool) (a b c d e f : U16) :
    frameBits .heatWires bc [(.row, a), (.col, b), (.startTs, c), (.durLo, d), (.durHi, e), (.wires, f)] =
      headerPuts .heatWires bc ++ fieldBits a 8 ++ fieldBits b 8 ++ fieldBits c 16 ++ fieldBits d 8 ++ fieldBits e 2 ++
        fieldBits f 2 := rfl

theorem frameBits_heatWiresRange (bc : Bool) (a b c d e f g h : U16) :
    frameBits .heatWiresRange bc
        [(.tlRow, a), (.tlCol, b), (.brRow, c), (.brCol, d), (.startTs, e), (.durLo, f), (.durHi, g), (.wires, h)] =
      headerPuts .heatWiresRange bc ++ fieldBits a 8 ++ fieldBits b 8 ++ fieldBits c 8 ++ fieldBits d 8 ++
        fieldBits e 16 ++ fieldBits f 8 ++ fieldBits g 2 ++ fieldBits h 2 := rfl

theorem frameBits_heatWiresMode (bc : Bool) (a : U16) :
    frameBits .heatWiresMode bc [(.mode, a)] = headerPuts .heatWiresMode bc ++ fieldBits a 2 := rfl

/-- The two fields of a duration are its low byte and the two bits above it (R131, R138). -/
theorem fieldBits_duration (v : Variant) (hv : v = .heatWires ∨ v = .heatWiresRange) (d : U16) :
    fieldBits d 8 = fieldBits (d &&& 0xFF) 8 ∧ fieldBits (durHi v d) 2 = fieldBits ((d &&& 0x300) >>> 8) 2 := by
  have hw : fieldWidth v .durLo = 8 := by rcases hv with rfl | rfl <;> rfl
  unfold durHi
  rw [hw]
  constructor <;> simp only [fieldBits, List.map_inj_left, List.mem_range] <;> intro k hk <;>
    interval_cases k <;> simp

/-- `put_field` after `put_field` (R84, R86): how many of the bits are stored. -/
theorem putBitsStored_iff (b : PortBuffer) (bits : List Bool) :
    putBitsStored b bits = true ↔ bits = [] ∨ b.pos.val + bits.length ≤ Config.bufBits := by
  induction bits generalizing b with
  | nil => simp [putBitsStored]
  | cons v bits ih =>
    have hle := pos_le b
    rw [putBitsStored, Bool.and_eq_true, ih, bufPut_pos]
    simp only [bufPutStored, bne_iff_ne, List.length_cons, reduceCtorEq, false_or]
    cases bits with
    | nil => simp only [true_or, and_true, List.length_nil]; omega
    | cons _ _ => simp only [reduceCtorEq, false_or, List.length_cons]; omega

end Sys2Proof.Machine
end

