-- ==== Sys2Proof/Laws/PerInstr.lean ====
section
/-! SUPPORT. Per-operation laws about the syntax. -/

namespace Sys2Proof.Laws

/-- The columns "match" and "mask" of an operation's row in spec/opcode_table.json. -/
def opcodeRow : Instr → U8 × U8
  | .sysReset => (0x00, 0xFF)
  | .cfgDelay _ => (0x04, 0xFF)
  | .cfgShift _ => (0x08, 0xFF)
  | .sysStatus => (0x0C, 0xFF)
  | .sysIrqen _ => (0x10, 0xFF)
  | .rxEdge _ _ _ => (0x20, 0xFC)
  | .rxStep _ _ => (0x24, 0xFC)
  | .rxPoll _ _ => (0x28, 0xFC)
  | .rxClear _ => (0x2C, 0xFC)
  | .rxRead _ => (0x30, 0xFC)
  | .pktInterpret _ => (0x34, 0xFC)
  | .txEnable _ _ => (0x40, 0xFC)
  | .txTick => (0x44, 0xFF)
  | .txStatus _ => (0x48, 0xFC)
  | .txClear _ => (0x4C, 0xFC)
  | .txPut _ _ _ => (0x50, 0xFC)
  | .txSeal _ => (0x54, 0xFC)
  | .pktHeader _ _ => (0x80, 0xFC)
  | .pktAck _ _ => (0x84, 0xFC)
  | .pktAckaddr _ _ _ _ => (0x88, 0xFC)
  | .pktEnum _ _ _ _ _ => (0x8C, 0xFC)
  | .pktSynctime _ _ _ _ => (0x90, 0xFC)
  | .pktAnngeom _ _ _ _ => (0x94, 0xFC)
  | .pktSetgeom _ _ _ _ => (0x98, 0xFC)
  | .pktHeat _ _ _ _ _ _ _ => (0x9C, 0xFC)
  | .pktHeatrng _ _ _ _ _ _ _ _ _ => (0xA0, 0xFC)
  | .pktHeatmode _ _ _ => (0xA4, 0xFC)

/-- The word the encoder writes has the fixed bits of the operation's row in spec/opcode_table.json. -/
def MatchesOpcodeTable.Statement (i : Instr) : Prop :=
  (encode i).cmd &&& (opcodeRow i).2 = (opcodeRow i).1

namespace MatchesOpcodeTable

theorem sysReset : Statement (.sysReset) := by
  simp only [Statement, encode, opcodeRow]; decide

theorem cfgDelay (d : Ts) : Statement (.cfgDelay d) := by
  simp only [Statement, encode, opcodeRow]; decide

theorem cfgShift (sh : Ts) : Statement (.cfgShift sh) := by
  simp only [Statement, encode, opcodeRow]; decide

theorem sysStatus : Statement (.sysStatus) := by
  simp only [Statement, encode, opcodeRow]; decide

theorem sysIrqen (en : Bool) : Statement (.sysIrqen en) := by
  simp only [Statement, encode, opcodeRow]; decide

theorem rxEdge (p : PortArg) (ts : Ts) (rising : Bool) : Statement (.rxEdge p ts rising) := by
  cases p <;> simp only [Statement, encode, opcodeRow] <;> decide

theorem rxStep (p : PortArg) (now : Ts) : Statement (.rxStep p now) := by
  cases p <;> simp only [Statement, encode, opcodeRow] <;> decide

theorem rxPoll (p : PortArg) (now : Ts) : Statement (.rxPoll p now) := by
  cases p <;> simp only [Statement, encode, opcodeRow] <;> decide

theorem rxClear (p : PortArg) : Statement (.rxClear p) := by
  cases p <;> simp only [Statement, encode, opcodeRow] <;> decide

theorem rxRead (p : PortArg) : Statement (.rxRead p) := by
  cases p <;> simp only [Statement, encode, opcodeRow] <;> decide

theorem pktInterpret (p : PortArg) : Statement (.pktInterpret p) := by
  cases p <;> simp only [Statement, encode, opcodeRow] <;> decide

theorem txEnable (p : PortArg) (now : Ts) : Statement (.txEnable p now) := by
  cases p <;> simp only [Statement, encode, opcodeRow] <;> decide

theorem txTick : Statement (.txTick) := by
  simp only [Statement, encode, opcodeRow]; decide

theorem txStatus (p : PortArg) : Statement (.txStatus p) := by
  cases p <;> simp only [Statement, encode, opcodeRow] <;> decide

theorem txClear (p : PortArg) : Statement (.txClear p) := by
  cases p <;> simp only [Statement, encode, opcodeRow] <;> decide

theorem txPut (p : PortArg) (v : U16) (w : U16) : Statement (.txPut p v w) := by
  cases p <;> simp only [Statement, encode, opcodeRow] <;> decide

theorem txSeal (p : PortArg) : Statement (.txSeal p) := by
  cases p <;> simp only [Statement, encode, opcodeRow] <;> decide

theorem pktHeader (p : PortArg) (bc : Bool) : Statement (.pktHeader p bc) := by
  cases p <;> simp only [Statement, encode, opcodeRow] <;> decide

theorem pktAck (p : PortArg) (bc : Bool) : Statement (.pktAck p bc) := by
  cases p <;> simp only [Statement, encode, opcodeRow] <;> decide

theorem pktAckaddr (p : PortArg) (row : U8) (col : U8) (bc : Bool) :
    Statement (.pktAckaddr p row col bc) := by
  cases p <;> simp only [Statement, encode, opcodeRow] <;> decide

theorem pktEnum (p : PortArg) (row : U8) (col : U8) (bcr : Bool) (bc : Bool) :
    Statement (.pktEnum p row col bcr bc) := by
  cases p <;> simp only [Statement, encode, opcodeRow] <;> decide

theorem pktSynctime (p : PortArg) (time : U16) (latency : U16) (bc : Bool) :
    Statement (.pktSynctime p time latency bc) := by
  cases p <;> simp only [Statement, encode, opcodeRow] <;> decide

theorem pktAnngeom (p : PortArg) (rows : U8) (cols : U8) (bc : Bool) :
    Statement (.pktAnngeom p rows cols bc) := by
  cases p <;> simp only [Statement, encode, opcodeRow] <;> decide

theorem pktSetgeom (p : PortArg) (rows : U8) (cols : U8) (bc : Bool) :
    Statement (.pktSetgeom p rows cols bc) := by
  cases p <;> simp only [Statement, encode, opcodeRow] <;> decide

theorem pktHeat (p : PortArg) (row : U8) (col : U8) (startTs : U16) (duration : U16) (wires : BitVec 2) (bc : Bool) :
    Statement (.pktHeat p row col startTs duration wires bc) := by
  cases p <;> simp only [Statement, encode, opcodeRow] <;> decide

theorem pktHeatrng (p : PortArg) (tlRow : U8) (tlCol : U8) (brRow : U8) (brCol : U8) (startTs : U16) (duration : U16) (wires : BitVec 2) (bc : Bool) :
    Statement (.pktHeatrng p tlRow tlCol brRow brCol startTs duration wires bc) := by
  cases p <;> simp only [Statement, encode, opcodeRow] <;> decide

theorem pktHeatmode (p : PortArg) (mode : BitVec 2) (bc : Bool) :
    Statement (.pktHeatmode p mode bc) := by
  cases p <;> simp only [Statement, encode, opcodeRow] <;> decide

end MatchesOpcodeTable

end Sys2Proof.Laws
end

