-- ==== Sys2Proof/Machine/Assembler.lean ====
section
/-! DEFINITION. How an operation is written (spec/30_encoding.md R75): mnemonic, port by name, operands by name in slot
order. -/

namespace Sys2Proof.Machine

/-- A port by name. -/
def portText : PortArg → String
  | .n => "N"
  | .e => "E"
  | .s => "S"
  | .sim => "SIM"

/-- An operand by name, as an unsigned number. -/
def operandText {w : Nat} (name : String) (v : BitVec w) : String := name ++ "=" ++ toString v.toNat

/-- A `u1` operand by name. -/
def flagText (name : String) (b : Bool) : String := name ++ (if b then "=1" else "=0")

/-- A mnemonic, then its operands, separated by commas. -/
def textLine (mnemonic : String) (operands : List String) : String :=
  if operands.isEmpty then mnemonic else mnemonic ++ " " ++ String.intercalate ", " operands

/-- The text of an operation (R75). -/
def textOf : Instr → String
  | .sysReset => textLine "SYS.RESET" []
  | .cfgDelay d => textLine "CFG.DELAY" [operandText "d" d]
  | .cfgShift sh => textLine "CFG.SHIFT" ["s=" ++ toString sh.toInt]
  | .sysStatus => textLine "SYS.STATUS" []
  | .sysIrqen en => textLine "SYS.IRQEN" [flagText "e" en]
  | .rxEdge p ts rising => textLine "RX.EDGE" [portText p, operandText "ts" ts, flagText "rising" rising]
  | .rxStep p now => textLine "RX.STEP" [portText p, operandText "now" now]
  | .rxPoll p now => textLine "RX.POLL" [portText p, operandText "now" now]
  | .rxClear p => textLine "RX.CLEAR" [portText p]
  | .rxRead p => textLine "RX.READ" [portText p]
  | .pktInterpret p => textLine "PKT.INTERPRET" [portText p]
  | .txEnable p now => textLine "TX.ENABLE" [portText p, operandText "now" now]
  | .txTick => textLine "TX.TICK" []
  | .txStatus p => textLine "TX.STATUS" [portText p]
  | .txClear p => textLine "TX.CLEAR" [portText p]
  | .txPut p v w => textLine "TX.PUT" [portText p, operandText "v" v, operandText "w" w]
  | .txSeal p => textLine "TX.SEAL" [portText p]
  | .pktHeader p bc => textLine "PKT.HEADER" [portText p, flagText "bc" bc]
  | .pktAck p bc => textLine "PKT.ACK" [portText p, flagText "bc" bc]
  | .pktAckaddr p row col bc =>
      textLine "PKT.ACKADDR" [portText p, operandText "row" row, operandText "col" col, flagText "bc" bc]
  | .pktEnum p row col bcr bc =>
      textLine "PKT.ENUM"
        [portText p, operandText "row" row, operandText "col" col, flagText "bcr" bcr, flagText "bc" bc]
  | .pktSynctime p time latency bc =>
      textLine "PKT.SYNCTIME" [portText p, operandText "time" time, operandText "latency" latency, flagText "bc" bc]
  | .pktAnngeom p rows cols bc =>
      textLine "PKT.ANNGEOM" [portText p, operandText "rows" rows, operandText "cols" cols, flagText "bc" bc]
  | .pktSetgeom p rows cols bc =>
      textLine "PKT.SETGEOM" [portText p, operandText "rows" rows, operandText "cols" cols, flagText "bc" bc]
  | .pktHeat p row col startTs duration wires bc =>
      textLine "PKT.HEAT"
        [portText p, operandText "row" row, operandText "col" col, operandText "start_ts" startTs,
          operandText "duration" duration, operandText "wires" wires, flagText "bc" bc]
  | .pktHeatrng p tlRow tlCol brRow brCol startTs duration wires bc =>
      textLine "PKT.HEATRNG"
        [portText p, operandText "tl_row" tlRow, operandText "tl_col" tlCol, operandText "br_row" brRow,
          operandText "br_col" brCol, operandText "start_ts" startTs, operandText "duration" duration,
          operandText "wires" wires, flagText "bc" bc]
  | .pktHeatmode p mode bc => textLine "PKT.HEATMODE" [portText p, operandText "mode" mode, flagText "bc" bc]

end Sys2Proof.Machine
end

