-- ==== Sys2Proof/Machine/Pseudo.lean ====
section
/-! DEFINITION. The pseudo-operations of spec/30_encoding.md R77 that have no command word: TX.BROADCAST and SEND.<X>. -/

namespace Sys2Proof.Machine

/-- TX.BROADCAST `now`: TX.ENABLE SIM, `now` (R77). -/
def txBroadcast (now : Ts) (s : State) : Host.Outcome State Fault Refusal := execTxEnable .sim now s

/-- SEND.<X> `p, operands, now`, where `o` is the outcome of PKT.<X> `p, operands`: then TX.ENABLE `p, now`, if the
constructor was not refused (R77). -/
def sendAfter (p : PortArg) (now : Ts) (o : Host.Outcome State Fault Refusal) : Host.Outcome State Fault Refusal :=
  match o with
  | .next t => if t.out.status = 0 then execTxEnable p now t else .next t
  | .fault f => .fault f
  | .refused r => .refused r

end Sys2Proof.Machine
end

