-- ==== Sys2Proof/Tests/Slice0.lean ====
section
/-! SUPPORT. Tests: ill-formed operations, words written out bit by bit, one step of each operation against the examples of the
spec's rules, and a witness for the hypotheses of every statement. -/

namespace Sys2Proof.Tests

set_option Elab.async false

open Sys2Proof.Machine

/-! ### Small states -/

/-- The block after reset. -/
def base : State := State.reset

/-- Halted by a ring overflow on east. -/
def halted : State := { base with sys := { base.sys with fatal := true, faultCause := 1, faultPort := 1 } }

/-- Interrupts on. -/
def unmasked : State := { base with sys := { base.sys with irqEn := true } }

/-- One input waiting. -/
def waiting (x : Input) (s : State) : State := { s with env := { s.env with inputs := [x] } }

/-- A PortBuffer whose first two bytes and cursor are given. -/
def bufOf (b0 b1 : U8) (pos : Fin (Config.bufBits + 1)) : PortBuffer :=
  { bytes := (PortBuffer.reset.bytes.set 0 b0).set 1 b1, pos := pos, overflowed := false }

/-- The transmit port of `q` holds two bytes and a cursor. -/
def staged (q : Port) (b0 b1 : U8) (pos dataEnd : Fin (Config.bufBits + 1)) : State :=
  base.setTx q { TxPort.reset with buf := bufOf b0 b1 pos, dataEnd := dataEnd }

/-- The port of `q` is transmitting these bits from its cursor. -/
def sending (q : Port) (b0 : U8) (pos dataEnd : Fin (Config.bufBits + 1)) : State :=
  base.setTx q { TxPort.reset with buf := bufOf b0 0 pos, dataEnd := dataEnd, isTransmitting := true }

/-- A package of two bytes and `n` bits is held on north. -/
def held (b0 b1 : U8) (n : Fin (Config.bufBits + 1)) : State :=
  base.setRx .n { RxPort.reset with buf := bufOf b0 b1 n, isDataBuffered := true }

/-- A ring holding one snapshot, at index 5. -/
def ringOne (sn : Snapshot) : Ring := { RxPort.reset.ring with slot := RxPort.reset.ring.slot.set 5 sn, start := 5, stop := 6 }

/-- A ring of `k` snapshots, from index 0. -/
def ringOf (k : Fin Config.cap) : Ring := { RxPort.reset.ring with stop := k }

/-- The decoder of north in `st` with this reference, ring and buffer. -/
def decoding (st : DecState) (phase : U8) (ref : U16) (ring : Ring) (buf : PortBuffer) : State :=
  base.setRx .n
    { RxPort.reset with ring := ring, dec := { state := st, phase := phase, refTs := ref, halfCycles := phase }, buf := buf }

/-- The next state, if there is one. -/
def nextOf : Host.Outcome State Fault Refusal → Option State
  | .next t => some t
  | .fault _ => none
  | .refused _ => none

/-- What is read of the next state of an operation. -/
def after {α : Type} (i : Instr) (s : State) (f : State → α) : Option α := (nextOf (exec i s)).map f

/-- Bytes and end of data that an operation leaves in the transmit buffer of `q`. -/
def frameAt (i : Instr) (q : Port) : Option (List U8 × Nat) :=
  after i base fun t => ((t.txPort q).buf.bytes.toList, (t.txPort q).dataEnd.val)

/-! ### Ill-formed operations are refused by wellFormed (R73) -/

theorem test_wellFormed_edge_sim : (Instr.rxEdge .sim 0 true).wellFormed = false := rfl
theorem test_wellFormed_step_sim : (Instr.rxStep .sim 0).wellFormed = false := rfl
theorem test_wellFormed_poll_sim : (Instr.rxPoll .sim 0).wellFormed = false := rfl
theorem test_wellFormed_clear_sim : (Instr.rxClear .sim).wellFormed = false := rfl
theorem test_wellFormed_read_sim : (Instr.rxRead .sim).wellFormed = false := rfl
theorem test_wellFormed_interpret_sim : (Instr.pktInterpret .sim).wellFormed = false := rfl
theorem test_wellFormed_status_sim : (Instr.txStatus .sim).wellFormed = false := rfl
theorem test_wellFormed_put_0 : (Instr.txPut .n 1 0).wellFormed = false := by decide
theorem test_wellFormed_put_17 : (Instr.txPut .n 1 17).wellFormed = false := by decide

/-! ### Words written out from R71 to R73: `cmd[7:2]` the operation number, `cmd[1:0]` the port -/

theorem test_decode_sysReset : decode { cmd := 0b00000000#8 } = .ok .sysReset := rfl
theorem test_decode_cfgDelay : decode { cmd := 0b00000100#8, arg0 := 800 } = .ok (.cfgDelay 800) := rfl
theorem test_decode_cfgShift : decode { cmd := 0b00001000#8, arg0 := 0xFFEC } = .ok (.cfgShift 0xFFEC) := rfl
theorem test_decode_sysStatus : decode { cmd := 0b00001100#8 } = .ok .sysStatus := rfl
theorem test_decode_sysIrqen : decode { cmd := 0b00010000#8, arg0 := 0xFFFE } = .ok (.sysIrqen false) := rfl
theorem test_decode_rxEdge : decode { cmd := 0b00100010#8, arg0 := 1500, arg1 := 1 } = .ok (.rxEdge .s 1500 true) := rfl
theorem test_decode_rxStep : decode { cmd := 0b00100101#8, arg0 := 9300 } = .ok (.rxStep .e 9300) := rfl
theorem test_decode_rxPoll : decode { cmd := 0b00101000#8, arg0 := 9300 } = .ok (.rxPoll .n 9300) := rfl
theorem test_decode_rxClear : decode { cmd := 0b00101101#8 } = .ok (.rxClear .e) := rfl
theorem test_decode_rxRead : decode { cmd := 0b00110010#8 } = .ok (.rxRead .s) := rfl
theorem test_decode_pktInterpret : decode { cmd := 0b00110110#8 } = .ok (.pktInterpret .s) := rfl
theorem test_decode_txEnable : decode { cmd := 0b01000010#8, arg0 := 200 } = .ok (.txEnable .s 200) := rfl
theorem test_decode_txTick : decode { cmd := 0b01000100#8 } = .ok .txTick := rfl
theorem test_decode_txStatus : decode { cmd := 0b01001001#8 } = .ok (.txStatus .e) := rfl
theorem test_decode_txClear : decode { cmd := 0b01001111#8 } = .ok (.txClear .sim) := rfl
theorem test_decode_txPut : decode { cmd := 0b01010000#8, arg0 := 8, arg1 := 4 } = .ok (.txPut .n 8 4) := rfl
theorem test_decode_txSeal : decode { cmd := 0b01010110#8 } = .ok (.txSeal .s) := rfl
theorem test_decode_pktHeader : decode { cmd := 0b10000000#8, arg0 := 1 } = .ok (.pktHeader .n true) := rfl
theorem test_decode_pktAck : decode { cmd := 0b10000110#8 } = .ok (.pktAck .s false) := rfl
theorem test_decode_pktAckaddr :
    decode { cmd := 0b10001001#8, arg0 := 0x3302, arg1 := 1, arg2 := 1 } = .ok (.pktAckaddr .e 2 1 true) := rfl
theorem test_decode_pktEnum :
    decode { cmd := 0b10001110#8, arg0 := 2, arg1 := 1, arg2 := 1 } = .ok (.pktEnum .s 2 1 true false) := rfl
theorem test_decode_pktSynctime :
    decode { cmd := 0b10010011#8, arg0 := 0x1234, arg1 := 0x56, arg2 := 1 } =
      .ok (.pktSynctime .sim 0x1234 0x56 true) := rfl
theorem test_decode_pktAnngeom :
    decode { cmd := 0b10010100#8, arg0 := 2, arg1 := 1 } = .ok (.pktAnngeom .n 2 1 false) := rfl
theorem test_decode_pktSetgeom :
    decode { cmd := 0b10011001#8, arg0 := 3, arg1 := 4, arg2 := 1 } = .ok (.pktSetgeom .e 3 4 true) := rfl
theorem test_decode_pktHeat :
    decode { cmd := 0b10011101#8, arg0 := 2, arg1 := 1, arg2 := 0x100, arg3 := 0x2A5, arg4 := 6, arg5 := 1 } =
      .ok (.pktHeat .e 2 1 0x100 0x2A5 2 true) := rfl
theorem test_decode_pktHeatrng :
    decode ⟨0b10100011#8, 1, 2, 3, 4, 5, 1023, 3, 1⟩ = .ok (.pktHeatrng .sim 1 2 3 4 5 1023 3 true) := rfl
theorem test_decode_pktHeatmode :
    decode { cmd := 0b10100100#8, arg0 := 2, arg1 := 1 } = .ok (.pktHeatmode .n 2 true) := rfl

/-- The host's numbering: the command byte lies in bits 7 to 0, an operand beyond the given bits is 0. -/
theorem test_decodeTableWord : decodeTableWord 8 0b01010000 = some (.txPut .n 0 0) := by decide

theorem test_withFetchWord :
    (nextOf (step (base.withFetchWord 8 0b00101100))).map (fun t => t.out.status) = some 9 := by decide +kernel

/-! ### One step of each operation, from the examples of its rule -/

-- R141: after a fatal ring overflow on east.
theorem test_sysReset : after .sysReset halted (fun t => t.sys) = some State.reset.sys := by decide +kernel

-- R142.
theorem test_cfgDelay :
    after (.cfgDelay 800) base (fun t => (t.cfg.clockDelay, t.cfg.halfDelay, t.cfg.shortThr, t.cfg.longThr)) =
      some (800, 400, 472, 896) := by decide +kernel
theorem test_cfgDelay_refused : after (.cfgDelay 40000) base (fun t => (t.cfg, t.out.status)) = some (base.cfg, 7) := by
  decide +kernel

-- R143: the pattern of -20.
theorem test_cfgShift : after (.cfgShift (-20)) base (fun t => t.cfg.txClockShift) = some 0xFFEC := by decide +kernel

-- R145: after reset, and after a bit-buffer overflow on south with interrupts on.
theorem test_sysStatus :
    after .sysStatus base (fun t => t.out.rdata) = some (.sysStatus 0xC0 1000 500 590 1120 0 0) := by decide +kernel
theorem test_sysStatus_fault :
    sysFlags { base with sys := { fatal := true, faultCause := 2, faultPort := 2, irqEn := true, txCompare := 0 } } =
      0xF5 := by decide

-- R144.
theorem test_sysIrqen : after (.sysIrqen true) base (fun t => t.sys.irqEn) = some true := by decide +kernel

-- R97: the example, and the edge that finds 28 queued.
theorem test_rxEdge :
    after (.rxEdge .n 1000 false) (base.setRx .n { RxPort.reset with ring := { RxPort.reset.ring with start := 5, stop := 5 } })
      (fun t => (ringQueue (t.rxPort .n).ring, (t.rxPort .n).ring.stop.val)) = some ([⟨1000, false⟩], 6) := by
  decide +kernel
theorem test_rxEdge_full :
    after (.rxEdge .n 7 true) (base.setRx .n { RxPort.reset with ring := ringOf 28 })
      (fun t => (t.sys.fatal, t.sys.faultCause, ringCount (t.rxPort .n).ring)) = some (true, 1, 28) := by decide +kernel

-- R104: the second snapshot of the example; R105: its example.
theorem test_rxStep_long :
    after (.rxStep .n 0) (decoding .decoding 1 9500 (ringOne ⟨10500, false⟩) (bufOf 1 0 1))
      (fun t => (t.rxPort .n).dec) = some ⟨.decoding, 3, 10500, 3⟩ := by decide +kernel
theorem test_rxStep_timeout :
    after (.rxStep .n 1464) (decoding .decoding 1 65000 (ringOf 0) (bufOf 1 0 1)) (fun t => (t.rxPort .n).dec.state) =
      some .postTimeoutProcess := by decide +kernel

-- R107: a timeout and the completion in one poll.
theorem test_rxPoll :
    after (.rxPoll .n 1464) (decoding .decoding 1 65000 (ringOf 0) (bufOf 1 0 1))
      (fun t => (t.out.rdata, t.out.rxDone, (t.rxPort .n).isDataBuffered)) = some (.stepped .done, some .n, true) := by
  decide +kernel

-- R108.
theorem test_rxClear :
    after (.rxClear .n) (held 0x05 0x81 24) (fun t => (t.rxPort .n).buf) = some PortBuffer.reset := by decide +kernel
theorem test_rxClear_refused : after (.rxClear .n) base (fun t => t.out.status) = some 9 := by decide +kernel

-- R79, R109: nothing received yet; the state code of DECODING is 1.
theorem test_rxRead :
    after (.rxRead .n) (decoding .decoding 3 0 (ringOf 2) (bufOf 1 0 2)) (fun t => t.out.rdata) =
      some (.rxRead (bufOf 1 0 2).bytes 2 0x08 3 2) := by decide +kernel

-- R134.
theorem test_pktInterpret :
    after (.pktInterpret .n) (held 0x05 0x81 24) (fun t => t.out.rdata) =
      some (.interpreted (.accept false (.ackAddr 2 1))) := by decide +kernel
theorem test_pktInterpret_length :
    after (.pktInterpret .n) (held 0x01 0x81 8) (fun t => t.out.rdata) =
      some (.interpreted (.reject .lengthMismatch)) := by decide +kernel

-- R115, and the negative shift of R143.
theorem test_txEnable :
    after (.txEnable .s 200) (staged .s 0x03 0 8 8)
      (fun t => ((t.txPort .s).isTransmitting, (t.txPort .s).buf.pos.val, t.sys.txCompare)) = some (true, 0, 1200) := by
  decide +kernel
theorem test_txEnable_shift :
    after (.txEnable .n 200) { staged .n 0x03 0 8 8 with cfg := { base.cfg with txClockShift := 0xFFEC } }
      (fun t => t.sys.txCompare) = some 1180 := by decide +kernel

-- R117: tick 0 of an ACK; R116: the release.
theorem test_txTick :
    after .txTick (sending .s 0x03 0 8) (fun t => ((t.txPort .s).line, (t.txPort .s).secondHalf, t.sys.txCompare)) =
      some (false, true, 500) := by decide +kernel
theorem test_txTick_release :
    after .txTick (sending .s 0x03 8 8) (fun t => ((t.txPort .s).line, (t.txPort .s).isTransmitting)) =
      some (true, false) := by decide +kernel

-- R79, R118: idle line, nothing else.
theorem test_txStatus :
    after (.txStatus .s) (staged .s 0x03 0 8 8) (fun t => t.out.rdata) =
      some (.txStatus (bufOf 0x03 0 8).bytes 8 8 0x08) := by decide +kernel

-- R88.
theorem test_txClear :
    after (.txClear .n) (staged .n 0x03 0 8 8) (fun t => t.txPort .n) = some TxPort.reset := by decide +kernel

-- R89: the second call of the example; bits that do not fit.
theorem test_txPut :
    after (.txPut .n 8 4) (staged .n 0x01 0 1 0) (fun t => (t.txPort .n).buf) = some (bufOf 0x11 0 5) := by decide +kernel
theorem test_txPut_full :
    after (.txPut .n 3 2) (staged .n 0 0 71 0) (fun t => ((t.txPort .n).buf.pos.val, (t.txPort .n).buf.overflowed)) =
      some (72, true) := by decide +kernel

-- R90: the example; no room for the parity bit.
theorem test_txSeal :
    after (.txSeal .n) (staged .n 0x03 0 7 0) (fun t => ((t.txPort .n).buf, (t.txPort .n).dataEnd.val)) =
      some (bufOf 0x03 0 8, 8) := by decide +kernel
theorem test_txSeal_full :
    after (.txSeal .n) (staged .n 0x03 0 72 0) (fun t => ((t.txPort .n).buf.overflowed, (t.txPort .n).dataEnd.val)) =
      some (true, 72) := by decide +kernel

-- The bytes of the examples of R124 to R133.
theorem test_pktHeader : frameAt (.pktHeader .n false) .n = some ([0x11, 0, 0, 0, 0, 0, 0, 0, 0], 8) := by decide +kernel
theorem test_pktAck : frameAt (.pktAck .s true) .s = some ([0xC3, 0, 0, 0, 0, 0, 0, 0, 0], 8) := by decide +kernel
theorem test_pktAckaddr : frameAt (.pktAckaddr .n 2 1 false) .n = some ([0x05, 0x81, 0, 0, 0, 0, 0, 0, 0], 24) := by
  decide +kernel
theorem test_pktEnum : frameAt (.pktEnum .s 2 1 true false) .s = some ([0x01, 0x81, 0x80, 0, 0, 0, 0, 0, 0], 25) := by
  decide +kernel
theorem test_pktEnum_parity :
    frameAt (.pktEnum .s 2 1 false false) .s = some ([0x01, 0x81, 0, 0x01, 0, 0, 0, 0, 0], 25) := by decide +kernel
theorem test_pktSynctime :
    frameAt (.pktSynctime .sim 0x1234 0x0056 false) .e = some ([0x07, 0x1A, 0x09, 0x2B, 0, 0, 0, 0, 0], 48) := by
  decide +kernel
theorem test_pktAnngeom : frameAt (.pktAnngeom .n 2 1 false) .n = some ([0x09, 0x81, 0, 0, 0, 0, 0, 0, 0], 24) := by
  decide +kernel
theorem test_pktSetgeom : frameAt (.pktSetgeom .e 3 4 true) .e = some ([0xCB, 0x01, 0x82, 0, 0, 0, 0, 0, 0], 24) := by
  decide +kernel
theorem test_pktHeat :
    frameAt (.pktHeat .e 2 1 0x0100 0x2A5 2 false) .e =
      some ([0x0D, 0x81, 0x00, 0x80, 0x80, 0x52, 0x05, 0, 0], 52) := by decide +kernel
theorem test_pktHeatrng :
    frameAt (.pktHeatrng .sim 1 1 2 2 0x0100 1023 3 true) .s =
      some ([0xED, 0x80, 0x00, 0x01, 0x01, 0x80, 0x80, 0xFF, 0x07], 68) := by decide +kernel
theorem test_pktHeatrng_order :
    after (.pktHeatrng .e 2 1 1 2 0 0 0 false) base (fun t => t.out.status) = some 8 := by decide +kernel
theorem test_pktHeatmode : frameAt (.pktHeatmode .n 2 false) .n = some ([0x0F, 0x03, 0, 0, 0, 0, 0, 0, 0], 10) := by
  decide +kernel

-- R77: a refused constructor starts nothing.
theorem test_send_refused :
    (nextOf (sendAfter .e 0 (exec (.pktHeatrng .e 2 1 1 2 0 0 0 false) base))).map (fun t => t.tx) = some base.tx := by
  decide +kernel

-- R75.
theorem test_textOf : textOf (.pktEnum .s 2 1 false false) = "PKT.ENUM S, row=2, col=1, bcr=0, bc=0" := by decide +kernel

-- R81: storage words of the end position and back.
theorem test_ptrAt : ptrAt 72 = (9, 1) ∧ posOf (ptrAt 71) = 71 := by decide

/-! ### Witnesses: the hypotheses of each statement, met by a concrete state, clause by clause -/

/-- The element that stands for a port is one of the three. -/
theorem forall_ports {P : Port → Prop} (hn : P .n) (he : P .e) (hs : P .s) (q : Port) : P q := by
  cases q <;> assumption

theorem wit_DecodeOfEncode :
    (Instr.txPut .sim 0xFFFF 1).wellFormed = true ∧ (Instr.txPut .sim 0xFFFF 16).wellFormed = true ∧
      (Instr.rxEdge .s 0 true).wellFormed = true := by decide

theorem wit_ReservedWords_op (w : U8) :
    (waiting (.command { cmd := w }) base).env.inputs = .command { cmd := w } :: [] ∧
      NothingPending (waiting (.command { cmd := w }) base) := ⟨rfl, .inl rfl⟩

theorem wit_ReservedWords_values :
    (∀ op ∈ [5, 7, 0x0E, 0x0F, 0x16, 0x1F, 0x2A, 0x3F],
      5 ≤ op ∧ op ≤ 7 ∨ op = 0x0E ∨ op = 0x0F ∨ 0x16 ≤ op ∧ op ≤ 0x1F ∨ 0x2A ≤ op) ∧
    (0x01 / 4 ≤ 4 ∧ 0x01 % 4 ≠ 0) ∧ (0x13 / 4 ≤ 4 ∧ 0x13 % 4 ≠ 0) ∧ (0x45 / 4 = 0x11 ∧ 0x45 % 4 ≠ 0) ∧
    ∀ w ∈ [0x23, 0x37, 0x4B], (8 ≤ w / 4 ∧ w / 4 ≤ 0x0D ∨ w / 4 = 0x12) ∧ w % 4 = 3 := by decide

theorem wit_StepRunsTheDecodedCommand :
    (waiting (.command { cmd := 0x44 }) unmasked).env.inputs = .command { cmd := 0x44 } :: [] ∧
      NothingPending (waiting (.command { cmd := 0x44 }) unmasked) ∧ decode { cmd := 0x44 } = .ok .txTick :=
  ⟨rfl, .inr ⟨rfl, rfl⟩, rfl⟩

/-- Interrupts on, south transmitting, this input waiting. -/
def delivering (x : Input) : State := waiting x { sending .s 0x03 0 8 with sys := unmasked.sys }

theorem wit_UnmaskedInterrupts (x : Input) :
    (delivering x).sys.irqEn = true ∧ NothingPending (delivering x) ∧ (delivering x).env.inputs = x :: [] ∧
      (∃ p, ((delivering x).txPort p).isTransmitting = true) ∧ (delivering x).sys.txCompare = 0 :=
  ⟨rfl, .inr ⟨rfl, rfl⟩, rfl, ⟨.s, rfl⟩, rfl⟩

theorem wit_UnmaskedInterrupts_idle :
    (1 : U16) ≠ (delivering (.counter 1)).sys.txCompare ∧
      ∀ p, ((waiting (.counter 0) unmasked).txPort p).isTransmitting = false :=
  ⟨by decide, forall_ports rfl rfl rfl⟩

theorem wit_MaskedInterrupts :
    (waiting (.pinChange .e 9 true) base).sys.irqEn = false ∧ (waiting (.counter 0) (sending .s 3 0 8)).sys.irqEn = false :=
  ⟨rfl, rfl⟩

theorem wit_PendingInterrupts :
    let s (n e s : Option Snapshot) : State :=
      { delivering .resetPin with
        env := { inputs := [.resetPin], pendingEdge := { elem := #v[n, e, s] }, pendingTick := true } }
    let sn : Snapshot := ⟨9, true⟩
    (s (some sn) none (some sn)).env.pendingEdge.get .n = some sn ∧
      ((s none (some sn) (some sn)).env.pendingEdge.get .n = none ∧
        (s none (some sn) (some sn)).env.pendingEdge.get .e = some sn) ∧
      ((s none none (some sn)).env.pendingEdge.get .e = none ∧
        (s none none (some sn)).env.pendingEdge.get .s = some sn) ∧
      (∀ p ∈ allPorts, (s none none none).env.pendingEdge.get p = none) ∧ (s none none none).sys.irqEn = true ∧
      (s none none none).env.pendingTick = true ∧ txIrqEnable (s none none none) = true := by decide +kernel

theorem wit_ResetInput :
    NothingPending (waiting .resetPin halted) ∧ (waiting .resetPin halted).env.inputs = .resetPin :: [] ∧
      (waiting (.command { cmd := 0 }) halted).env.inputs = .command { cmd := 0 } :: [] := ⟨.inl rfl, rfl, rfl⟩

theorem wit_QuiescentBlock :
    (∀ p, (unmasked.txPort p).isTransmitting = false) ∧
      (∀ p, ringEmpty (unmasked.rxPort p).ring = true ∧ (unmasked.rxPort p).dec.state = .start) ∧
      NothingPending unmasked ∧ unmasked.env.inputs = [] :=
  ⟨forall_ports rfl rfl rfl, forall_ports ⟨rfl, rfl⟩ ⟨rfl, rfl⟩ ⟨rfl, rfl⟩, .inr ⟨rfl, rfl⟩, rfl⟩

/-- The first two clauses of every refusable command: halted, and not halted. -/
theorem wit_halted : halted.sys.fatal = true ∧ base.sys.fatal = false := ⟨rfl, rfl⟩

theorem wit_CfgDelay :
    (∀ d ∈ [1, 32768], ¬ (2 ≤ (BitVec.ofNat 16 d).toNat ∧ (BitVec.ofNat 16 d).toNat ≤ 32767)) ∧
      ∀ d ∈ [2, 32767], 2 ≤ (BitVec.ofNat 16 d).toNat ∧ (BitVec.ofNat 16 d).toNat ≤ 32767 := by decide

theorem wit_BufPut : (bufOf 0 0 72).pos.val = 72 ∧ (bufOf 0 0 71).pos.val < 72 := by decide

theorem wit_Ring :
    ringFull (ringOf 27) = false ∧ ringFull (ringOf 28) = true ∧ ringEmpty (ringOf 1) = false := by decide +kernel

theorem wit_Staging :
    base.sys.fatal = false ∧ (∃ q ∈ targets .sim, ((sending .s 3 0 8).txPort q).isTransmitting = true) ∧
      ∀ q ∈ targets .sim, (base.txPort q).isTransmitting = false := by decide +kernel

theorem wit_TxPut :
    (∀ w ∈ [0, 17], ¬ (1 ≤ (BitVec.ofNat 16 w).toNat ∧ (BitVec.ofNat 16 w).toNat ≤ 16)) ∧
      ∀ w ∈ [1, 16], 1 ≤ (BitVec.ofNat 16 w).toNat ∧ (BitVec.ofNat 16 w).toNat ≤ 16 := by decide

theorem wit_RxEdge :
    ((ringOf 27).stop.val + 1) % 29 ≠ (ringOf 27).start.val ∧ ((ringOf 28).stop.val + 1) % 29 = (ringOf 28).start.val := by
  decide

theorem wit_IntervalBoundaries :
    (590 : U16).toNat ≤ (590 : U16).toNat ∧ (590 : U16).toNat < (591 : U16).toNat ∧
      (1120 : U16).toNat ≤ (1120 : U16).toNat ∧ (1120 : U16).toNat < (1121 : U16).toNat := by decide

theorem wit_RxStepInStart :
    ((held 1 0 8).rxPort .n).dec.state = .start ∧ ((held 1 0 8).rxPort .n).isDataBuffered = true ∧
      (base.rxPort .n).ring.start = (base.rxPort .n).ring.stop ∧
      ∀ level, (ringOne ⟨7000, level⟩).start ≠ (ringOne ⟨7000, level⟩).stop ∧
        ((ringOne ⟨7000, level⟩).slot[(ringOne ⟨7000, level⟩).start.val]).rising = level := by decide +kernel

theorem wit_RxStepWithSnapshotQueued :
    ∀ d ∈ [0, 590, 591, 1120, 1121, 65535],
      let s := decoding .decoding 1 9000 (ringOne ⟨9000 + BitVec.ofNat 16 d, true⟩) (bufOf 1 0 72)
      s.sys.fatal = false ∧ (s.rxPort .n).dec.state = .decoding ∧ (s.rxPort .n).ring.start ≠ (s.rxPort .n).ring.stop ∧
        (((s.rxPort .n).ring.slot[(s.rxPort .n).ring.start.val]).ts - (s.rxPort .n).dec.refTs).toNat = d := by
  decide +kernel

theorem wit_RxStepTimeoutCheck :
    let s := decoding .decoding 1 9000 (ringOf 0) (bufOf 1 0 1)
    s.sys.fatal = false ∧ (s.rxPort .n).dec.state = .decoding ∧ (s.rxPort .n).ring.start = (s.rxPort .n).ring.stop ∧
      2 * s.cfg.clockDelay.toNat = ((11000 : U16) - (s.rxPort .n).dec.refTs).toNat ∧
      ((10999 : U16) - (s.rxPort .n).dec.refTs).toNat < 2 * s.cfg.clockDelay.toNat := by decide +kernel

theorem wit_RxStepCompletes :
    let s := decoding .postTimeoutProcess 1 9000 (ringOf 0) (bufOf 1 0 1)
    s.sys.fatal = false ∧ (s.rxPort .n).dec.state = .postTimeoutProcess := by decide +kernel

theorem wit_RxClear :
    (base.rxPort .n).isDataBuffered = false ∧ ((held 5 0x81 24).rxPort .n).isDataBuffered = true ∧
      (held 5 0x81 24).sys.fatal = false := by decide +kernel

theorem wit_DecoderStateMoves :
    (∃ t, exec (.rxStep (argOf .n) 0) (decoding .postTimeoutProcess 1 9000 (ringOf 0) (bufOf 1 0 1)) = .next t) ∧
      (∃ t, exec .sysReset base = .next t) ∧ ∃ t, exec (.rxStep (argOf .e) 0) base = .next t ∧
      Instr.rxStep (argOf .e) 0 ≠ .sysReset ∧ ¬ decodes (.rxStep (argOf .e) 0) .n :=
  ⟨⟨_, rfl⟩, ⟨_, rfl⟩, _, rfl, by decide, by rintro ⟨now, h | h⟩ <;> cases h⟩

theorem wit_CompletionIsSignalledOnce :
    let s := decoding .postTimeoutProcess 1 9000 (ringOf 0) (bufOf 1 0 1)
    Inv s ∧ s.out.rxDone = none ∧ ∃ t, exec (.rxStep (argOf .n) 0) s = .next t ∧ t.out.rxDone = some .n :=
  ⟨by refine ⟨?_, ?_, ⟨?_, ?_, ?_⟩, ?_, ?_, ?_⟩ <;> decide +kernel, rfl, _, rfl, rfl⟩

theorem wit_TxEnable :
    (∃ q ∈ targets .sim, ((sending .s 3 0 8).txPort q).isTransmitting = true) ∧
      (∃ q ∈ targets .sim, ((staged .e 3 0 8 8).txPort q).dataEnd.val = 0) ∧
      (∀ q ∈ targets .e, ((staged .e 3 0 8 1).txPort q).dataEnd.val ≠ 0) ∧
      (∀ q ∈ targets .e, ((staged .e 3 0 8 1).txPort q).buf.overflowed = false) ∧
      ∃ q ∈ targets .n,
        ((base.setTx .n { TxPort.reset with buf := { PortBuffer.reset with overflowed := true }, dataEnd := 72 }).txPort
          q).buf.overflowed = true := by decide +kernel

theorem wit_TxEnable_cadence :
    (∃ q, (((sending .s 3 0 8).setTx .e { TxPort.reset with dataEnd := 8 }).txPort q).isTransmitting = true) ∧
      ∀ q, ((staged .e 3 0 8 8).txPort q).isTransmitting = false := ⟨⟨.s, rfl⟩, forall_ports rfl rfl rfl⟩

theorem wit_TxTick :
    (∀ q, ((sending .s 3 71 72).txPort q).isTransmitting = true →
      ((sending .s 3 71 72).txPort q).buf.pos.val < 72 ∨
        ((sending .s 3 71 72).txPort q).secondHalf = false ∧
          ((sending .s 3 71 72).txPort q).buf.pos.val = ((sending .s 3 71 72).txPort q).dataEnd.val) ∧
    ∀ q, ((sending .s 3 72 72).txPort q).isTransmitting = true →
      ((sending .s 3 72 72).txPort q).buf.pos.val < 72 ∨
        ((sending .s 3 72 72).txPort q).secondHalf = false ∧
          ((sending .s 3 72 72).txPort q).buf.pos.val = ((sending .s 3 72 72).txPort q).dataEnd.val :=
  ⟨forall_ports (by decide) (by decide) (by decide), forall_ports (by decide) (by decide) (by decide)⟩

theorem wit_OnlyTheTickCanStop :
    exec .txTick (sending .s 3 72 71) = .fault (.readAtEnd .s) ∧ (sending .s 3 72 71).sys.fatal = false ∧
      ((sending .s 3 72 71).txPort .s).isTransmitting = true ∧ ((sending .s 3 72 71).txPort .s).buf.pos.val = 72 ∧
      ((sending .s 3 72 71).txPort .s).dataEnd.val ≠ 72 := ⟨rfl, by decide, by decide, by decide, by decide⟩

theorem wit_FrameWaveform :
    Inv (sending .s 3 0 1) ∧ Inv (sending .s 3 0 72) ∧ (sending .s 3 0 72).sys.fatal = false ∧
      ((sending .s 3 0 72).txPort .s).isTransmitting = true ∧ ((sending .s 3 0 72).txPort .s).secondHalf = false ∧
      ((sending .s 3 0 72).txPort .s).buf.pos.val = 0 :=
  ⟨by refine ⟨?_, ?_, ⟨?_, ?_, ?_⟩, ?_, ?_, ?_⟩ <;> decide +kernel,
    by refine ⟨?_, ?_, ⟨?_, ?_, ?_⟩, ?_, ?_, ?_⟩ <;> decide +kernel, rfl, rfl, rfl, rfl⟩

theorem wit_HeatWiresRange :
    (2 : U8).toNat ≤ (2 : U8).toNat ∧ (1 : U8).toNat < (2 : U8).toNat ∧ base.sys.fatal = false ∧
      ∀ q ∈ targets .sim, (base.txPort q).isTransmitting = false := by decide +kernel

theorem wit_Interpret :
    (base.rxPort .n).isDataBuffered = false ∧ ((held 5 0x81 24).rxPort .n).isDataBuffered = true := by decide +kernel

/-- North of `held` with a buffer of this interpretation. -/
theorem wit_Interpret_branches :
    let r (b : PortBuffer) : Interpreted := interpret b
    r { bufOf 5 0x81 24 with overflowed := true } = .reject .overflowed ∧ r (bufOf 5 0x81 9) = .reject .badLength ∧
      r (bufOf 4 0x81 24) = .reject .badStart ∧ r (bufOf 0x13 0 8) = .reject .badType ∧
      r (bufOf 0x23 0 8) = .reject .badType ∧ r (bufOf 5 0x81 25) = .reject .lengthMismatch ∧
      r (bufOf 0x43 0 8) = .reject .badParity ∧ r (bufOf 0xC3 0 8) = .accept true .ack := by decide +kernel

theorem wit_CodecRoundTrip :
    validPackage (.heatWiresRange 1 2 1 2 0 1023 3) ∧ validPackage (.syncTime 0xFFFF 0xFFFF 0) ∧
      base.sys.fatal = false ∧ (∀ q ∈ targets .sim, (base.txPort q).isTransmitting = false) ∧ Port.s ∈ targets .sim ∧
      ∃ t, exec (constructor .sim true .ack) base = .next t ∧
        ((held 0xC3 0 8).rxPort .n).buf.bytes = (t.txPort .s).buf.bytes ∧
        ((held 0xC3 0 8).rxPort .n).buf.pos = (t.txPort .s).dataEnd :=
  ⟨⟨by decide, by decide, by decide⟩, rfl, rfl, by decide, by decide, _, rfl, by decide +kernel, by decide +kernel⟩

theorem wit_SingleBitError :
    exec (.pktInterpret (argOf .n)) (held 0xC3 0 8) =
        .next ((held 0xC3 0 8).answer 0 (.interpreted (.accept true .ack))) ∧
      ((held 0xC2 0 8).rxPort .n).buf = flipBit ((held 0xC3 0 8).rxPort .n).buf 0 ∧
      ((held 0x43 0 8).rxPort .n).buf = flipBit ((held 0xC3 0 8).rxPort .n).buf 7 ∧
      ((held 0x03 0 8).rxPort .n).buf = flipBit (flipBit ((held 0xC3 0 8).rxPort .n).buf 6) 7 ∧
      7 < ((held 0xC3 0 8).rxPort .n).buf.pos.val ∧ ((held 0x43 0 8).rxPort .n).isDataBuffered = true :=
  ⟨by
    simp only [exec, execPktInterpret, onPhysical_argOf]
    rw [show ((held 0xC3 0 8).rxPort .n).isDataBuffered = true from rfl, require_true,
      show interpret ((held 0xC3 0 8).rxPort .n).buf = .accept true .ack from by decide +kernel]
    rfl,
    by decide +kernel, by decide +kernel, by decide +kernel, by decide, rfl⟩

/-- North's ring holds 28 snapshots. -/
def ringFullState : State := base.setRx .n { RxPort.reset with ring := ringOf 28 }

/-- North's buffer holds 72 bits and a data edge is queued. -/
def bufFullState : State := decoding .decoding 0 9000 (ringOne ⟨9500, true⟩) (bufOf 1 0 72)

theorem wit_FatalOnly :
    (ringFullState.sys.fatal = false ∧ bufFullState.sys.fatal = false) ∧
      (∃ t, exec (.rxEdge (argOf .n) 7 true) ringFullState = .next t ∧ t.sys.fatal = true) ∧
      ∃ t, exec (.rxStep (argOf .n) 0) bufFullState = .next t ∧ t.sys.fatal = true := by
  refine ⟨⟨rfl, rfl⟩, ⟨_, rfl, ?_⟩, _, rfl, ?_⟩ <;> decide +kernel

theorem wit_HaltedBlock :
    refusedWhileHalted (.rxClear .n) = true ∧ refusedWhileHalted (.pktAck .sim true) = true ∧
      Instr.rxClear .n ≠ .rxClear .sim ∧ decodes (.rxPoll .n 0) .n :=
  ⟨rfl, rfl, by decide, 0, .inr rfl⟩

theorem wit_RefusalTable :
    isEvent (.txEnable .n 0) = false ∧ firstReason (.txEnable .n 0) base = some .notStaged ∧
      firstReason (.txEnable .n 0) (staged .n 3 0 8 8) = none ∧ firstReason (.rxClear .sim) halted = some .badPort ∧
      (∃ t, exec .txTick base = .next t) ∧ (∃ t, exec (.rxEdge (argOf .n) 7 true) base = .next t) ∧
      decode { cmd := 0x14 } = .error (.reservedOp 5) := by
  refine ⟨rfl, by decide +kernel, by decide +kernel, by decide +kernel, ⟨_, rfl⟩, ⟨_, rfl⟩, rfl⟩

theorem wit_OwnershipTable : ∃ t, exec .txTick (sending .s 3 0 8) = .next t ∧ Instr.txTick ≠ .sysReset ∧
    (t.txPort .s).line ≠ ((sending .s 3 0 8).txPort .s).line := ⟨_, rfl, by decide, by decide +kernel⟩

theorem wit_Invariant :
    Inv (sending .s 3 0 8) ∧ ∃ t, step (waiting (.command { cmd := 0x44 }) (sending .s 3 0 8)) = .next t :=
  ⟨by refine ⟨?_, ?_, ⟨?_, ?_, ?_⟩, ?_, ?_, ?_⟩ <;> decide +kernel, _, rfl⟩

/-- South in the middle of the first cell of an ACK: the line at the inverse of the bit. -/
def midCell : State :=
  base.setTx .s
    { TxPort.reset with buf := bufOf 3 0 0, dataEnd := 8, isTransmitting := true, secondHalf := true, line := false }

theorem wit_LineFollowsTheFrame :
    Inv midCell ∧ (∀ p, LineOk (midCell.txPort p)) ∧ (∀ p, LineOk ((sending .s 3 0 8).txPort p)) ∧
      (∃ t, step (waiting (.command { cmd := 0x44 }) midCell) = .next t) ∧ halvesDone (midCell.txPort .s) = 1 ∧
      halvesDone ((sending .s 3 0 8).txPort .s) = 0 := by
  refine ⟨by refine ⟨?_, ?_, ⟨?_, ?_, ?_⟩, ?_, ?_, ?_⟩ <;> decide +kernel, ?_, ?_, ⟨_, rfl⟩, rfl, rfl⟩
  · refine forall_ports (fun h => absurd h (by decide)) (fun h => absurd h (by decide)) fun _ => ⟨?_, fun k hk => ?_⟩
    · intro h; exact absurd h (by decide)
    · have hk : 1 = k + 1 := hk
      obtain rfl : k = 0 := by omega
      decide +kernel
  · refine forall_ports (fun h => absurd h (by decide)) (fun h => absurd h (by decide)) fun _ => ⟨fun _ => rfl, fun k hk => ?_⟩
    have hk : 0 = k + 1 := hk
    omega

theorem wit_PutField :
    (∀ w ∈ [1, 16], 1 ≤ w ∧ w ≤ 16) ∧ (bufOf 0 0 71).pos.val + 1 ≤ 72 ∧ 72 < (bufOf 0 0 57).pos.val + 16 ∧
      putFieldStored (bufOf 0 0 56) 0xFFFF 16 = true ∧ putFieldStored (bufOf 0 0 57) 0xFFFF 16 = false := by
  decide +kernel

/-- The edges of fifteen 1 bits, sent at tick 0 and read by a poll after the tenth edge. -/
def polledEdges : List ((Nat × Bool) × List Nat) :=
  (List.zip (frameEdges (List.replicate 15 true) 0 500) (List.range 30)).map
    fun x => (x.1, if x.2 = 9 then [0, 499] else [])

theorem wit_ManchesterRoundTrip :
    Inv base ∧ (base.rxPort .n).dec.state = .start ∧ (base.rxPort .n).isDataBuffered = false ∧
      ringEmpty (base.rxPort .n).ring = true ∧
      polledEdges.map (fun x => x.1) = frameEdges (List.replicate 15 true) 0 base.cfg.halfDelay.toNat ∧
      (∀ x ∈ polledEdges, ∀ d ∈ x.2, d < 2 * base.cfg.clockDelay.toNat) ∧
      polledEdges.getLast?.map (fun x => x.1.1) = some 14500 ∧ PolledOften polledEdges := by
  refine ⟨by refine ⟨?_, ?_, ⟨?_, ?_, ?_⟩, ?_, ?_, ?_⟩ <;> decide +kernel, rfl, rfl, by decide,
    by decide +kernel, by decide +kernel, by decide +kernel, ?_⟩
  intro i hi
  have hl : polledEdges.length = 30 := by decide +kernel
  exact ⟨9, by omega, by omega, _, rfl, by decide +kernel⟩

/-- A lone bit, the shortest silence and the longest. -/
theorem wit_ManchesterRoundTrip_short :
    ([((0, false), []), ((500, true), [])] : List ((Nat × Bool) × List Nat)).map (fun x => x.1) = frameEdges [true] 0 500 ∧
      2 * base.cfg.clockDelay.toNat ≤ 2000 ∧ 2 * base.cfg.clockDelay.toNat ≤ 65535 := by decide +kernel

end Sys2Proof.Tests
end

/-! SUPPORT. The legal clock delays and the timing values derived from them (spec/00_scope.md R8; spec/45_config_system.md R142,
R146). -/

namespace Sys2Proof.Proofs

open Sys2Proof.Machine

/-! ### Legal delays -/

theorem legalDelay_eq_true_iff {d : Ts} : legalDelay d = true ↔ 2 ≤ d.toNat ∧ d.toNat ≤ 32767 := by
  simp [legalDelay]

theorem legalDelay_eq_false_iff {d : Ts} : legalDelay d = false ↔ ¬ (2 ≤ d.toNat ∧ d.toNat ≤ 32767) := by
  rw [← legalDelay_eq_true_iff, Bool.not_eq_true]

/-! ### The derived values as numbers

Half and short never exceed the delay, so they fit a counter value for every delay; long fits because a legal delay is
at most 32767. -/

theorem toNat_deriveHalf (d : Ts) : (deriveHalf d).toNat = d.toNat / 2 :=
  Nat.mod_eq_of_lt (by have := d.isLt; omega)

theorem toNat_deriveShort (d : Ts) : (deriveShort d).toNat = d.toNat * 59 / 100 :=
  Nat.mod_eq_of_lt (by have := d.isLt; simp only [Config.shortPct]; omega)

theorem toNat_deriveLong {d : Ts} (h : d.toNat ≤ 32767) : (deriveLong d).toNat = d.toNat * 112 / 100 :=
  Nat.mod_eq_of_lt (by simp only [Config.longPct, Config.tsBits]; omega)

theorem timeoutThr_eq (d : Ts) : timeoutThr d = 2 * d.toNat := rfl

/-! ### CFG.DELAY -/

theorem exec_cfgDelay (d : Ts) (s : State) :
    exec (.cfgDelay d) s =
      require (!s.sys.fatal) .halted s (require (legalDelay d) .badOperand s (finish .none (writeDelay d s))) := rfl

theorem exec_cfgDelay_of_illegal {d : Ts} {s : State} (hrun : s.sys.fatal = false) (hd : legalDelay d = false) :
    exec (.cfgDelay d) s = .next (s.answer 7 .none) := by
  rw [exec_cfgDelay, hrun, hd]
  rfl

/-- Settles O27: the derived values are read as numbers, and each inequality of R8 is then linear in the delay. -/
theorem legalDelayThresholds : Obligations.LegalDelayThresholds := by
  intro d
  refine ⟨fun hd s hrun => exec_cfgDelay_of_illegal hrun (legalDelay_eq_false_iff.mpr hd), fun hd => ?_⟩
  refine ⟨legalDelay_eq_true_iff.mpr hd, ?_⟩
  obtain ⟨hlo, hhi⟩ := hd
  rw [toNat_deriveHalf, toNat_deriveShort, toNat_deriveLong hhi, timeoutThr_eq]
  omega

end Sys2Proof.Proofs

/-! SUPPORT. The ports and the PortBuffer right after reset (spec/10_state.md R31). -/

namespace Sys2Proof.Proofs

open Sys2Proof.Machine

@[simp] theorem rxPort_reset (p : Port) : State.reset.rxPort p = RxPort.reset := PerPort.get_fill ..

@[simp] theorem txPort_reset (p : Port) : State.reset.txPort p = TxPort.reset := PerPort.get_fill ..

/-- The reset value of a PortBuffer is what `buf_clear` leaves (R83). -/
theorem bufClear_eq_reset (b : PortBuffer) : bufClear b = PortBuffer.reset := rfl

@[simp] theorem bufGet_reset (n : Nat) : bufGet PortBuffer.reset n = false := by
  rw [← bufClear_eq_reset PortBuffer.reset, bufGet_bufClear]

@[simp] theorem RxPort.reset_slot (i : Nat) (h : i < Config.cap) :
    RxPort.reset.ring.slot[i] = { ts := 0, rising := false } := Vector.getElem_replicate ..

/-- Log entry 1: the delay after reset is within the legal range, so the long threshold does not wrap. -/
theorem defaultClockDelay_le : Config.defaultClockDelay.toNat ≤ 32767 := by decide

/-- Settles O10: every port holds the one reset port value, a reset buffer is a cleared one, and the derived registers are
read as numbers at the default delay; the other rows are the fields of the record. -/
theorem resetValues : Obligations.ResetValues := by
  refine ⟨fun p => ?rx, fun p => ?tx, rfl, toNat_deriveHalf _, toNat_deriveShort _,
    toNat_deriveLong defaultClockDelay_le, rfl, rfl, rfl, rfl⟩
  case rx =>
    rw [rxPort_reset]
    exact ⟨RxPort.reset_slot, rfl, rfl, rfl, rfl, bufGet_reset, rfl, rfl, rfl⟩
  case tx =>
    rw [txPort_reset]
    exact ⟨bufGet_reset, rfl, rfl, rfl, rfl, rfl, rfl⟩

end Sys2Proof.Proofs

/-! SUPPORT. Who may write what (spec/20_memory.md R43): the writers of one port's elements and of the shared registers, one
constructor per writer, and the proof that every operation but reset is one of them. -/

namespace Sys2Proof.Proofs

open Sys2Proof.Machine

/-! ### The writers -/

/-- How operation `i` may take receive port `q` from `r` to `r'`. -/
inductive RxWrite (i : Instr) (q : Port) (r r' : RxPort) : Prop
  | kept (h : r' = r)
  | captured (hi : ∃ ts rising, i = .rxEdge (argOf q) ts rising) (hr : r' = { r with ring := r'.ring })
      (hstart : r'.ring.start = r.ring.start)
  | decoded (hi : decodes i q) (hring : r'.ring = { r.ring with start := r'.ring.start })
  | cleared (hi : i = .rxClear (argOf q)) (hr : r' = { r with buf := r'.buf, isDataBuffered := r'.isDataBuffered })

/-- How operation `i` may take transmit port `q` from `x` to `x'`. -/
inductive TxWrite (i : Instr) (q : Port) (x x' : TxPort) : Prop
  | kept (h : x' = x)
  | staged (p : PortArg) (hi : stagingPort i = some p) (hq : q ∈ targets p) (hidle : x.isTransmitting = false)
      (hx : x' = { x with buf := x'.buf, dataEnd := x'.dataEnd })
  | armed (p : PortArg) (now : Ts) (hi : i = .txEnable p now) (hq : q ∈ targets p) (hidle : x.isTransmitting = false)
      (hx : x' = armPort x)
  | ticked (hi : i = .txTick) (hbusy : x.isTransmitting = true) (hbytes : x'.buf.bytes = x.buf.bytes)
      (hend : x'.dataEnd = x.dataEnd)

/-- Operation `i` takes `s` to `t` writing only what it owns (R43). -/
structure Owned (i : Instr) (s t : State) : Prop where
  rx : ∀ q, RxWrite i q (s.rxPort q) (t.rxPort q)
  tx : ∀ q, TxWrite i q (s.txPort q) (t.txPort q)
  compare : t.sys.txCompare = s.sys.txCompare ∨ i = .txTick ∨
    (∃ p now, i = .txEnable p now) ∧ ∀ q, (s.txPort q).isTransmitting = false
  cfg : t.cfg = s.cfg ∨ (∃ d, i = .cfgDelay d) ∨ ∃ sh, i = .cfgShift sh

/-! ### The owner of each element, read off its writers -/

section Owner

variable {i : Instr} {q : Port} {r r' : RxPort} {x x' : TxPort}

theorem RxWrite.edge_of_queue_ne (w : RxWrite i q r r')
    (h : r'.ring.slot ≠ r.ring.slot ∨ r'.ring.stop ≠ r.ring.stop ∨ r'.ring.overflowed ≠ r.ring.overflowed) :
    ∃ ts rising, i = .rxEdge (argOf q) ts rising := by
  cases w with
  | captured hi => exact hi
  | kept hr => simp [hr] at h
  | decoded _ hring => rw [hring] at h; simp at h
  | cleared _ hr => rw [hr] at h; simp at h

theorem RxWrite.decodes_of_start_ne (w : RxWrite i q r r') (h : r'.ring.start ≠ r.ring.start) : decodes i q := by
  cases w with
  | decoded hi => exact hi
  | kept hr => simp [hr] at h
  | captured _ _ hstart => exact absurd hstart h
  | cleared _ hr => rw [hr] at h; simp at h

theorem RxWrite.decodes_of_dec_ne (w : RxWrite i q r r') (h : r'.dec ≠ r.dec) : decodes i q := by
  cases w with
  | decoded hi => exact hi
  | kept hr => simp [hr] at h
  | captured _ hr => rw [hr] at h; simp at h
  | cleared _ hr => rw [hr] at h; simp at h

theorem RxWrite.decodes_or_clear_of_buf_ne (w : RxWrite i q r r')
    (h : r'.buf ≠ r.buf ∨ r'.isDataBuffered ≠ r.isDataBuffered) : decodes i q ∨ i = .rxClear (argOf q) := by
  cases w with
  | decoded hi => exact .inl hi
  | cleared hi => exact .inr hi
  | kept hr => simp [hr] at h
  | captured _ hr => rw [hr] at h; simp at h

theorem TxWrite.staging_of_data_ne (w : TxWrite i q x x')
    (h : x'.buf.bytes ≠ x.buf.bytes ∨ x'.dataEnd ≠ x.dataEnd) :
    x.isTransmitting = false ∧ ∃ p, stagingPort i = some p ∧ q ∈ targets p := by
  cases w with
  | staged p hi hq hidle => exact ⟨hidle, p, hi, hq⟩
  | kept hx => simp [hx] at h
  | armed _ _ _ _ _ hx => simp [hx, armPort] at h
  | ticked _ _ hbytes hend => simp [hbytes, hend] at h

theorem busyPort_of_stagingPort {p : PortArg} (h : stagingPort i = some p) : busyPort i = some p := by
  unfold busyPort
  split
  · cases h
  · exact h

theorem TxWrite.tick_or_busyPort_of_line_ne (w : TxWrite i q x x')
    (h : x'.buf.pos ≠ x.buf.pos ∨ x'.secondHalf ≠ x.secondHalf ∨ x'.line ≠ x.line) :
    x.isTransmitting = true ∧ i = .txTick ∨
      x.isTransmitting = false ∧ ∃ p, busyPort i = some p ∧ q ∈ targets p := by
  cases w with
  | staged p hi hq hidle => exact .inr ⟨hidle, p, busyPort_of_stagingPort hi, hq⟩
  | armed p now hi hq hidle => exact .inr ⟨hidle, p, by rw [hi]; rfl, hq⟩
  | ticked hi hbusy => exact .inl ⟨hbusy, hi⟩
  | kept hx => simp [hx] at h

theorem TxWrite.tick_of_stopped (w : TxWrite i q x x') (hbusy : x.isTransmitting = true)
    (hstop : x'.isTransmitting = false) : i = .txTick := by
  cases w with
  | ticked hi => exact hi
  | kept hx => simp [hx, hbusy] at hstop
  | staged _ _ _ hidle => simp [hidle] at hbusy
  | armed _ _ _ _ hidle => simp [hidle] at hbusy

theorem TxWrite.enable_of_started (w : TxWrite i q x x') (hidle : x.isTransmitting = false)
    (hstart : x'.isTransmitting = true) : ∃ p now, i = .txEnable p now ∧ q ∈ targets p := by
  cases w with
  | armed p now hi hq => exact ⟨p, now, hi, hq⟩
  | kept hx => simp [hx, hidle] at hstart
  | staged _ _ _ _ hx => rw [hx] at hstart; simp [hidle] at hstart
  | ticked _ hbusy => simp [hidle] at hbusy

end Owner

/-! ### One side of the block written, the other kept -/

section Sides

variable {i : Instr} {s t : State}

theorem Owned.of_rx (hrx : ∀ q, RxWrite i q (s.rxPort q) (t.rxPort q)) (htx : t.tx = s.tx) (hcfg : t.cfg = s.cfg)
    (hcmp : t.sys.txCompare = s.sys.txCompare) : Owned i s t :=
  ⟨hrx, fun q => .kept (congrArg (·.get q) htx), .inl hcmp, .inl hcfg⟩

theorem Owned.of_tx (htx : ∀ q, TxWrite i q (s.txPort q) (t.txPort q)) (hrx : t.rx = s.rx) (hcfg : t.cfg = s.cfg)
    (hcmp : t.sys.txCompare = s.sys.txCompare ∨ i = .txTick ∨
      (∃ p now, i = .txEnable p now) ∧ ∀ q, (s.txPort q).isTransmitting = false) : Owned i s t :=
  ⟨fun q => .kept (congrArg (·.get q) hrx), htx, hcmp, .inl hcfg⟩

theorem Owned.of_cfg (hi : (∃ d, i = .cfgDelay d) ∨ ∃ sh, i = .cfgShift sh) (hrx : t.rx = s.rx) (htx : t.tx = s.tx)
    (hcmp : t.sys.txCompare = s.sys.txCompare) : Owned i s t :=
  ⟨fun q => .kept (congrArg (·.get q) hrx), fun q => .kept (congrArg (·.get q) htx), .inl hcmp, .inr hi⟩

theorem Owned.refl (i : Instr) (s : State) : Owned i s s := .of_rx (fun _ => .kept rfl) rfl rfl rfl

/-- The outputs of a command are nobody's element. -/
theorem Owned.answer (h : Owned i s t) (c : U8) (r : Record) : Owned i s (t.answer c r) :=
  ⟨h.rx, h.tx, h.compare, h.cfg⟩

end Sides

/-! ### How a command ends -/

/-- Whatever next state `o` answers, `i` came to it from `s` writing only what it owns. -/
def OwnedOutcome (i : Instr) (s : State) (o : Host.Outcome State Fault Refusal) : Prop :=
  ∀ t, o = .next t → Owned i s t

section Ends

variable {i : Instr} {s u : State} {k : Host.Outcome State Fault Refusal}

theorem ownedOutcome_next (h : Owned i s u) : OwnedOutcome i s (.next u) := by
  rintro t ⟨⟩
  exact h

theorem ownedOutcome_finish (h : Owned i s u) (r : Record) : OwnedOutcome i s (finish r u) :=
  ownedOutcome_next (h.answer 0 r)

theorem ownedOutcome_finish_self (i : Instr) (s : State) (r : Record) : OwnedOutcome i s (finish r s) :=
  ownedOutcome_finish (.refl i s) r

theorem ownedOutcome_require {c : Bool} (r : Reason) (h : c = true → OwnedOutcome i s k) :
    OwnedOutcome i s (require c r s k) := by
  intro t ht
  rcases require_eq_next.mp ht with ⟨-, rfl⟩ | ⟨hc, hk⟩
  · exact (Owned.refl i s).answer _ _
  · exact h hc t hk

theorem ownedOutcome_onPhysical {p : PortArg} {k : Port → Host.Outcome State Fault Refusal}
    (h : ∀ q, p = argOf q → OwnedOutcome i s (k q)) : OwnedOutcome i s (onPhysical p s k) := by
  intro t ht
  rcases onPhysical_eq_next ht with ⟨-, rfl⟩ | ⟨q, hp, hk⟩
  · exact (Owned.refl i s).answer _ _
  · exact h q hp t hk

theorem ownedOutcome_staging {p : PortArg}
    (h : (∀ q ∈ targets p, (s.txPort q).isTransmitting = false) → OwnedOutcome i s k) :
    OwnedOutcome i s (staging p s k) := by
  intro t ht
  rcases staging_eq_next ht with ⟨-, rfl⟩ | ⟨-, -, rfl⟩ | ⟨-, hidle, hk⟩
  · exact (Owned.refl i s).answer _ _
  · exact (Owned.refl i s).answer _ _
  · exact h ((targetsIdle_iff p s).mp hidle) t hk

end Ends

/-! ### Edge capture (R93, R97) -/

@[simp] theorem ringEnqueue_start (q : Ring) (sn : Snapshot) : (ringEnqueue q sn).start = q.start := by
  unfold ringEnqueue; split <;> rfl

theorem captureEdge_rxPort (q p : Port) (ts : Ts) (rising : Bool) (s : State) :
    (captureEdge q ts rising s).rxPort p =
      if p = q then { s.rxPort q with ring := ringEnqueue (s.rxPort q).ring (snapMake ts rising) }
      else s.rxPort p := by
  simp only [captureEdge]
  split <;> simp [rxPort_setRx]

theorem captureEdge_frame (q : Port) (ts : Ts) (rising : Bool) (s : State) :
    (captureEdge q ts rising s).tx = s.tx ∧ (captureEdge q ts rising s).cfg = s.cfg ∧
      (captureEdge q ts rising s).sys.txCompare = s.sys.txCompare := by
  simp only [captureEdge]
  split <;> simp

theorem owned_captureEdge (q : Port) (ts : Ts) (rising : Bool) (s : State) :
    Owned (.rxEdge (argOf q) ts rising) s (captureEdge q ts rising s) := by
  obtain ⟨htx, hcfg, hcmp⟩ := captureEdge_frame q ts rising s
  refine .of_rx (fun p => ?_) htx hcfg hcmp
  rw [captureEdge_rxPort]
  split
  · subst p; exact .captured ⟨ts, rising, rfl⟩ rfl (ringEnqueue_start ..)
  · exact .kept rfl

theorem ownedOutcome_rxEdge (p : PortArg) (ts : Ts) (rising : Bool) (s : State) :
    OwnedOutcome (.rxEdge p ts rising) s (execRxEdge p ts rising s) := by
  refine ownedOutcome_onPhysical fun q hp => ownedOutcome_next ?_
  subst hp
  split
  · exact .refl _ _
  · exact owned_captureEdge q ts rising s

/-! ### The decoder (R102 to R107) -/

@[simp] theorem storeBit_ring (q : Port) (v : Bool) (s : State) :
    ((storeBit q v s).rxPort q).ring = (s.rxPort q).ring := by
  simp only [storeBit]
  split <;> simp

@[simp] theorem setRef_ring (q : Port) (ts : Ts) (s : State) :
    ((setRef q ts s).rxPort q).ring = (s.rxPort q).ring := by simp [setRef]

@[simp] theorem setDecState_ring (q : Port) (st : DecState) (s : State) :
    ((setDecState q st s).rxPort q).ring = (s.rxPort q).ring := by simp [setDecState]

@[simp] theorem consume_ring (q : Port) (adv : Nat) (sn : Snapshot) (s : State) :
    ((consume q adv sn s).rxPort q).ring = ringDequeue (s.rxPort q).ring := by
  simp only [consume, setRef_ring]
  split <;> simp [advance]

theorem stepComplete_ring (q : Port) (s : State) : ((stepComplete q s).1.rxPort q).ring = (s.rxPort q).ring := by
  simp [stepComplete, State.rxPort, State.setRx]

/-- A micro-step takes at most the oldest snapshot from its ring (R103, R104). -/
theorem microStep_ring (q : Port) (now : Ts) (s : State) :
    ((microStep q now s).1.rxPort q).ring = (s.rxPort q).ring ∨
      ((microStep q now s).1.rxPort q).ring = ringDequeue (s.rxPort q).ring := by
  unfold microStep
  split
  · exact .inl rfl
  · split
    case h_1 =>
      simp only [stepStart]
      split
      · exact .inl rfl
      · split
        · exact .inl rfl
        · split <;> exact .inr (by simp)
    case h_2 =>
      split
      · unfold stepTimeout
        split
        · exact .inl (setDecState_ring ..)
        · exact .inl rfl
      · simp only [stepQueued]
        split
        · exact .inl (setDecState_ring ..)
        · exact .inr (consume_ring ..)
        · exact .inr (consume_ring ..)
    case h_3 => exact .inl (stepComplete_ring q s)

/-- What the decoder of port `q` keeps on the way from `s` to `u`: all but its own port, and there all of the ring but its
start. -/
structure DecoderFrame (q : Port) (s u : State) : Prop where
  tx : u.tx = s.tx
  cfg : u.cfg = s.cfg
  compare : u.sys.txCompare = s.sys.txCompare
  others : ∀ p, p ≠ q → u.rxPort p = s.rxPort p
  ring : (u.rxPort q).ring = { (s.rxPort q).ring with start := (u.rxPort q).ring.start }

theorem DecoderFrame.refl (q : Port) (s : State) : DecoderFrame q s s := ⟨rfl, rfl, rfl, fun _ _ => rfl, rfl⟩

theorem DecoderFrame.trans {q : Port} {s u v : State} (h : DecoderFrame q s u) (h' : DecoderFrame q u v) :
    DecoderFrame q s v where
  tx := h'.tx.trans h.tx
  cfg := h'.cfg.trans h.cfg
  compare := h'.compare.trans h.compare
  others p hp := (h'.others p hp).trans (h.others p hp)
  ring := by rw [h'.ring, h.ring]

theorem decoderFrame_microStep (q : Port) (now : Ts) (s : State) : DecoderFrame q s (microStep q now s).1 := by
  obtain ⟨htx, hcfg, -, -, -, -, hcmp, hothers⟩ := microStep_frame q now s
  refine ⟨htx, hcfg, hcmp, hothers, ?_⟩
  rcases microStep_ring q now s with h | h <;> rw [h]
  rfl

theorem decoderFrame_pollLoop (q : Port) (now : Ts) (k : Nat) (s : State) : DecoderFrame q s (pollLoop q now k s).1 :=
  pollLoop_keeps (fun u h => h.trans (decoderFrame_microStep q now u)) k s (.refl q s)

theorem DecoderFrame.owned {i : Instr} {q : Port} {s u : State} (h : DecoderFrame q s u) (hi : decodes i q) :
    Owned i s u := by
  refine .of_rx (fun p => ?_) h.tx h.cfg h.compare
  by_cases hp : p = q
  · subst hp; exact .decoded hi h.ring
  · exact .kept (h.others p hp)

theorem ownedOutcome_rxStep (p : PortArg) (now : Ts) (s : State) :
    OwnedOutcome (.rxStep p now) s (execRxStep p now s) := by
  refine ownedOutcome_onPhysical fun q hp => ownedOutcome_finish ?_ _
  exact (decoderFrame_microStep q now s).owned ⟨now, .inl (by rw [hp])⟩

theorem ownedOutcome_rxPoll (p : PortArg) (now : Ts) (s : State) :
    OwnedOutcome (.rxPoll p now) s (execRxPoll p now s) := by
  refine ownedOutcome_onPhysical fun q hp => ownedOutcome_finish ?_ _
  exact (decoderFrame_pollLoop q now (pollBound q s) s).owned ⟨now, .inr (by rw [hp])⟩

/-! ### RX.CLEAR (R108) -/

theorem owned_clearRx (q : Port) (s : State) :
    Owned (.rxClear (argOf q)) s
      (s.setRx q { s.rxPort q with buf := bufClear (s.rxPort q).buf, isDataBuffered := false }) := by
  refine .of_rx (fun p => ?_) rfl rfl rfl
  rw [rxPort_setRx]
  split
  · subst p; exact .cleared rfl rfl
  · exact .kept rfl

theorem ownedOutcome_rxClear (p : PortArg) (s : State) : OwnedOutcome (.rxClear p) s (execRxClear p s) := by
  refine ownedOutcome_onPhysical fun q hp => ?_
  subst hp
  exact ownedOutcome_require _ fun _ => ownedOutcome_require _ fun _ => ownedOutcome_finish (owned_clearRx q s) _

/-! ### Staging (R88 to R91, R123) -/

/-- On one port `f` writes at most the buffer and the end of data. -/
def WritesData (f : TxPort → TxPort) : Prop := ∀ x, f x = { x with buf := (f x).buf, dataEnd := (f x).dataEnd }

theorem writesData_clearPort : WritesData clearPort := fun _ => rfl

theorem writesData_putPort (v : U16) (w : Nat) : WritesData (putPort v w) := fun _ => rfl

theorem writesData_sealPort : WritesData sealPort := fun _ => rfl

theorem writesData_stageFrame (v : Variant) (bc : Bool) (values : List (FieldName × U16)) :
    WritesData (stageFrame v bc values) := fun _ => rfl

section Staging

variable {i : Instr} {p : PortArg}

theorem owned_updateTargets_of_writesData {f : TxPort → TxPort} {s : State} (hi : stagingPort i = some p)
    (hf : WritesData f) (hidle : ∀ q ∈ targets p, (s.txPort q).isTransmitting = false) :
    Owned i s (updateTargets p f s) := by
  obtain ⟨hrx, hcfg, hsys, -, -⟩ := updateTargets_frame p f s
  refine .of_tx (fun q => ?_) hrx hcfg (.inl (by rw [hsys]))
  rw [txPort_updateTargets]
  split
  · exact .staged p hi ‹_› (hidle q ‹_›) (hf _)
  · exact .kept rfl

/-- A staging operation with no check of its own. -/
theorem ownedOutcome_staging_update {f : TxPort → TxPort} (hi : stagingPort i = some p) (hf : WritesData f) (s : State) :
    OwnedOutcome i s (staging p s (finish .none (updateTargets p f s))) :=
  ownedOutcome_staging fun hidle => ownedOutcome_finish (owned_updateTargets_of_writesData hi hf hidle) _

/-- A staging operation that checks its operands first (R89, R132). -/
theorem ownedOutcome_staging_require_update {f : TxPort → TxPort} (hi : stagingPort i = some p) (hf : WritesData f)
    (s : State) (c : Bool) (r : Reason) :
    OwnedOutcome i s (staging p s (require c r s (finish .none (updateTargets p f s)))) :=
  ownedOutcome_staging fun hidle => ownedOutcome_require r fun _ =>
    ownedOutcome_finish (owned_updateTargets_of_writesData hi hf hidle) _

/-- Every staging operation, the constructors included. -/
theorem ownedOutcome_of_stagingPort (hi : stagingPort i = some p) (s : State) : OwnedOutcome i s (exec i s) := by
  cases i <;> simp only [stagingPort, Option.some.injEq, reduceCtorEq] at hi <;> subst hi
  case txClear => exact ownedOutcome_staging_update rfl writesData_clearPort s
  case txPut => exact ownedOutcome_staging_require_update rfl (writesData_putPort _ _) s _ _
  case txSeal => exact ownedOutcome_staging_update rfl writesData_sealPort s
  case pktHeatrng => exact ownedOutcome_staging_require_update rfl (writesData_stageFrame _ _ _) s _ _
  all_goals exact ownedOutcome_staging_update rfl (writesData_stageFrame _ _ _) s

end Staging

/-! ### TX.ENABLE (R115) -/

theorem startCadence_txPort (now : Ts) (was : Bool) (s : State) (q : Port) :
    (startCadence now was s).txPort q = s.txPort q := by cases was <;> rfl

theorem startCadence_frame (now : Ts) (was : Bool) (s : State) :
    (startCadence now was s).rx = s.rx ∧ (startCadence now was s).cfg = s.cfg := by cases was <;> exact ⟨rfl, rfl⟩

theorem startCadence_true (now : Ts) (s : State) : startCadence now true s = s := rfl

theorem txIrqEnable_eq_false_iff (s : State) :
    txIrqEnable s = false ↔ ∀ q, (s.txPort q).isTransmitting = false := by
  simp [← Bool.not_eq_true, txIrqEnable_iff]

theorem owned_armTargets {p : PortArg} {s : State} (now : Ts)
    (hidle : ∀ q ∈ targets p, (s.txPort q).isTransmitting = false) :
    Owned (.txEnable p now) s (startCadence now (txIrqEnable s) (updateTargets p armPort s)) := by
  obtain ⟨hrx, hcfg, hsys, -, -⟩ := updateTargets_frame p armPort s
  obtain ⟨hrx', hcfg'⟩ := startCadence_frame now (txIrqEnable s) (updateTargets p armPort s)
  refine .of_tx (fun q => ?_) (hrx'.trans hrx) (hcfg'.trans hcfg) ?_
  · rw [startCadence_txPort, txPort_updateTargets]
    split
    · exact .armed p now rfl ‹_› (hidle q ‹_›) rfl
    · exact .kept rfl
  · cases hirq : txIrqEnable s with
    | true => exact .inl (by rw [startCadence_true, hsys])
    | false => exact .inr (.inr ⟨⟨p, now, rfl⟩, (txIrqEnable_eq_false_iff s).mp hirq⟩)

theorem ownedOutcome_txEnable (p : PortArg) (now : Ts) (s : State) :
    OwnedOutcome (.txEnable p now) s (execTxEnable p now s) :=
  ownedOutcome_require _ fun _ => ownedOutcome_require _ fun hidle => ownedOutcome_require _ fun _ =>
    ownedOutcome_require _ fun _ => ownedOutcome_finish (owned_armTargets now ((targetsIdle_iff p s).mp hidle)) _

/-! ### TX.TICK (R116, R117) -/

/-- A half step reads the frame, it does not write it (R116). -/
theorem txHalfStep_data {x x' : TxPort} (h : txHalfStep x = some x') :
    x'.buf.bytes = x.buf.bytes ∧ x'.dataEnd = x.dataEnd := by
  rcases txHalfStep_cases x with ⟨-, -, e⟩ | ⟨-, -, e⟩ | ⟨-, -, e⟩ | ⟨-, -, -, e⟩ <;> rw [e] at h <;> cases h <;> simp

theorem txWrite_of_tickPort {q : Port} {x x' : TxPort} (h : tickPort x = some x') : TxWrite .txTick q x x' := by
  unfold tickPort at h
  split at h
  · obtain ⟨hbytes, hend⟩ := txHalfStep_data h
    exact .ticked rfl ‹_› hbytes hend
  · exact .kept (Option.some.inj h).symm

theorem ownedOutcome_txTick (s : State) : OwnedOutcome .txTick s (execTxTick s) := by
  rcases execTxTick_cases s with ⟨-, e⟩ | ⟨-, p, -, -, e⟩ | ⟨-, x, hx, e⟩ <;> rw [e]
  · exact ownedOutcome_next (.refl _ _)
  · rintro t ⟨⟩
  · exact ownedOutcome_next (.of_tx (fun q => txWrite_of_tickPort (hx q)) rfl rfl (.inr (.inl rfl)))

/-! ### Configuration and system operations (R142 to R144) -/

theorem ownedOutcome_cfgDelay (d : Ts) (s : State) : OwnedOutcome (.cfgDelay d) s (execCfgDelay d s) := by
  refine ownedOutcome_require _ fun _ => ownedOutcome_require _ fun _ => ownedOutcome_finish ?_ _
  exact .of_cfg (.inl ⟨d, rfl⟩) rfl rfl rfl

theorem ownedOutcome_cfgShift (sh : Ts) (s : State) : OwnedOutcome (.cfgShift sh) s (execCfgShift sh s) := by
  refine ownedOutcome_require _ fun _ => ownedOutcome_finish ?_ _
  exact .of_cfg (.inr ⟨sh, rfl⟩) rfl rfl rfl

/-- The interrupt enable stands in no row of the table. -/
theorem ownedOutcome_sysIrqen (en : Bool) (s : State) : OwnedOutcome (.sysIrqen en) s (execSysIrqen en s) := by
  refine ownedOutcome_finish ?_ _
  exact .of_rx (fun _ => .kept rfl) rfl rfl rfl

/-! ### Every operation but reset -/

theorem ownedOutcome_exec {i : Instr} (hi : i ≠ .sysReset) (s : State) : OwnedOutcome i s (exec i s) := by
  cases i
  case sysReset => exact absurd rfl hi
  case cfgDelay d => exact ownedOutcome_cfgDelay d s
  case cfgShift sh => exact ownedOutcome_cfgShift sh s
  case sysIrqen en => exact ownedOutcome_sysIrqen en s
  case sysStatus => exact ownedOutcome_finish_self _ s _
  case rxRead p => exact ownedOutcome_onPhysical fun _ _ => ownedOutcome_finish_self _ s _
  case txStatus p => exact ownedOutcome_onPhysical fun _ _ => ownedOutcome_finish_self _ s _
  case pktInterpret p =>
    exact ownedOutcome_onPhysical fun _ _ => ownedOutcome_require _ fun _ => ownedOutcome_finish_self _ s _
  case rxEdge p ts rising => exact ownedOutcome_rxEdge p ts rising s
  case rxStep p now => exact ownedOutcome_rxStep p now s
  case rxPoll p now => exact ownedOutcome_rxPoll p now s
  case rxClear p => exact ownedOutcome_rxClear p s
  case txEnable p now => exact ownedOutcome_txEnable p now s
  case txTick => exact ownedOutcome_txTick s
  all_goals exact ownedOutcome_of_stagingPort rfl s

/-- Settles O54: every operation but reset writes only what it owns, and each row of the table is the owner of one group of
elements read off the writers. -/
theorem ownershipTable : Obligations.OwnershipTable := by
  intro i s t hnext hi
  obtain ⟨hrx, htx, hcmp, hcfg⟩ := ownedOutcome_exec hi s t hnext
  refine ⟨fun q => ⟨(hrx q).edge_of_queue_ne, (hrx q).decodes_of_start_ne, (hrx q).decodes_of_dec_ne,
    (hrx q).decodes_or_clear_of_buf_ne, (htx q).staging_of_data_ne, (htx q).tick_or_busyPort_of_line_ne,
    (htx q).tick_of_stopped, (htx q).enable_of_started⟩, hcmp.resolve_left, hcfg.resolve_left⟩

end Sys2Proof.Proofs

/-! SUPPORT. Bits appended to a PortBuffer: where the cursor stands, what the flag says and what every position reads after
`buf_put`, after a list of bits and after `put_field` (spec/40_buffer_ops.md R84, R86). -/

namespace Sys2Proof.Proofs

open Sys2Proof.Machine

/-! ### One bit (R84) -/

theorem bufPutStored_eq_true_iff {b : PortBuffer} : bufPutStored b = true ↔ b.pos.val < Config.bufBits := by
  rw [bufPutStored, bne_iff_ne]
  exact ⟨(pos_le b).lt_of_ne, Nat.ne_of_lt⟩

theorem bufPut_overflowed (b : PortBuffer) (v : Bool) :
    (bufPut b v).overflowed = (b.overflowed || decide (b.pos.val = Config.bufBits)) := by
  rcases (pos_le b).lt_or_eq with hroom | hfull
  · simp [bufPut_of_room b v hroom, hroom.ne]
  · simp [bufPut_of_full b v hfull, hfull]

/-- The end position is no position below it, so a full buffer needs no case of its own. -/
theorem bufGet_bufPut (b : PortBuffer) (v : Bool) {n : Nat} (hn : n < Config.bufBits) :
    bufGet (bufPut b v) n = if n = b.pos.val then v else bufGet b n := by
  rcases (pos_le b).lt_or_eq with hroom | hfull
  · rw [bufPut_of_room b v hroom]
    exact bufGet_writeBytes _ b.bytes b.pos.val v (ptrInc_bytes _) hroom n hn
  · rw [bufPut_of_full b v hfull, if_neg (by omega)]
    exact bufGet_congr rfl n

/-- Settles O18: the two cases of `buf_put`, at the end position and below it. -/
theorem bufPutWritesOneBit : Obligations.BufPutWritesOneBit := by
  intro b v
  refine ⟨fun hfull => ⟨?_, bufPut_of_full b v hfull⟩, fun (hroom : b.pos.val < Config.bufBits) =>
    ⟨bufPutStored_eq_true_iff.mpr hroom, ?_, ?_, fun n hn => bufGet_bufPut b v hn⟩⟩
  · rw [← Bool.not_eq_true, bufPutStored_eq_true_iff]
    exact hfull.not_lt
  · rw [bufPut_pos]
    exact Nat.min_eq_left hroom
  · simp [bufPut_overflowed, hroom.ne]

/-! ### A list of bits -/

theorem putBits_pos (b : PortBuffer) (bits : List Bool) :
    (putBits b bits).pos.val = min (b.pos.val + bits.length) Config.bufBits := by
  induction bits generalizing b with
  | nil => exact (Nat.min_eq_left (pos_le b)).symm
  | cons v bits ih =>
    rw [putBits_cons, ih, bufPut_pos, List.length_cons]
    omega

/-- The flag is set exactly when some bit found the cursor at the end position. -/
theorem putBits_overflowed (b : PortBuffer) (bits : List Bool) :
    (putBits b bits).overflowed = (b.overflowed || decide (Config.bufBits < b.pos.val + bits.length)) := by
  induction bits generalizing b with
  | nil => simp [pos_le b]
  | cons v bits ih =>
    have hle := pos_le b
    have hend : (b.pos.val = Config.bufBits ∨ Config.bufBits < min (b.pos.val + 1) Config.bufBits + bits.length) ↔
        Config.bufBits < b.pos.val + (bits.length + 1) := by omega
    rw [putBits_cons, ih, bufPut_overflowed, bufPut_pos, List.length_cons, Bool.or_assoc, ← Bool.decide_or,
      decide_eq_decide.mpr hend]

/-- The bits stand one after another from the old cursor on, as far as there are positions. -/
theorem bufGet_putBits (b : PortBuffer) (bits : List Bool) {n : Nat} (hn : n < Config.bufBits) :
    bufGet (putBits b bits) n =
      if b.pos.val ≤ n ∧ n < b.pos.val + bits.length then bits.getD (n - b.pos.val) false else bufGet b n := by
  induction bits generalizing b with
  | nil => rw [if_neg (by simp)]; rfl
  | cons v bits ih =>
    rw [putBits_cons, ih, bufPut_pos, bufGet_bufPut b v hn, List.length_cons]
    rcases Nat.lt_trichotomy n b.pos.val with hbelow | rfl | habove
    · rw [if_neg (by omega), if_neg (by omega), if_neg (by omega)]
    · rw [if_neg (by omega), if_pos rfl, if_pos (by omega), Nat.sub_self, List.getD_cons_zero]
    · have hcursor : min (b.pos.val + 1) Config.bufBits = b.pos.val + 1 := by omega
      have hindex : n - b.pos.val = n - (b.pos.val + 1) + 1 := by omega
      rw [hcursor, if_neg habove.ne', hindex, List.getD_cons_succ]
      exact if_congr (by omega) rfl rfl

/-! ### A field (R86) -/

theorem fieldBits_getD (v : U16) {w k : Nat} (hk : k < w) : (fieldBits v w).getD k false = v.getLsbD k := by
  simp [fieldBits, hk]

theorem putFieldStored_iff (b : PortBuffer) (v : U16) {w : Nat} (hw : 1 ≤ w) :
    putFieldStored b v w = true ↔ b.pos.val + w ≤ Config.bufBits := by
  have hne : fieldBits v w ≠ [] := List.ne_nil_of_length_pos (by rwa [fieldBits_length])
  rw [putFieldStored, putBitsStored_iff, fieldBits_length, or_iff_right hne]

theorem putField_pos (b : PortBuffer) (v : U16) (w : Nat) :
    (putField b v w).pos.val = min (b.pos.val + w) Config.bufBits := by
  rw [putField, putBits_pos, fieldBits_length]

theorem putField_overflowed (b : PortBuffer) (v : U16) (w : Nat) :
    (putField b v w).overflowed = (b.overflowed || decide (Config.bufBits < b.pos.val + w)) := by
  rw [putField, putBits_overflowed, fieldBits_length]

theorem bufGet_putField (b : PortBuffer) (v : U16) (w : Nat) {n : Nat} (hn : n < Config.bufBits) :
    bufGet (putField b v w) n =
      if b.pos.val ≤ n ∧ n < b.pos.val + w then v.getLsbD (n - b.pos.val) else bufGet b n := by
  rw [putField, bufGet_putBits b _ hn, fieldBits_length]
  split
  · exact fieldBits_getD v (by omega)
  · rfl

/-- Settles O19: a field is a list of bits, and the three rules of such a list hold for it. -/
theorem putFieldReportsWhetherStored : Obligations.PutFieldReportsWhetherStored := by
  intro b v w hw _
  refine ⟨putFieldStored_iff b v hw, putField_pos b v w, ?_, fun n hn => bufGet_putField b v w hn⟩
  rw [putField_overflowed, Bool.or_eq_true, decide_eq_true_iff]
  exact Iff.rfl

end Sys2Proof.Proofs

/-! SUPPORT. The generic staging operations (spec/40_buffer_ops.md R88 to R91): refused as a whole, or every target port written
and the rest of the block kept. -/

namespace Sys2Proof.Proofs

open Sys2Proof.Machine

/-! ### The precondition (R91) -/

theorem staging_of_fatal {s : State} (hf : s.sys.fatal = true) (p : PortArg) (k : Host.Outcome State Fault Refusal) :
    staging p s k = .next (s.answer 1 .none) := by
  rw [staging, hf]
  rfl

theorem staging_of_busy {p : PortArg} {s : State} (hrun : s.sys.fatal = false)
    (hbusy : ∃ q ∈ targets p, (s.txPort q).isTransmitting = true) (k : Host.Outcome State Fault Refusal) :
    staging p s k = .next (s.answer 4 .none) := by
  have hidle : targetsIdle p s = false := by
    rw [← Bool.not_eq_true, targetsIdle_iff]
    obtain ⟨q, hq, ht⟩ := hbusy
    exact fun h => absurd ht (by simp [h q hq])
  rw [staging, hrun, hidle]
  rfl

/-- A staging operation that is not refused: every target port is written by `f`, the outputs say done, and nothing else
changes. -/
theorem staging_updateTargets {p : PortArg} {s : State} (f : TxPort → TxPort) (hrun : s.sys.fatal = false)
    (hidle : ∀ q ∈ targets p, (s.txPort q).isTransmitting = false) :
    ∃ t, staging p s (finish .none (updateTargets p f s)) = .next t ∧ t.rx = s.rx ∧ t.cfg = s.cfg ∧ t.sys = s.sys ∧
      t.env = s.env ∧ t.out = { status := 0, rdata := .none, rxDone := s.out.rxDone } ∧
      (∀ q, q ∉ targets p → t.txPort q = s.txPort q) ∧ ∀ q, q ∈ targets p → t.txPort q = f (s.txPort q) := by
  obtain ⟨hrx, hcfg, hsys, hout, henv⟩ := updateTargets_frame p f s
  refine ⟨(updateTargets p f s).answer 0 .none, staging_of_ok _ hrun hidle, hrx, hcfg, hsys, henv, ?_,
    fun q hq => ?_, fun q hq => ?_⟩
  · rw [State.answer, hout]
  · rw [answer_txPort, txPort_updateTargets, if_neg hq]
  · rw [answer_txPort, txPort_updateTargets, if_pos hq]

/-! ### TX.CLEAR (R88) -/

theorem exec_txClear (p : PortArg) (s : State) :
    exec (.txClear p) s = staging p s (finish .none (updateTargets p clearPort s)) := rfl

/-- Settles O22: the common staging result with `clearPort` on every target, which leaves a cleared buffer. -/
theorem txClearResult : Obligations.TxClearResult := by
  intro s p
  rw [exec_txClear]
  refine ⟨fun hf => staging_of_fatal hf p _, fun hrun hbusy => staging_of_busy hrun hbusy _, fun hrun hidle => ?_⟩
  obtain ⟨t, hnext, hrx, hcfg, hsys, henv, hout, hother, htarget⟩ := staging_updateTargets clearPort hrun hidle
  refine ⟨t, hnext, hrx, hcfg, hsys, henv, hout, hother, fun q hq => ?_⟩
  exact ⟨bufClear (s.txPort q).buf, rfl, rfl, fun n _ => bufGet_bufClear _ n, htarget q hq⟩

/-! ### TX.PUT (R89) -/

theorem exec_txPut (p : PortArg) (v w : U16) (s : State) :
    exec (.txPut p v w) s =
      staging p s (require (putWidthOk w) .badOperand s (finish .none (updateTargets p (putPort v w.toNat) s))) := rfl

theorem putWidthOk_iff {w : U16} : putWidthOk w = true ↔ 1 ≤ w.toNat ∧ w.toNat ≤ 16 := by simp [putWidthOk]

/-- The width is checked last (R89). -/
theorem exec_txPut_of_badWidth {p : PortArg} {v w : U16} {s : State} (hrun : s.sys.fatal = false)
    (hidle : ∀ q ∈ targets p, (s.txPort q).isTransmitting = false) (hw : ¬ (1 ≤ w.toNat ∧ w.toNat ≤ 16)) :
    exec (.txPut p v w) s = .next (s.answer 7 .none) := by
  have hwidth : putWidthOk w = false := by rwa [← Bool.not_eq_true, putWidthOk_iff]
  rw [exec_txPut, staging_of_ok _ hrun hidle, hwidth]
  rfl

/-- Settles O23: the common staging result with `putPort` on every target, whose buffer is what `put_field` leaves. -/
theorem txPutResult : Obligations.TxPutResult := by
  intro s p v w
  refine ⟨fun hf => staging_of_fatal hf p _, fun hrun hbusy => staging_of_busy hrun hbusy _,
    fun hrun hidle => ⟨exec_txPut_of_badWidth hrun hidle, fun hw => ?_⟩⟩
  rw [exec_txPut, putWidthOk_iff.mpr hw, require_true]
  obtain ⟨t, hnext, hrx, hcfg, hsys, henv, hout, hother, htarget⟩ :=
    staging_updateTargets (putPort v w.toNat) hrun hidle
  refine ⟨t, hnext, hrx, hcfg, hsys, henv, hout, hother, fun q hq => ?_⟩
  exact ⟨putField (s.txPort q).buf v w.toNat, htarget q hq, putField_pos .., putField_overflowed ..,
    fun n hn => bufGet_putField _ v w.toNat hn⟩

/-! ### TX.SEAL (R90) -/

theorem exec_txSeal (p : PortArg) (s : State) :
    exec (.txSeal p) s = staging p s (finish .none (updateTargets p sealPort s)) := rfl

/-- The bit TX.SEAL writes is the exclusive or of the bits below the cursor (R87, R90). -/
theorem bufGet_bufPut_parityBit (b : PortBuffer) {n : Nat} (hn : n < Config.bufBits) :
    bufGet (bufPut b (parityBit b b.pos.val)) n =
      if n = b.pos.val then (bitsOf b n).foldl xor false else bufGet b n := by
  rw [bufGet_bufPut b _ hn, parityBit_eq, parityOf_eq]
  split
  · subst n; rfl
  · rfl

/-- Settles O24: the common staging result with `sealPort` on every target, which puts one bit, the parity. -/
theorem txSealResult : Obligations.TxSealResult := by
  intro s p
  rw [exec_txSeal]
  refine ⟨fun hf => staging_of_fatal hf p _, fun hrun hbusy => staging_of_busy hrun hbusy _, fun hrun hidle => ?_⟩
  obtain ⟨t, hnext, hrx, hcfg, hsys, henv, hout, hother, htarget⟩ := staging_updateTargets sealPort hrun hidle
  refine ⟨t, hnext, hrx, hcfg, hsys, henv, hout, hother, fun q hq => ?_⟩
  exact ⟨bufPut (s.txPort q).buf (parityBit (s.txPort q).buf (s.txPort q).buf.pos.val), htarget q hq,
    bufPut_pos .., bufPut_overflowed .., fun n hn => bufGet_bufPut_parityBit _ hn⟩

end Sys2Proof.Proofs

/-! SUPPORT. The flag bytes of the read-out records, bit by bit (spec/30_encoding.md R54, R79), and the operations that answer the
records (spec/42_decoder.md R109; spec/43_encoder_tx.md R118; spec/45_config_system.md R145). -/

namespace Sys2Proof.Proofs

open Sys2Proof.Machine

/-! ### One flag and one 2-bit field of a byte -/

theorem getLsbD_flagAt (k : Nat) (b : Bool) {j : Nat} (hj : j < 8) :
    (flagAt k b).getLsbD j = (b && decide (j = k)) := by
  have hone : (1#8 <<< k).getLsbD j = decide (j = k) := by
    rw [BitVec.getLsbD_shiftLeft, BitVec.getLsbD_one]
    grind
  cases b
  · simp [flagAt]
  · simp [flagAt, hone]

/-- A 2-bit field shifted up to bit `k` reads as that field at bits `k` and `k + 1`, and as 0 elsewhere. -/
theorem getLsbD_fieldAt (k : Nat) (x : BitVec 2) {j : Nat} (hj : j < 8) :
    (x.setWidth 8 <<< k).getLsbD j = (decide (k ≤ j) && x.getLsbD (j - k)) := by
  rw [BitVec.getLsbD_shiftLeft, BitVec.getLsbD_setWidth]
  grind

/-- A byte's 2-bit field is known by its two bits. -/
theorem extractLsb'_two_eq {f : U8} {k : Nat} {x : BitVec 2} (hlo : f.getLsbD k = x.getLsbD 0)
    (hhi : f.getLsbD (k + 1) = x.getLsbD 1) : f.extractLsb' k 2 = x := by
  apply BitVec.eq_of_getLsbD_eq
  intro i hi
  rw [BitVec.getLsbD_extractLsb', decide_eq_true hi, Bool.true_and]
  match i, hi with
  | 0, _ => exact hlo
  | 1, _ => exact hhi

/-! ### The three flag bytes (R79) -/

theorem getLsbD_sysFlags (s : State) {j : Nat} (hj : j < 8) :
    (sysFlags s).getLsbD j =
      (s.sys.fatal && decide (j = 0) || decide (1 ≤ j) && s.sys.faultCause.getLsbD (j - 1) ||
        decide (3 ≤ j) && s.sys.faultPort.getLsbD (j - 3) || s.sys.irqEn && decide (j = 5) ||
        s.cfg.delayUpdateable && decide (j = 6) || s.cfg.shiftUpdateable && decide (j = 7)) := by
  simp only [sysFlags, BitVec.getLsbD_or, getLsbD_flagAt _ _ hj, getLsbD_fieldAt _ _ hj]

theorem getLsbD_rxFlags (r : RxPort) {j : Nat} (hj : j < 8) :
    (rxFlags r).getLsbD j =
      (r.isDataBuffered && decide (j = 0) || r.buf.overflowed && decide (j = 1) ||
        r.ring.overflowed && decide (j = 2) || decide (3 ≤ j) && (decStateCode r.dec.state).getLsbD (j - 3)) := by
  simp only [rxFlags, BitVec.getLsbD_or, getLsbD_flagAt _ _ hj, getLsbD_fieldAt _ _ hj]

theorem getLsbD_txFlags (x : TxPort) {j : Nat} (hj : j < 8) :
    (txFlags x).getLsbD j =
      (x.isTransmitting && decide (j = 0) || x.buf.overflowed && decide (j = 1) || x.secondHalf && decide (j = 2) ||
        x.line && decide (j = 3)) := by
  simp only [txFlags, BitVec.getLsbD_or, getLsbD_flagAt _ _ hj]

theorem sysFlags_fields (s : State) :
    (sysFlags s).getLsbD 0 = s.sys.fatal ∧ (sysFlags s).extractLsb' 1 2 = s.sys.faultCause ∧
      (sysFlags s).extractLsb' 3 2 = s.sys.faultPort ∧ (sysFlags s).getLsbD 5 = s.sys.irqEn ∧
      (sysFlags s).getLsbD 6 = s.cfg.delayUpdateable ∧ (sysFlags s).getLsbD 7 = s.cfg.shiftUpdateable := by
  refine ⟨?_, extractLsb'_two_eq ?_ ?_, extractLsb'_two_eq ?_ ?_, ?_, ?_, ?_⟩ <;>
    rw [getLsbD_sysFlags s (by decide)] <;> simp

theorem rxFlags_fields (r : RxPort) :
    (rxFlags r).getLsbD 0 = r.isDataBuffered ∧ (rxFlags r).getLsbD 1 = r.buf.overflowed ∧
      (rxFlags r).getLsbD 2 = r.ring.overflowed ∧ (rxFlags r).extractLsb' 3 2 = decStateCode r.dec.state := by
  refine ⟨?_, ?_, ?_, extractLsb'_two_eq ?_ ?_⟩ <;> rw [getLsbD_rxFlags r (by decide)] <;> simp

theorem txFlags_fields (x : TxPort) :
    (txFlags x).getLsbD 0 = x.isTransmitting ∧ (txFlags x).getLsbD 1 = x.buf.overflowed ∧
      (txFlags x).getLsbD 2 = x.secondHalf ∧ (txFlags x).getLsbD 3 = x.line := by
  refine ⟨?_, ?_, ?_, ?_⟩ <;> rw [getLsbD_txFlags x (by decide)] <;> simp

/-! ### The read-outs -/

theorem exec_sysStatus (s : State) : exec .sysStatus s = .next (s.answer 0 (sysRecord s)) := rfl

theorem exec_rxRead (p : PortArg) (s : State) :
    exec (.rxRead p) s = onPhysical p s fun q => finish (rxRecord (s.rxPort q)) s := rfl

theorem exec_txStatus (p : PortArg) (s : State) :
    exec (.txStatus p) s = onPhysical p s fun q => finish (txRecord (s.txPort q)) s := rfl

/-- Settles O16: each operation answers the record of its row, whose flag byte is read field by field, and `SIM` names no
physical port. -/
theorem readOutRecords : Obligations.ReadOutRecords := by
  intro s
  refine ⟨⟨sysFlags s, exec_sysStatus s, sysFlags_fields s⟩, fun q => ⟨rxFlags (s.rxPort q), ?_, rxFlags_fields _⟩,
    fun q => ⟨txFlags (s.txPort q), ?_, txFlags_fields _⟩, ?_, ?_⟩
  · rw [exec_rxRead, onPhysical_argOf]; rfl
  · rw [exec_txStatus, onPhysical_argOf]; rfl
  · rw [exec_rxRead, onPhysical_sim]
  · rw [exec_txStatus, onPhysical_sim]

end Sys2Proof.Proofs

/-! SUPPORT. The Manchester decoder (spec/42_decoder.md): the interval classes, the micro-step of each state of the decoder as an
equation per row of R103 to R106, and from these RX.STEP, RX.CLEAR and the moves of `dec.state` (R108, R112). -/

namespace Sys2Proof.Proofs

open Sys2Proof.Machine

/-! ### The interval classes (R100) -/

section Intervals

variable {shortThr longThr delta : Ts}

theorem classify_eq_short (h : delta.toNat ≤ shortThr.toNat) : classify shortThr longThr delta = .short :=
  if_pos h

theorem classify_eq_long (hshort : shortThr.toNat < delta.toNat) (hlong : delta.toNat ≤ longThr.toNat) :
    classify shortThr longThr delta = .long :=
  (if_neg hshort.not_ge).trans (if_pos hlong)

theorem classify_eq_overdue (hshort : shortThr.toNat < delta.toNat) (hlong : longThr.toNat < delta.toNat) :
    classify shortThr longThr delta = .overdue :=
  (if_neg hshort.not_ge).trans (if_neg hlong.not_ge)

end Intervals

/-- Settles O26: the two comparisons of `classify` are those of the numbers. -/
theorem intervalBoundaries : Obligations.IntervalBoundaries :=
  fun _ _ _ => ⟨classify_eq_short, classify_eq_long, classify_eq_overdue⟩

/-! ### The fatal fault taken by a decoder (R149) -/

/-- The fault and a receive port are written independently of each other. -/
theorem setRx_raiseFatal (c : Cause) (p q : Port) (r : RxPort) (s : State) :
    (raiseFatal c p s).setRx q r = raiseFatal c p (s.setRx q r) := rfl

/-- The first fault keeps its cause and its port. -/
theorem raiseFatal_of_running (c : Cause) (p : Port) {s : State} (hrun : s.sys.fatal = false) :
    raiseFatal c p s =
      { s with sys := { s.sys with fatal := true, faultCause := c.code, faultPort := Port.number p } } := by
  simp [raiseFatal, hrun]

/-! ### A bit stored, a snapshot consumed (R101, R104) -/

theorem storeBit_of_room {q : Port} {s : State} (v : Bool) (h : (s.rxPort q).buf.pos.val < Config.bufBits) :
    storeBit q v s = s.setRx q { s.rxPort q with buf := bufPut (s.rxPort q).buf v } :=
  if_pos (bufPutStored_eq_true_iff.mpr h)

theorem storeBit_of_full {q : Port} {s : State} (v : Bool) (h : (s.rxPort q).buf.pos.val = Config.bufBits) :
    storeBit q v s =
      raiseFatal .bitbufOverflow q
        (s.setRx q { s.rxPort q with buf := { (s.rxPort q).buf with overflowed := true } }) := by
  have hstored : ¬ bufPutStored (s.rxPort q).buf = true := by
    rw [bufPutStored_eq_true_iff]
    exact h.not_lt
  rw [← bufPut_of_full _ v h]
  exact if_neg hstored

theorem getLsbD_zero_eq_true_iff {w : Nat} (x : BitVec w) : x.getLsbD 0 = true ↔ x.toNat % 2 = 1 := by
  rw [BitVec.getLsbD, Nat.testBit_zero, decide_eq_true_iff]

/-- Port `q` after it consumed the snapshot `sn` and advanced by `adv`, with `buf` for its buffer (R104). -/
def consumedInto (q : Port) (adv : Nat) (sn : Snapshot) (buf : PortBuffer) (s : State) : State :=
  s.setRx q
    { advance adv (s.rxPort q) with
      dec := { (advance adv (s.rxPort q)).dec with refTs := sn.ts }
      buf := buf }

section Consume

variable {q : Port} {adv : Nat} {s : State} (sn : Snapshot)

theorem consume_of_even (hphase : ¬ (advance adv (s.rxPort q)).dec.phase.toNat % 2 = 1) :
    consume q adv sn s = consumedInto q adv sn (s.rxPort q).buf s := by
  rw [← getLsbD_zero_eq_true_iff] at hphase
  simp only [consume, if_neg hphase, setRef, rxPort_setRx_self, setRx_setRx]
  rfl

theorem consume_of_odd_of_room (hphase : (advance adv (s.rxPort q)).dec.phase.toNat % 2 = 1)
    (hroom : (s.rxPort q).buf.pos.val < Config.bufBits) :
    consume q adv sn s = consumedInto q adv sn (bufPut (s.rxPort q).buf sn.rising) s := by
  rw [← getLsbD_zero_eq_true_iff] at hphase
  have hroom' : ((s.setRx q (advance adv (s.rxPort q))).rxPort q).buf.pos.val < Config.bufBits := by
    rwa [rxPort_setRx_self]
  simp only [consume, if_pos hphase, storeBit_of_room _ hroom', setRef, rxPort_setRx_self, setRx_setRx]
  rfl

theorem consume_of_odd_of_full (hphase : (advance adv (s.rxPort q)).dec.phase.toNat % 2 = 1)
    (hfull : (s.rxPort q).buf.pos.val = Config.bufBits) :
    consume q adv sn s =
      raiseFatal .bitbufOverflow q (consumedInto q adv sn { (s.rxPort q).buf with overflowed := true } s) := by
  rw [← getLsbD_zero_eq_true_iff] at hphase
  have hfull' : ((s.setRx q (advance adv (s.rxPort q))).rxPort q).buf.pos.val = Config.bufBits := by
    rwa [rxPort_setRx_self]
  simp only [consume, if_pos hphase, storeBit_of_full _ hfull', setRef, raiseFatal_rxPort, rxPort_setRx_self,
    setRx_raiseFatal, setRx_setRx]
  rfl

end Consume

/-! ### The micro-step, state by state (R102 to R106) -/

theorem ringEmpty_eq_false_iff {r : Ring} : ringEmpty r = false ↔ r.start ≠ r.stop := by
  rw [← Bool.not_eq_true, ringEmpty_iff]

section Steps

variable {q : Port} {s : State}

theorem stepStart_of_hold (h : (s.rxPort q).isDataBuffered = true ∨ (s.rxPort q).ring.start = (s.rxPort q).ring.stop) :
    stepStart q s = (s, .yield) := by
  rcases h with hheld | hempty
  · exact if_pos hheld
  · simp [stepStart, (ringEmpty_iff _).mpr hempty]

theorem stepStart_of_rising (hfree : (s.rxPort q).isDataBuffered = false)
    (hne : (s.rxPort q).ring.start ≠ (s.rxPort q).ring.stop) (hup : (ringPeek (s.rxPort q).ring).rising = true) :
    stepStart q s = (s.setRx q { s.rxPort q with ring := ringDequeue (s.rxPort q).ring }, .again) := by
  simp [stepStart, hfree, ringEmpty_eq_false_iff.mpr hne, hup]

theorem stepStart_of_falling (hfree : (s.rxPort q).isDataBuffered = false)
    (hne : (s.rxPort q).ring.start ≠ (s.rxPort q).ring.stop) (hdown : (ringPeek (s.rxPort q).ring).rising = false) :
    stepStart q s =
      (s.setRx q
        { s.rxPort q with
          ring := ringDequeue (s.rxPort q).ring
          dec := { state := .decoding, phase := 0, refTs := (ringPeek (s.rxPort q).ring).ts, halfCycles := 0 }
          buf := ptrStart (s.rxPort q).buf }, .again) := by
  simp [stepStart, hfree, ringEmpty_eq_false_iff.mpr hne, hdown]

/-- The interval that RX.STEP classifies: from the reference to the oldest snapshot (R104). -/
def queuedInterval (q : Port) (s : State) : Interval :=
  classify s.cfg.shortThr s.cfg.longThr (sub16 (ringPeek (s.rxPort q).ring).ts (s.rxPort q).dec.refTs)

theorem stepQueued_of_overdue (h : queuedInterval q s = .overdue) :
    stepQueued q s = (setDecState q .postTimeoutProcess s, .again) := by
  rw [queuedInterval] at h
  simp only [stepQueued, h]

theorem stepQueued_of_short (h : queuedInterval q s = .short) :
    stepQueued q s = (consume q 1 (ringPeek (s.rxPort q).ring) s, .again) := by
  rw [queuedInterval] at h
  simp only [stepQueued, h]

theorem stepQueued_of_long (h : queuedInterval q s = .long) :
    stepQueued q s = (consume q 2 (ringPeek (s.rxPort q).ring) s, .again) := by
  rw [queuedInterval] at h
  simp only [stepQueued, h]

theorem stepTimeout_of_elapsed {now : Ts}
    (h : 2 * s.cfg.clockDelay.toNat ≤ (sub16 now (s.rxPort q).dec.refTs).toNat) :
    stepTimeout q now s = (setDecState q .postTimeoutProcess s, .again) := if_pos h

theorem stepTimeout_of_waiting {now : Ts}
    (h : ¬ 2 * s.cfg.clockDelay.toNat ≤ (sub16 now (s.rxPort q).dec.refTs).toNat) :
    stepTimeout q now s = (s, .yield) := if_neg h

variable (now : Ts) (hrun : s.sys.fatal = false)
include hrun

theorem microStep_start (hdec : (s.rxPort q).dec.state = .start) : microStep q now s = stepStart q s := by
  simp [microStep, hrun, hdec]

theorem microStep_queued (hdec : (s.rxPort q).dec.state = .decoding)
    (hne : (s.rxPort q).ring.start ≠ (s.rxPort q).ring.stop) : microStep q now s = stepQueued q s := by
  simp [microStep, hrun, hdec, ringEmpty_eq_false_iff.mpr hne]

theorem microStep_timeout (hdec : (s.rxPort q).dec.state = .decoding)
    (hempty : (s.rxPort q).ring.start = (s.rxPort q).ring.stop) : microStep q now s = stepTimeout q now s := by
  simp [microStep, hrun, hdec, (ringEmpty_iff _).mpr hempty]

theorem microStep_complete (hdec : (s.rxPort q).dec.state = .postTimeoutProcess) :
    microStep q now s = stepComplete q s := by
  simp [microStep, hrun, hdec]

end Steps

/-! ### RX.STEP -/

theorem exec_rxStep (q : Port) (now : Ts) (s : State) :
    exec (.rxStep (argOf q) now) s =
      .next ((microStep q now s).1.answer 0 (.stepped (microStep q now s).2)) := onPhysical_argOf ..

/-- Settles O28: the three rows of `stepStart`. -/
theorem rxStepInStart : Obligations.RxStepInStart := by
  intro s q now hrun hdec
  rw [exec_rxStep, microStep_start now hrun hdec]
  refine ⟨fun hhold => ?_, fun hfree hne hup => ?_, fun hfree hne hdown => ?_⟩
  · rw [stepStart_of_hold hhold]
  · rw [stepStart_of_rising hfree hne hup]; rfl
  · rw [stepStart_of_falling hfree hne hdown]; rfl

/-- Settles O29: the interval is classified, and a consumed snapshot ends in one of the three cases of `consume`. -/
theorem rxStepWithSnapshotQueued : Obligations.RxStepWithSnapshotQueued := by
  intro s q now hrun hdec hne r sn delta phase consumed after
  have hconsumed (adv : Nat) (buf : PortBuffer) : consumedInto q adv sn buf s = consumed adv buf := by
    simp only [consumed, consumedInto, advance, hdec]
    rfl
  have hafter (adv : Nat) : consume q adv sn s = after adv := by
    simp only [after]
    split
    next hodd =>
      split
      next hfull =>
        rw [consume_of_odd_of_full sn hodd hfull, hconsumed]
        exact raiseFatal_of_running .bitbufOverflow q hrun
      next hroom => rw [consume_of_odd_of_room sn hodd ((pos_le r.buf).lt_of_ne hroom), hconsumed]
    next heven => rw [consume_of_even sn heven, hconsumed]
  rw [exec_rxStep, microStep_queued now hrun hdec hne]
  refine ⟨fun hshort hlong => ?_, fun hshort => ?_, fun hshort hlong => ?_⟩
  · rw [stepQueued_of_overdue (classify_eq_overdue hshort hlong)]; rfl
  · rw [stepQueued_of_short (classify_eq_short hshort), ← hafter]; rfl
  · rw [stepQueued_of_long (classify_eq_long hshort hlong), ← hafter]; rfl

/-- Settles O30: the timeout has elapsed or not. -/
theorem rxStepTimeoutCheck : Obligations.RxStepTimeoutCheck := by
  intro s q now hrun hdec hempty r
  rw [exec_rxStep, microStep_timeout now hrun hdec hempty]
  split
  next helapsed => rw [stepTimeout_of_elapsed helapsed]; rfl
  next hwaiting => rw [stepTimeout_of_waiting hwaiting]

/-- Settles O31: the completing step writes its record over the outputs and shows the strobe. -/
theorem rxStepCompletes : Obligations.RxStepCompletes := by
  intro s q now hrun hdec
  rw [exec_rxStep, microStep_complete now hrun hdec]
  rfl

/-! ### RX.CLEAR (R108) -/

theorem exec_rxClear (p : PortArg) (s : State) :
    exec (.rxClear p) s =
      onPhysical p s fun q =>
        require (!s.sys.fatal) .halted s <| require (s.rxPort q).isDataBuffered .notBuffered s <|
          finish .none (s.setRx q { s.rxPort q with buf := bufClear (s.rxPort q).buf, isDataBuffered := false }) := rfl

/-- Settles O33: the refusals in their order, and a done call that leaves a cleared buffer. -/
theorem rxClearResult : Obligations.RxClearResult := by
  intro s q
  refine ⟨fun hf => ?_, fun hrun hfree => ?_, fun hrun hheld => ?_, ?_⟩
  · rw [exec_rxClear, onPhysical_argOf, hf]; rfl
  · rw [exec_rxClear, onPhysical_argOf, hrun, hfree]; rfl
  · refine ⟨bufClear (s.rxPort q).buf, rfl, rfl, fun n _ => bufGet_bufClear _ n, ?_⟩
    rw [exec_rxClear, onPhysical_argOf, hrun, hheld]; rfl
  · rw [exec_rxClear, onPhysical_sim]

/-! ### The moves of `dec.state` (R112) -/

section DecState

variable {q : Port} {s : State}

@[simp] theorem setDecState_state (q : Port) (st : DecState) (s : State) :
    ((setDecState q st s).rxPort q).dec.state = st := by
  rw [setDecState, rxPort_setRx_self]

@[simp] theorem consume_state (q : Port) (adv : Nat) (sn : Snapshot) (s : State) :
    ((consume q adv sn s).rxPort q).dec.state = (s.rxPort q).dec.state := by
  have hinto (buf : PortBuffer) :
      ((consumedInto q adv sn buf s).rxPort q).dec.state = (s.rxPort q).dec.state := by
    rw [consumedInto, rxPort_setRx_self]; rfl
  by_cases hodd : (advance adv (s.rxPort q)).dec.phase.toNat % 2 = 1
  · rcases (pos_le (s.rxPort q).buf).lt_or_eq with hroom | hfull
    · rw [consume_of_odd_of_room sn hodd hroom, hinto]
    · rw [consume_of_odd_of_full sn hodd hfull, raiseFatal_rxPort, hinto]
  · rw [consume_of_even sn hodd, hinto]

theorem stepStart_state (hdec : (s.rxPort q).dec.state = .start) :
    ((stepStart q s).1.rxPort q).dec.state =
      if (s.rxPort q).isDataBuffered = false ∧ (s.rxPort q).ring.start ≠ (s.rxPort q).ring.stop ∧
          (ringPeek (s.rxPort q).ring).rising = false then .decoding
      else .start := by
  split
  next h =>
    obtain ⟨hfree, hne, hdown⟩ := h
    rw [stepStart_of_falling hfree hne hdown, rxPort_setRx_self]
  next h =>
    by_cases hhold : (s.rxPort q).isDataBuffered = true ∨ (s.rxPort q).ring.start = (s.rxPort q).ring.stop
    · rw [stepStart_of_hold hhold, hdec]
    · obtain ⟨hheld, hne⟩ := not_or.mp hhold
      have hfree := Bool.eq_false_of_not_eq_true hheld
      have hup : (ringPeek (s.rxPort q).ring).rising = true := by
        rw [← Bool.not_eq_false]
        exact fun hdown => h ⟨hfree, hne, hdown⟩
      rw [stepStart_of_rising hfree hne hup, rxPort_setRx_self, hdec]

theorem stepQueued_state (hdec : (s.rxPort q).dec.state = .decoding) :
    ((stepQueued q s).1.rxPort q).dec.state =
      if queuedInterval q s = .overdue then .postTimeoutProcess else .decoding := by
  cases h : queuedInterval q s with
  | overdue => rw [stepQueued_of_overdue h, setDecState_state, if_pos rfl]
  | short => rw [stepQueued_of_short h, consume_state, hdec, if_neg (by decide)]
  | long => rw [stepQueued_of_long h, consume_state, hdec, if_neg (by decide)]

theorem stepTimeout_state (now : Ts) (hdec : (s.rxPort q).dec.state = .decoding) :
    ((stepTimeout q now s).1.rxPort q).dec.state =
      if 2 * s.cfg.clockDelay.toNat ≤ (sub16 now (s.rxPort q).dec.refTs).toNat then .postTimeoutProcess
      else .decoding := by
  split
  next h => rw [stepTimeout_of_elapsed h, setDecState_state]
  next h => rw [stepTimeout_of_waiting h, hdec]

theorem stepComplete_state (q : Port) (s : State) : ((stepComplete q s).1.rxPort q).dec.state = .start :=
  congrArg (·.dec.state) (rxPort_setRx_self s q _)

end DecState

/-- The decoder's moves in DECODING: one condition for the overdue snapshot and the timeout (R104, R105). -/
theorem microStep_state_of_decoding {q : Port} {s : State} (now : Ts) (hrun : s.sys.fatal = false)
    (hdec : (s.rxPort q).dec.state = .decoding) :
    ((microStep q now s).1.rxPort q).dec.state =
      if (s.rxPort q).ring.start ≠ (s.rxPort q).ring.stop ∧ queuedInterval q s = .overdue ∨
          (s.rxPort q).ring.start = (s.rxPort q).ring.stop ∧
            2 * s.cfg.clockDelay.toNat ≤ (sub16 now (s.rxPort q).dec.refTs).toNat then .postTimeoutProcess
      else .decoding := by
  by_cases hempty : (s.rxPort q).ring.start = (s.rxPort q).ring.stop
  · rw [microStep_timeout now hrun hdec hempty, stepTimeout_state now hdec]
    simp [hempty]
  · rw [microStep_queued now hrun hdec hempty, stepQueued_state hdec]
    simp [hempty]

/-- Settles O34: RX.STEP moves the state as the step of its state does, and freezes it while halted; reset sets every port;
for any other operation a changed decoder would make it one that decodes, by the writers of `RxWrite`. -/
theorem decoderStateMoves : Obligations.DecoderStateMoves := by
  intro s q
  refine ⟨fun now t hnext => ?step, fun t hnext => ?reset, fun i t hnext hi hother => ?other⟩
  case step =>
    rw [exec_rxStep] at hnext
    obtain rfl := Host.Outcome.next.inj hnext
    dsimp only
    rw [answer_rxPort]
    cases hf : s.sys.fatal with
    | true => rw [microStep_of_fatal q now hf]; cases hdec : (s.rxPort q).dec.state <;> simp
    | false =>
      cases hdec : (s.rxPort q).dec.state with
      | start =>
        rw [microStep_start now hf hdec, stepStart_state hdec]
        exact if_congr (and_iff_right rfl).symm rfl rfl
      | decoding =>
        rw [microStep_state_of_decoding now hf hdec]
        exact if_congr (and_iff_right rfl).symm rfl rfl
      | postTimeoutProcess => rw [microStep_complete now hf hdec, stepComplete_state]; rfl
  case reset =>
    obtain rfl := Host.Outcome.next.inj hnext
    exact congrArg (·.dec.state) (rxPort_reset q)
  case other =>
    by_contra hmoved
    exact hother (((ownedOutcome_exec hi s t hnext).rx q).decodes_of_dec_ne fun h => hmoved (by rw [h]))

end Sys2Proof.Proofs

/-! SUPPORT. The Manchester encoder (spec/43_encoder_tx.md): the tick as an equation per row of the half step (R116, R117), and
TX.ENABLE as a staging precondition with two checks of its own (R115). -/

namespace Sys2Proof.Proofs

open Sys2Proof.Machine

/-! ### The half step of one port (R116) -/

section HalfStep

variable {x : TxPort}

theorem txHalfStep_of_finished (hfirst : x.secondHalf = false) (hend : x.buf.pos.val = x.dataEnd.val) :
    txHalfStep x = some { x with line := true, isTransmitting := false } := by
  simp [txHalfStep, hfirst, hend]

theorem txHalfStep_of_firstHalf (hfirst : x.secondHalf = false) (hdata : x.buf.pos.val ≠ x.dataEnd.val)
    (hroom : x.buf.pos.val < Config.bufBits) :
    txHalfStep x = some { x with line := !bufGet x.buf x.buf.pos.val, secondHalf := true } := by
  simp [txHalfStep, hfirst, hdata, hroom.ne]

theorem txHalfStep_of_secondHalf (hsecond : x.secondHalf = true) (hroom : x.buf.pos.val < Config.bufBits) :
    txHalfStep x =
      some { x with line := bufGet x.buf x.buf.pos.val, buf := ptrInc x.buf, secondHalf := false } := by
  simp [txHalfStep, hsecond, hroom.ne]

/-- A half step stops only where it would read position 72 (log entry 10). -/
theorem txHalfStep_eq_none_iff :
    txHalfStep x = none ↔
      x.buf.pos.val = Config.bufBits ∧ ¬ (x.secondHalf = false ∧ x.buf.pos.val = x.dataEnd.val) := by
  rcases txHalfStep_cases x with ⟨hfirst, hend, e⟩ | ⟨hdata, hfull, e⟩ | ⟨-, hroom, e⟩ | ⟨-, -, hroom, e⟩ <;> rw [e]
  · simp [hfirst, hend]
  · exact iff_of_true rfl ⟨hfull, hdata⟩
  · exact iff_of_false (Option.some_ne_none _) fun h => hroom.ne h.1
  · exact iff_of_false (Option.some_ne_none _) fun h => hroom.ne h.1

end HalfStep

/-! ### TX.TICK (R117) -/

theorem tickPort_of_idle {x : TxPort} (hidle : x.isTransmitting = false) : tickPort x = some x := by
  simp [tickPort, hidle]

theorem tickPort_of_transmitting {x : TxPort} (hbusy : x.isTransmitting = true) : tickPort x = txHalfStep x :=
  if_pos hbusy

theorem exec_txTick (s : State) : exec .txTick s = execTxTick s := rfl

theorem exec_txTick_of_fatal {s : State} (hf : s.sys.fatal = true) : exec .txTick s = .next s := by
  rw [exec_txTick, execTxTick, if_pos hf]

/-- A tick of a running block in which every transmitting port can make its half step. -/
theorem exec_txTick_of_running {s : State} (hrun : s.sys.fatal = false)
    (hsteps : ∀ q, (s.txPort q).isTransmitting = true → txHalfStep (s.txPort q) ≠ none) :
    ∃ x : PerPort TxPort, (∀ q, tickPort (s.txPort q) = some (x.get q)) ∧
      exec .txTick s =
        .next { s with tx := x, sys := { s.sys with txCompare := add16 s.sys.txCompare s.cfg.halfDelay } } := by
  rcases execTxTick_cases s with ⟨hf, -⟩ | ⟨-, q, hbusy, hnone, -⟩ | ⟨-, x, hx, e⟩
  · exact absurd hf (by simp [hrun])
  · exact absurd hnone (hsteps q hbusy)
  · exact ⟨x, hx, e⟩

/-- Settles O37: the premise excludes the one half step that stops, and each port then makes the half step of its row. -/
theorem txTickResult : Obligations.TxTickResult := by
  intro s
  refine ⟨exec_txTick_of_fatal, fun hrun hinside => ?_⟩
  have hsteps : ∀ q, (s.txPort q).isTransmitting = true → txHalfStep (s.txPort q) ≠ none := by
    intro q hbusy hnone
    obtain ⟨hfull, hunfinished⟩ := txHalfStep_eq_none_iff.mp hnone
    exact (hinside q hbusy).elim hfull.not_lt hunfinished
  obtain ⟨x, hx, hnext⟩ := exec_txTick_of_running hrun hsteps
  refine ⟨_, hnext, rfl, rfl, rfl, rfl, rfl, fun q => ⟨fun hidle => ?idle, fun hbusy hfirst => ?first,
    fun hbusy hsecond => ?second⟩⟩
  case idle => exact Option.some.inj ((hx q).symm.trans (tickPort_of_idle hidle))
  case first =>
    have hstep := (hx q).symm.trans (tickPort_of_transmitting hbusy)
    split
    next hend => exact Option.some.inj (hstep.trans (txHalfStep_of_finished hfirst hend))
    next hdata =>
      have hroom := (hinside q hbusy).resolve_right fun h => hdata h.2
      exact Option.some.inj (hstep.trans (txHalfStep_of_firstHalf hfirst hdata hroom))
  case second =>
    have hstep := (hx q).symm.trans (tickPort_of_transmitting hbusy)
    have hroom := (hinside q hbusy).resolve_right fun h => absurd h.1 (by simp [hsecond])
    exact ⟨ptrInc (s.txPort q).buf, ptrInc_bytes _, ptrInc_overflowed _, ptrInc_pos_of_lt _ hroom,
      Option.some.inj (hstep.trans (txHalfStep_of_secondHalf hsecond hroom))⟩

/-! ### TX.ENABLE (R115) -/

/-- Every target port has data staged. -/
def targetsStaged (p : PortArg) (s : State) : Bool := (targets p).all fun q => 0 < (s.txPort q).dataEnd.val

/-- No target port's buffer overflowed. -/
def targetsFit (p : PortArg) (s : State) : Bool := (targets p).all fun q => !(s.txPort q).buf.overflowed

/-- The first two checks of TX.ENABLE are those of a staging operation (R91). -/
theorem exec_txEnable (p : PortArg) (now : Ts) (s : State) :
    exec (.txEnable p now) s =
      staging p s (require (targetsStaged p s) .notStaged s <| require (targetsFit p s) .txOverflowed s <|
        finish .none (startCadence now (txIrqEnable s) (updateTargets p armPort s))) := rfl

section Checks

variable {p : PortArg} {s : State}

theorem targetsStaged_eq_true_iff : targetsStaged p s = true ↔ ∀ q ∈ targets p, (s.txPort q).dataEnd.val ≠ 0 := by
  simp only [targetsStaged, List.all_eq_true, decide_eq_true_iff, Nat.pos_iff_ne_zero]

theorem targetsStaged_eq_false_iff : targetsStaged p s = false ↔ ∃ q ∈ targets p, (s.txPort q).dataEnd.val = 0 := by
  rw [← Bool.not_eq_true, targetsStaged_eq_true_iff]
  simp only [not_forall, exists_prop, ne_eq, not_not]

theorem targetsFit_eq_true_iff : targetsFit p s = true ↔ ∀ q ∈ targets p, (s.txPort q).buf.overflowed = false := by
  simp only [targetsFit, List.all_eq_true, Bool.not_eq_true']

theorem targetsFit_eq_false_iff : targetsFit p s = false ↔ ∃ q ∈ targets p, (s.txPort q).buf.overflowed = true := by
  rw [← Bool.not_eq_true, targetsFit_eq_true_iff]
  simp only [not_forall, exists_prop, Bool.not_eq_false]

end Checks

theorem startCadence_out_env (now : Ts) (was : Bool) (s : State) :
    (startCadence now was s).out = s.out ∧ (startCadence now was s).env = s.env := by cases was <;> exact ⟨rfl, rfl⟩

theorem startCadence_false_sys (now : Ts) (s : State) :
    (startCadence now false s).sys = { s.sys with txCompare := now + s.cfg.clockDelay + s.cfg.txClockShift } := rfl

/-- Every target armed, and nothing but the compare value changed besides. -/
theorem armTargets_frame (p : PortArg) (now : Ts) (was : Bool) (s : State) :
    let t := startCadence now was (updateTargets p armPort s)
    t.rx = s.rx ∧ t.cfg = s.cfg ∧ t.env = s.env ∧ t.out = s.out ∧
      ∀ q, t.txPort q = if q ∈ targets p then armPort (s.txPort q) else s.txPort q := by
  obtain ⟨hrx, hcfg, -, hout, henv⟩ := updateTargets_frame p armPort s
  obtain ⟨hrx', hcfg'⟩ := startCadence_frame now was (updateTargets p armPort s)
  obtain ⟨hout', henv'⟩ := startCadence_out_env now was (updateTargets p armPort s)
  refine ⟨hrx'.trans hrx, hcfg'.trans hcfg, henv'.trans henv, hout'.trans hout, fun q => ?_⟩
  rw [startCadence_txPort, txPort_updateTargets]

/-- Settles O36: the four refusals in their order; then every target is armed, and whether some port was transmitting decides
between the kept compare value and the first one of a new cadence. -/
theorem txEnableResult : Obligations.TxEnableResult := by
  intro s p now
  rw [exec_txEnable]
  refine ⟨fun hf => staging_of_fatal hf p _, fun hrun hbusy => staging_of_busy hrun hbusy _, fun hrun hidle => ?_⟩
  rw [staging_of_ok _ hrun hidle]
  refine ⟨fun hempty => ?notStaged, fun hstaged => ⟨fun hover => ?overflowed, fun hfit => ?armed⟩⟩
  case notStaged => rw [targetsStaged_eq_false_iff.mpr hempty]; rfl
  case overflowed => rw [targetsStaged_eq_true_iff.mpr hstaged, targetsFit_eq_false_iff.mpr hover]; rfl
  case armed =>
    rw [targetsStaged_eq_true_iff.mpr hstaged, targetsFit_eq_true_iff.mpr hfit, require_true, require_true]
    obtain ⟨-, hcfg, hsys, -, -⟩ := updateTargets_frame p armPort s
    obtain ⟨hrx', hcfg', henv', hout', hports⟩ := armTargets_frame p now (txIrqEnable s) s
    refine ⟨_, rfl, hrx', hcfg', henv', ?_, fun q hq => ?_, fun q hq => ?_, fun hbusy => ?_, fun hquiet => ?_⟩
    · rw [State.answer, hout']
    · rw [answer_txPort, hports, if_neg hq]
    · rw [answer_txPort, hports, if_pos hq]; rfl
    · rw [answer_sys, (txIrqEnable_iff s).mpr hbusy, startCadence_true, hsys]
    · rw [answer_sys, (txIrqEnable_eq_false_iff s).mpr hquiet, startCadence_false_sys, hsys, hcfg]

end Sys2Proof.Proofs

/-! SUPPORT. What a constructor stages (spec/44_packetizer.md R123 to R133): a cleared PortBuffer filled with a list of bits and
sealed, the frame of each package as that list of bits, and the one staging result that every constructor has. -/

namespace Sys2Proof.Proofs

open Sys2Proof.Machine

/-! ### A list of bits in a PortBuffer -/

/-- Clearing first makes the positions above the cursor 0 (R83, R84). -/
theorem holds_putBits_bufClear (b : PortBuffer) {bits : List Bool} (hlen : bits.length ≤ Config.bufBits) :
    Holds (putBits (bufClear b) bits) bits := by
  refine ⟨fun n hn => ?_, ?_, ?_⟩
  · rw [bufGet_putBits _ _ hn, bufGet_bufClear, bufClear_pos]
    by_cases h : n < bits.length <;> simp [h]
  · simp [putBits_pos, hlen]
  · simp [putBits_overflowed, hlen]

/-- One more bit after the bits held (R84). -/
theorem holds_bufPut {b : PortBuffer} {bits : List Bool} (hb : Holds b bits) (v : Bool)
    (hlen : bits.length < Config.bufBits) : Holds (bufPut b v) (bits ++ [v]) := by
  obtain ⟨hget, hpos, hover⟩ := hb
  refine ⟨fun n hn => ?_, ?_, ?_⟩
  · rw [bufGet_bufPut b v hn, hget n hn, hpos]
    rcases Nat.lt_trichotomy n bits.length with h | rfl | h
    · rw [if_neg h.ne, List.getD_append _ _ _ _ h]
    · simp
    · rw [if_neg h.ne', List.getD_eq_default _ _ h.le, List.getD_eq_default _ _ (by simpa using h)]
  · rw [bufPut_pos, hpos, List.length_append, List.length_singleton]
    omega
  · simp [bufPut_overflowed, hover, hpos, hlen.ne]

/-- Reading back the bits held. -/
theorem bitsOf_of_holds {b : PortBuffer} {bits : List Bool} (hb : Holds b bits) : bitsOf b bits.length = bits := by
  obtain ⟨hget, hpos, -⟩ := hb
  refine List.ext_getElem (by simp [bitsOf]) fun n _ hn => ?_
  have hroom : n < Config.bufBits := hn.trans_le (hpos ▸ pos_le b)
  simp [bitsOf, hget n hroom, hn]

/-- The parity bit completes the bits held to a frame (R56, R90). -/
theorem holds_withParity {b : PortBuffer} {bits : List Bool} (hb : Holds b bits) (hlen : bits.length < Config.bufBits) :
    Holds (bufPut b (parityBit b b.pos.val)) (withParity bits) := by
  have hparity : parityBit b b.pos.val = bits.foldl xor false := by
    rw [parityBit_eq, parityOf_eq, hb.2.1, bitsOf_of_holds hb]
  rw [hparity]
  exact holds_bufPut hb _ hlen

/-! ### `pkt_begin`, the fields, `pkt_end` (R123) -/

/-- Every frame fits a PortBuffer with room to spare (R57, R68). -/
theorem frameLen_le (v : Variant) : frameLen v ≤ 68 := by cases v <;> decide

theorem frameBits_fit (v : Variant) (bc : Bool) (values : List (FieldName × U16)) :
    (frameBits v bc values).length < Config.bufBits := by
  have hlen := frameLen_le v
  rw [frameBits_length]
  show _ < 72
  omega

theorem holds_stageFrame (v : Variant) (bc : Bool) (values : List (FieldName × U16)) (x : TxPort) :
    Holds (stageFrame v bc values x).buf (withParity (frameBits v bc values)) :=
  holds_withParity (holds_putBits_bufClear x.buf (frameBits_fit v bc values).le) (frameBits_fit v bc values)

theorem stageFrame_dataEnd (v : Variant) (bc : Bool) (values : List (FieldName × U16)) (x : TxPort) :
    (stageFrame v bc values x).dataEnd.val = (withParity (frameBits v bc values)).length :=
  (holds_stageFrame v bc values x).2.1

/-- An operation that is nothing but a staged frame behind the precondition of R91. -/
theorem stagesFrame_of_staging {i : Instr} {p : PortArg} {s : State} {v : Variant} {bc : Bool}
    {values : List (FieldName × U16)} (hi : exec i s = staging p s (stagePackage p v bc values s))
    (hrun : s.sys.fatal = false) (hidle : ∀ q ∈ targets p, (s.txPort q).isTransmitting = false) :
    StagesFrame i p (withParity (frameBits v bc values)) s := by
  obtain ⟨t, hnext, hrx, hcfg, hsys, henv, hout, hother, htarget⟩ :=
    staging_updateTargets (stageFrame v bc values) hrun hidle
  refine ⟨t, hi.trans hnext, hrx, hcfg, hsys, henv, hout, hother, fun q hq => ?_⟩
  rw [htarget q hq]
  exact ⟨holds_stageFrame v bc values _, stageFrame_dataEnd v bc values _, rfl, rfl, rfl⟩

/-! ### Fields as lists of bits (R35, R69) -/

theorem fieldBits_eq_lsbFirst {x : U16} {w : Nat} {y : BitVec w} (h : ∀ k, k < w → x.getLsbD k = y.getLsbD k) :
    fieldBits x w = lsbFirst y :=
  List.map_congr_left fun k hk => h k (List.mem_range.mp hk)

theorem fieldBits_self (x : U16) : fieldBits x 16 = lsbFirst x := rfl

theorem fieldBits_setWidth {w : Nat} (y : BitVec w) (hw : w ≤ 16) : fieldBits (y.setWidth 16) w = lsbFirst y :=
  fieldBits_eq_lsbFirst fun k hk => by simp; omega

/-- The low field of a duration (R131). -/
theorem fieldBits_low (x : U16) (w : Nat) : fieldBits x w = lsbFirst (x.extractLsb' 0 w) :=
  fieldBits_eq_lsbFirst fun k hk => by simp [hk]

/-- The high field of a duration (R131). -/
theorem fieldBits_durHi {v : Variant} (hv : fieldWidth v .durLo = 8) (x : U16) (w : Nat) :
    fieldBits (durHi v x) w = lsbFirst (x.extractLsb' 8 w) :=
  fieldBits_eq_lsbFirst fun k hk => by simp [durHi, hv, hk]

theorem fieldBits_flagValue (c : Bool) : fieldBits (flagValue c) 1 = [c] := by cases c <;> rfl

theorem headerPuts_eq (v : Variant) (bc : Bool) :
    headerPuts v bc = frameHeader ((typeId v).setWidth 4) (rangeFlag v) bc := by
  have hid : fieldBits (typeId v) 4 = lsbFirst ((typeId v).setWidth 4) :=
    fieldBits_eq_lsbFirst fun k hk => by simp [hk]
  rw [headerPuts, hid, fieldBits_flagValue, fieldBits_flagValue, frameHeader, List.append_assoc _ [_] [_]]
  rfl

/-! ### The frame of a package (R58 to R67) -/

/-- The variant a constructor sends (R124 to R133). -/
def packageVariant : Package → Variant
  | .header => .header
  | .ack => .ack
  | .ackAddr _ _ => .ackAddr
  | .enumerate _ _ _ => .enumerate
  | .syncTime _ _ _ => .syncTime
  | .announceGeometry _ _ => .announceGeometry
  | .setGeometry _ _ => .setGeometry
  | .heatWires _ _ _ _ _ => .heatWires
  | .heatWiresRange _ _ _ _ _ _ _ => .heatWiresRange
  | .heatWiresMode _ => .heatWiresMode

/-- The values a constructor puts into the fields of its frame (R124 to R133). -/
def packageValues : Package → List (FieldName × U16)
  | .header => []
  | .ack => []
  | .ackAddr row col => [(.row, row.setWidth 16), (.col, col.setWidth 16)]
  | .enumerate row col bcr => [(.row, row.setWidth 16), (.col, col.setWidth 16), (.bcr, flagValue bcr)]
  | .syncTime time latency stuffing => [(.time, time), (.latency, latency), (.stuffing, stuffing.setWidth 16)]
  | .announceGeometry rows cols => [(.rows, rows.setWidth 16), (.cols, cols.setWidth 16)]
  | .setGeometry rows cols => [(.rows, rows.setWidth 16), (.cols, cols.setWidth 16)]
  | .heatWires row col startTs duration wires =>
      [(.row, row.setWidth 16), (.col, col.setWidth 16), (.startTs, startTs), (.durLo, duration),
        (.durHi, durHi .heatWires duration), (.wires, wires.setWidth 16)]
  | .heatWiresRange tlRow tlCol brRow brCol startTs duration wires =>
      [(.tlRow, tlRow.setWidth 16), (.tlCol, tlCol.setWidth 16), (.brRow, brRow.setWidth 16),
        (.brCol, brCol.setWidth 16), (.startTs, startTs), (.durLo, duration),
        (.durHi, durHi .heatWiresRange duration), (.wires, wires.setWidth 16)]
  | .heatWiresMode mode => [(.mode, mode.setWidth 16)]

/-- What a constructor requires of its operands, and what it sends without an operand: corners ordered, stuffing 0 (R128,
R132). Of a duration any value is sent, its bits 9 to 0 only. -/
def Stageable : Package → Prop
  | .syncTime _ _ stuffing => stuffing = 0
  | .heatWiresRange tlRow tlCol brRow brCol _ _ _ => tlRow.toNat ≤ brRow.toNat ∧ tlCol.toNat ≤ brCol.toNat
  | _ => True

/-- The frame written from the layout record is the frame written from the spec's tables. -/
theorem withParity_frameBits (bc : Bool) (pkg : Package) :
    withParity (frameBits (packageVariant pkg) bc (packageValues pkg)) = frameOf bc pkg := by
  have hu8 (x : U8) : fieldBits (x.setWidth 16) 8 = lsbFirst x := fieldBits_setWidth x (by decide)
  have hu2 (x : BitVec 2) : fieldBits (x.setWidth 16) 2 = lsbFirst x := fieldBits_setWidth x (by decide)
  cases pkg <;> simp only [packageVariant, packageValues, frameOf]
  case header => rw [frameBits_header, headerPuts_eq]; rfl
  case ack => rw [frameBits_ack, headerPuts_eq]; rfl
  case ackAddr => rw [frameBits_ackAddr, headerPuts_eq, hu8, hu8]; rfl
  case enumerate => rw [frameBits_enumerate, headerPuts_eq, hu8, hu8, fieldBits_flagValue]; rfl
  case syncTime => rw [frameBits_syncTime, headerPuts_eq, fieldBits_self, fieldBits_self, hu8]; rfl
  case announceGeometry => rw [frameBits_announceGeometry, headerPuts_eq, hu8, hu8]; rfl
  case setGeometry => rw [frameBits_setGeometry, headerPuts_eq, hu8, hu8]; rfl
  case heatWires =>
    rw [frameBits_heatWires, headerPuts_eq, hu8, hu8, fieldBits_self, fieldBits_low, fieldBits_durHi rfl, hu2]; rfl
  case heatWiresRange =>
    rw [frameBits_heatWiresRange, headerPuts_eq, hu8, hu8, hu8, hu8, fieldBits_self, fieldBits_low,
      fieldBits_durHi rfl, hu2]
    rfl
  case heatWiresMode => rw [frameBits_heatWiresMode, headerPuts_eq, hu2]; rfl

/-! ### The constructors (R124 to R133) -/

theorem cornersOrdered_iff {tlRow tlCol brRow brCol : U8} :
    cornersOrdered tlRow tlCol brRow brCol = true ↔ tlRow.toNat ≤ brRow.toNat ∧ tlCol.toNat ≤ brCol.toNat := by
  simp [cornersOrdered, BitVec.le_def]

theorem exec_pktHeatrng (p : PortArg) (tlRow tlCol brRow brCol : U8) (startTs duration : U16) (wires : BitVec 2)
    (bc : Bool) (s : State) :
    exec (.pktHeatrng p tlRow tlCol brRow brCol startTs duration wires bc) s =
      staging p s (require (cornersOrdered tlRow tlCol brRow brCol) .rangeOrder s
        (stagePackage p .heatWiresRange bc
          (packageValues (.heatWiresRange tlRow tlCol brRow brCol startTs duration wires)) s)) := rfl

/-- A constructor stages its package behind the precondition of R91; PKT.HEATRNG alone checks its operands. -/
theorem exec_constructor (p : PortArg) (bc : Bool) {pkg : Package} (hpkg : Stageable pkg) (s : State) :
    exec (constructor p bc pkg) s =
      staging p s (stagePackage p (packageVariant pkg) bc (packageValues pkg) s) := by
  cases pkg
  case syncTime => obtain rfl : _ = (0 : U8) := hpkg; rfl
  case heatWiresRange => rw [constructor, exec_pktHeatrng, cornersOrdered_iff.mpr hpkg, require_true]; rfl
  all_goals rfl

/-- What every constructor does: the frame of its package staged on every target (R123). -/
theorem stagesFrame_constructor {p : PortArg} {s : State} (hrun : s.sys.fatal = false)
    (hidle : ∀ q ∈ targets p, (s.txPort q).isTransmitting = false) (bc : Bool) {pkg : Package} (hpkg : Stageable pkg) :
    StagesFrame (constructor p bc pkg) p (frameOf bc pkg) s := by
  rw [← withParity_frameBits]
  exact stagesFrame_of_staging (exec_constructor p bc hpkg s) hrun hidle

/-- Settles O41: the constructors of the two packages without operands. -/
theorem headerAndAckFrames : Obligations.HeaderAndAckFrames := fun _ _ bc hrun hidle =>
  ⟨stagesFrame_constructor hrun hidle bc (pkg := .header) trivial,
    stagesFrame_constructor hrun hidle bc (pkg := .ack) trivial⟩

/-- Settles O42: the constructors of the three packages of two bytes. -/
theorem addressAndGeometryFrames : Obligations.AddressAndGeometryFrames := fun _ _ a b bc hrun hidle =>
  ⟨stagesFrame_constructor hrun hidle bc (pkg := .ackAddr a b) trivial,
    stagesFrame_constructor hrun hidle bc (pkg := .announceGeometry a b) trivial,
    stagesFrame_constructor hrun hidle bc (pkg := .setGeometry a b) trivial⟩

/-- Settles O43: the constructors of the enumeration and of the heat mode. -/
theorem enumerateAndHeatModeFrames : Obligations.EnumerateAndHeatModeFrames := fun _ _ row col bcr bc mode hrun hidle =>
  ⟨stagesFrame_constructor hrun hidle bc (pkg := .enumerate row col bcr) trivial,
    stagesFrame_constructor hrun hidle bc (pkg := .heatWiresMode mode) trivial⟩

/-- Settles O44: the constructor of the time package, whose eight stuffing bits are the byte 0. -/
theorem syncTimeFrame : Obligations.SyncTimeFrame := fun _ _ time latency bc hrun hidle =>
  stagesFrame_constructor hrun hidle bc (pkg := .syncTime time latency 0) rfl

/-- Settles O45: the constructor of the heating package; any duration is stageable. -/
theorem heatWiresFrame : Obligations.HeatWiresFrame := fun _ _ row col startTs duration wires bc hrun hidle =>
  stagesFrame_constructor hrun hidle bc (pkg := .heatWires row col startTs duration wires) trivial

/-- The corners are checked after the precondition of R91. -/
theorem exec_pktHeatrng_of_unordered {p : PortArg} {s : State} {tlRow tlCol brRow brCol : U8}
    (hrun : s.sys.fatal = false) (hidle : ∀ q ∈ targets p, (s.txPort q).isTransmitting = false)
    (hcorners : ¬ (tlRow.toNat ≤ brRow.toNat ∧ tlCol.toNat ≤ brCol.toNat)) (startTs duration : U16) (wires : BitVec 2)
    (bc : Bool) :
    exec (.pktHeatrng p tlRow tlCol brRow brCol startTs duration wires bc) s = .next (s.answer 8 .none) := by
  have hordered : cornersOrdered tlRow tlCol brRow brCol = false := by rwa [← Bool.not_eq_true, cornersOrdered_iff]
  rw [exec_pktHeatrng, staging_of_ok _ hrun hidle, hordered]
  rfl

/-- Settles O46: with ordered corners the package is stageable, and with others the check of R132 refuses it. -/
theorem heatWiresRangeFrame : Obligations.HeatWiresRangeFrame := by
  intro s p tlRow tlCol brRow brCol startTs duration wires bc hrun hidle
  refine ⟨fun hcorners => ?_, fun hcorners => ?_⟩
  · exact stagesFrame_constructor hrun hidle bc
      (pkg := .heatWiresRange tlRow tlCol brRow brCol startTs duration wires) hcorners
  · exact exec_pktHeatrng_of_unordered hrun hidle (by omega) startTs duration wires bc

end Sys2Proof.Proofs

/-! SUPPORT. What PKT.INTERPRET answers (spec/44_packetizer.md R134, R135): the layout record read as the spec's tables, then one
rule for each of the six rejects and one for the accept. -/

namespace Sys2Proof.Proofs

open Sys2Proof.Machine

/-! ### Fields as numbers (R69) -/

theorem bitsValue_map_range (f : Nat → Bool) (w : Nat) :
    bitsValue ((List.range w).map f) = ∑ k ∈ Finset.range w, (f k).toNat * 2 ^ k := by
  induction w generalizing f with
  | zero => rfl
  | succ w ih =>
    have hdouble : ∑ k ∈ Finset.range w, (f (k + 1)).toNat * 2 ^ (k + 1) =
        2 * ∑ k ∈ Finset.range w, (f (k + 1)).toNat * 2 ^ k := by
      rw [Finset.mul_sum]
      exact Finset.sum_congr rfl fun k _ => by ring
    have htail : (List.range w).map (f ∘ Nat.succ) = (List.range w).map fun k => f (k + 1) := rfl
    rw [List.range_succ_eq_map, List.map_cons, List.map_map, bitsValue, htail, ih, Finset.sum_range_succ', hdouble]
    omega

theorem getField_eq_fieldSum (b : PortBuffer) (n w : Nat) : getField b n w = fieldSum b n w := bitsValue_map_range _ w

theorem readNamed_eq_fieldSum {fields : List Field} {name : FieldName} {n w : Nat} (b : PortBuffer)
    (hf : fieldNamed fields name = some ⟨name, n, w⟩) : readNamed b fields name = fieldSum b n w := by
  rw [readNamed, hf]
  exact getField_eq_fieldSum b n w

/-- A field of one bit is that bit (R69). -/
theorem fieldSum_one (b : PortBuffer) (n : Nat) : fieldSum b n 1 = (bufGet b n).toNat := by simp [fieldSum]

theorem fieldSum_one_ne_zero (b : PortBuffer) (n : Nat) : (fieldSum b n 1 != 0) = bufGet b n := by
  rw [fieldSum_one]
  cases bufGet b n <;> rfl

/-! ### The header (R55) -/

theorem readHeader_eq_fieldSum {name : FieldName} {n w : Nat} (b : PortBuffer)
    (hf : fieldNamed frameLayout.header name = some ⟨name, n, w⟩) : readHeader b name = fieldSum b n w := by
  rw [readHeader, readNamed_eq_fieldSum b hf]

@[simp] theorem startValue_eq : frameLayout.startValue.toNat = 1 := rfl

@[simp] theorem readHeader_start (b : PortBuffer) : readHeader b .start = (bufGet b 0).toNat := by
  rw [readHeader_eq_fieldSum (n := 0) (w := 1) b rfl, fieldSum_one]

@[simp] theorem readHeader_id (b : PortBuffer) : readHeader b .id = fieldSum b 1 4 :=
  readHeader_eq_fieldSum b rfl

@[simp] theorem readHeader_range (b : PortBuffer) : (readHeader b .range != 0) = bufGet b 5 := by
  rw [readHeader_eq_fieldSum (n := 5) (w := 1) b rfl, fieldSum_one_ne_zero]

@[simp] theorem readHeader_bc (b : PortBuffer) : (readHeader b .bc != 0) = bufGet b 6 := by
  rw [readHeader_eq_fieldSum (n := 6) (w := 1) b rfl, fieldSum_one_ne_zero]

/-! ### The variant a header identifies (R57) -/

theorem variantOf_of_large {id : Nat} (h : 9 ≤ id) (range : Bool) : variantOf id range = none := by
  have hid (v : Variant) : (typeId v).toNat ≤ 8 := by cases v <;> decide
  refine List.find?_eq_none.mpr fun v _ => ?_
  have hne : (typeId v).toNat ≠ id := fun he => by have := hid v; omega
  simp [hne]

theorem lengthOf_of_large {id : Nat} (h : 9 ≤ id) (range : Bool) : lengthOf id range = none := by
  obtain ⟨k, rfl⟩ := Nat.exists_eq_add_of_le' h
  cases range <;> rfl

/-- The rows of the layout record are those of R57, with their lengths. -/
theorem variantOf_map_frameLen (id : Nat) (range : Bool) : (variantOf id range).map frameLen = lengthOf id range := by
  rcases Nat.lt_or_ge id 9 with h | h
  · interval_cases id <;> cases range <;> rfl
  · rw [variantOf_of_large h, lengthOf_of_large h]
    rfl

/-- The pairs of R57 that are no variant. -/
theorem lengthOf_eq_none_iff (id : Nat) (range : Bool) : lengthOf id range = none ↔ 9 ≤ id ∨ range = true ∧ id ≠ 6 := by
  rcases Nat.lt_or_ge id 9 with h | h
  · interval_cases id <;> cases range <;> decide
  · simp [lengthOf_of_large h, h]

theorem variantOf_eq_none_of_lengthOf {id : Nat} {range : Bool} (h : lengthOf id range = none) :
    variantOf id range = none := by
  rwa [← variantOf_map_frameLen, Option.map_eq_none_iff] at h

/-- A pair with a length is the row of one variant. -/
theorem exists_variant_of_lengthOf {id : Nat} {range : Bool} {n : Nat} (h : lengthOf id range = some n) :
    ∃ v, variantOf id range = some v ∧ id = (typeId v).toNat ∧ range = rangeFlag v ∧ n = frameLen v := by
  rw [← variantOf_map_frameLen, Option.map_eq_some_iff] at h
  obtain ⟨v, hv, rfl⟩ := h
  have hrow := List.find?_some hv
  rw [Bool.and_eq_true, beq_iff_eq, beq_iff_eq] at hrow
  exact ⟨v, hv, hrow.1.symm, hrow.2.symm, rfl⟩

theorem mem_validLengths_of_lengthOf {id : Nat} {range : Bool} {n : Nat} (h : lengthOf id range = some n) :
    n ∈ validLengths := by
  obtain ⟨v, -, -, -, rfl⟩ := exists_variant_of_lengthOf h
  cases v <;> decide

/-! ### The fields of the package (R135) -/

/-- The first position of a named field of variant `v`; 0 for a field it does not have. -/
def fieldPos (v : Variant) (name : FieldName) : Nat := ((fieldNamed (layout v) name).map Field.pos).getD 0

theorem readField_eq_fieldSum (b : PortBuffer) (v : Variant) (name : FieldName) :
    readField b v name = fieldSum b (fieldPos v name) (fieldWidth v name) := by
  rw [readField, readNamed, fieldPos, fieldWidth]
  cases fieldNamed (layout v) name with
  | none => rfl
  | some f => exact getField_eq_fieldSum b f.pos f.width

theorem readField_bcr (b : PortBuffer) : (readField b .enumerate .bcr != 0) = bufGet b 23 := by
  rw [readField_eq_fieldSum]
  exact fieldSum_one_ne_zero b 23

/-- The fields read by the layout record stand at the positions of the table of R135. -/
theorem packageOf_eq_packageRead (b : PortBuffer) (v : Variant) :
    packageOf b v = packageRead b (typeId v).toNat (rangeFlag v) := by
  cases v
  case enumerate => rw [packageOf, readField_bcr]; simp only [readField_eq_fieldSum]; rfl
  all_goals simp only [packageOf, readDuration, readField_eq_fieldSum]; rfl

/-! ### One rule for each answer (R134) -/

/-- The first three checks pass, so the answer depends on the variant the header identifies. -/
structure HeaderReadable (b : PortBuffer) : Prop where
  fits : b.overflowed = false
  validLength : b.pos.val ∈ validLengths
  startBit : bufGet b 0 = true

theorem interpret_of_overflowed {b : PortBuffer} (h : b.overflowed = true) : interpret b = .reject .overflowed := by
  simp [interpret, h]

theorem interpret_of_badLength {b : PortBuffer} (hfits : b.overflowed = false) (h : b.pos.val ∉ validLengths) :
    interpret b = .reject .badLength := by
  simp [interpret, hfits, h]

theorem interpret_of_badStart {b : PortBuffer} (hfits : b.overflowed = false) (hlen : b.pos.val ∈ validLengths)
    (h : bufGet b 0 = false) : interpret b = .reject .badStart := by
  simp [interpret, hfits, hlen, h]

section Readable

variable {b : PortBuffer} (hb : HeaderReadable b)
include hb

theorem interpret_of_noVariant (h : lengthOf (fieldSum b 1 4) (bufGet b 5) = none) :
    interpret b = .reject .badType := by
  simp [interpret, hb.fits, hb.validLength, hb.startBit, variantOf_eq_none_of_lengthOf h]

theorem interpret_of_otherLength {len : Nat} (h : lengthOf (fieldSum b 1 4) (bufGet b 5) = some len)
    (hlen : b.pos.val ≠ len) : interpret b = .reject .lengthMismatch := by
  obtain ⟨v, hv, -, -, rfl⟩ := exists_variant_of_lengthOf h
  simp [interpret, hb.fits, hb.validLength, hb.startBit, hv, hlen]

/-- The last check and the fields, for a frame of the length its header identifies. -/
theorem interpret_of_ownLength (h : lengthOf (fieldSum b 1 4) (bufGet b 5) = some b.pos.val) :
    interpret b =
      if parityOf b b.pos.val = true then .reject .badParity
      else .accept (bufGet b 6) (packageRead b (fieldSum b 1 4) (bufGet b 5)) := by
  obtain ⟨v, hv, hid, hrange, hlen⟩ := exists_variant_of_lengthOf h
  have heven : frameLayout.oddParity = false := rfl
  rw [hid, hrange, ← packageOf_eq_packageRead]
  simp [interpret, hb.fits, hb.validLength, hb.startBit, hv, heven, ← hlen]

theorem interpret_of_oddParity (h : lengthOf (fieldSum b 1 4) (bufGet b 5) = some b.pos.val)
    (hodd : parityOf b b.pos.val = true) : interpret b = .reject .badParity := by
  rw [interpret_of_ownLength hb h, if_pos hodd]

theorem interpret_of_evenParity (h : lengthOf (fieldSum b 1 4) (bufGet b 5) = some b.pos.val)
    (heven : parityOf b b.pos.val = false) :
    interpret b = .accept (bufGet b 6) (packageRead b (fieldSum b 1 4) (bufGet b 5)) := by
  rw [interpret_of_ownLength hb h, if_neg (by simp [heven])]

end Readable

/-! ### The operation -/

theorem exec_pktInterpret (q : Port) (s : State) :
    exec (.pktInterpret (argOf q)) s =
      require (s.rxPort q).isDataBuffered .notBuffered s
        (finish (.interpreted (interpret (s.rxPort q).buf)) s) := onPhysical_argOf ..

theorem exec_pktInterpret_of_buffered {q : Port} {s : State} (h : (s.rxPort q).isDataBuffered = true) :
    exec (.pktInterpret (argOf q)) s = .next (s.answer 0 (.interpreted (interpret (s.rxPort q).buf))) := by
  rw [exec_pktInterpret, h]
  rfl

theorem exec_pktInterpret_of_empty {q : Port} {s : State} (h : (s.rxPort q).isDataBuffered = false) :
    exec (.pktInterpret (argOf q)) s = .next (s.answer 9 .none) := by
  rw [exec_pktInterpret, h]
  rfl

/-- Settles O47: each branch of the statement is the rule of its answer. -/
theorem interpretResult : Obligations.InterpretResult := by
  intro s q b n id range answers
  refine ⟨rfl, exec_pktInterpret_of_empty, fun hbuffered => ?_⟩
  have hanswer {x : Interpreted} (hx : interpret b = x) : answers x := hx ▸ exec_pktInterpret_of_buffered hbuffered
  by_cases hover : b.overflowed = true
  · rw [if_pos hover]; exact hanswer (interpret_of_overflowed hover)
  rw [if_neg hover]
  rw [Bool.not_eq_true] at hover
  by_cases hlen : n ∈ [8, 10, 24, 25, 48, 52, 68]
  case neg => rw [if_pos hlen]; exact hanswer (interpret_of_badLength hover (mt (mem_validLengths n).mp hlen))
  rw [if_neg (not_not.mpr hlen)]
  rw [← mem_validLengths] at hlen
  by_cases hstart : bufGet b 0 = false
  · rw [if_pos hstart]; exact hanswer (interpret_of_badStart hover hlen hstart)
  rw [if_neg hstart]
  rw [Bool.not_eq_false] at hstart
  have hb : HeaderReadable b := ⟨hover, hlen, hstart⟩
  by_cases htype : 9 ≤ id ∨ range = true ∧ id ≠ 6
  · rw [if_pos htype]; exact hanswer (interpret_of_noVariant hb ((lengthOf_eq_none_iff id range).mpr htype))
  rw [if_neg htype]
  rw [← lengthOf_eq_none_iff] at htype
  obtain ⟨len, hvariant⟩ := Option.ne_none_iff_exists'.mp htype
  by_cases hown : lengthOf id range = some n
  case neg =>
    rw [if_pos hown]
    exact hanswer (interpret_of_otherLength hb hvariant fun h => hown (hvariant.trans (congrArg some h.symm)))
  rw [if_neg (not_not.mpr hown), ← parityOf_eq]
  by_cases hodd : parityOf b n = true
  · rw [if_pos hodd]; exact hanswer (interpret_of_oddParity hb hown hodd)
  · rw [if_neg hodd]; exact hanswer (interpret_of_evenParity hb hown (by simpa using hodd))

end Sys2Proof.Proofs

/-! SUPPORT. A constructor's frame read back by PKT.INTERPRET (spec/44_packetizer.md R137): bits that stand at a position of a
PortBuffer, the numbers and the parity they read as, and the package of a frame. -/

namespace Sys2Proof.Proofs

open Sys2Proof.Machine

/-! ### Bits at a position -/

/-- The bits stand in the buffer one after another from position `n`. -/
def BitsAt (b : PortBuffer) (n : Nat) (bits : List Bool) : Prop :=
  ∀ k, k < bits.length → bufGet b (n + k) = bits.getD k false

theorem bitsAt_append {b : PortBuffer} {n : Nat} {xs ys : List Bool} :
    BitsAt b n (xs ++ ys) ↔ BitsAt b n xs ∧ BitsAt b (n + xs.length) ys := by
  constructor
  · intro h
    refine ⟨fun k hk => ?_, fun k hk => ?_⟩
    · rw [h k (by simp; omega), List.getD_append _ _ _ _ hk]
    · rw [Nat.add_assoc, h _ (by simpa using hk), List.getD_append_right _ _ _ _ (by omega), Nat.add_sub_cancel_left]
  · rintro ⟨hxs, hys⟩ k hk
    rw [List.length_append] at hk
    rcases Nat.lt_or_ge k xs.length with h | h
    · rw [hxs k h, List.getD_append _ _ _ _ h]
    · obtain ⟨j, rfl⟩ := Nat.exists_eq_add_of_le h
      rw [← Nat.add_assoc, hys j (by omega), List.getD_append_right _ _ _ _ h, Nat.add_sub_cancel_left]

theorem bitsAt_singleton {b : PortBuffer} {n : Nat} {c : Bool} : BitsAt b n [c] ↔ bufGet b n = c := by
  simp [BitsAt]

theorem bitsAt_cons {b : PortBuffer} {n : Nat} {c : Bool} {bits : List Bool} :
    BitsAt b n (c :: bits) ↔ bufGet b n = c ∧ BitsAt b (n + 1) bits := by
  rw [← List.singleton_append, bitsAt_append, bitsAt_singleton]
  rfl

theorem bitsAt_of_holds {b : PortBuffer} {bits : List Bool} (hb : Holds b bits) : BitsAt b 0 bits := fun k hk => by
  rw [Nat.zero_add, hb.1 k (hk.trans_le (hb.2.1 ▸ pos_le b))]

theorem length_lsbFirst {w : Nat} (x : BitVec w) : (lsbFirst x).length = w := by simp [lsbFirst]

/-- A number sent least significant bit first is read back (R35, R69). -/
theorem fieldSum_of_bitsAt {b : PortBuffer} {n w : Nat} {x : BitVec w} (h : BitsAt b n (lsbFirst x)) :
    fieldSum b n w = x.toNat := by
  have hbits (k : Nat) (hk : k < w) : bufGet b (n + k) = x.getLsbD k := by
    rw [h k (by rwa [length_lsbFirst])]
    simp [lsbFirst, hk]
  have hsum : fieldSum b n w = ∑ k ∈ Finset.range w, (x.getLsbD k).toNat * 2 ^ k :=
    Finset.sum_congr rfl fun k hk => by rw [hbits k (Finset.mem_range.mp hk)]
  have hmod (m : Nat) : ∑ k ∈ Finset.range m, (x.getLsbD k).toNat * 2 ^ k = x.toNat % 2 ^ m := by
    induction m with
    | zero => simp [Nat.mod_one]
    | succ m ih =>
      rw [Finset.sum_range_succ, ih, BitVec.getLsbD, Nat.toNat_testBit, Nat.mod_pow_succ, Nat.mul_comm (2 ^ m)]
  rw [hsum, hmod, Nat.mod_eq_of_lt x.isLt]

/-! ### Parity (R56) -/

theorem foldl_xor_withParity (bits : List Bool) : (withParity bits).foldl xor false = false := by
  rw [withParity, List.foldl_append, List.foldl_cons, List.foldl_nil, Bool.xor_self]

theorem parityOf_of_holds {b : PortBuffer} {bits : List Bool} (hb : Holds b (withParity bits)) :
    parityOf b b.pos.val = false := by
  rw [hb.2.1, parityOf_eq, bitsOf_of_holds hb, foldl_xor_withParity]

/-! ### The fields of a package read back (R135) -/

theorem ofNat_fieldSum_of_bitsAt {b : PortBuffer} {n w : Nat} {x : BitVec w} (h : BitsAt b n (lsbFirst x)) :
    BitVec.ofNat w (fieldSum b n w) = x := by
  rw [fieldSum_of_bitsAt h, BitVec.ofNat_toNat, BitVec.setWidth_eq]

/-- A duration within its ten bits is merged again from its two fields (R131, R138). -/
theorem ofNat_duration_of_bitsAt {b : PortBuffer} {n m : Nat} {duration : U16} (hduration : duration.toNat ≤ 1023)
    (hlo : BitsAt b n (lsbFirst (duration.extractLsb' 0 8))) (hhi : BitsAt b m (lsbFirst (duration.extractLsb' 8 2))) :
    BitVec.ofNat 16 (fieldSum b n 8 + 256 * fieldSum b m 2) = duration := by
  have hmerge : duration.toNat % 256 + 256 * (duration.toNat / 256 % 4) = duration.toNat := by omega
  rw [fieldSum_of_bitsAt hlo, fieldSum_of_bitsAt hhi]
  apply BitVec.eq_of_toNat_eq
  simp [Nat.shiftRight_eq_div_pow, hmerge]

/-- The bits of a frame between its header and its parity bit (R58 to R67). -/
def packageTail : Package → List Bool
  | .header => []
  | .ack => []
  | .ackAddr row col => lsbFirst row ++ lsbFirst col
  | .enumerate row col bcr => lsbFirst row ++ lsbFirst col ++ [bcr]
  | .syncTime time latency stuffing => lsbFirst time ++ lsbFirst latency ++ lsbFirst stuffing
  | .announceGeometry rows cols => lsbFirst rows ++ lsbFirst cols
  | .setGeometry rows cols => lsbFirst rows ++ lsbFirst cols
  | .heatWires row col startTs duration wires =>
      lsbFirst row ++ lsbFirst col ++ lsbFirst startTs ++ lsbFirst (duration.extractLsb' 0 8) ++
        lsbFirst (duration.extractLsb' 8 2) ++ lsbFirst wires
  | .heatWiresRange tlRow tlCol brRow brCol startTs duration wires =>
      lsbFirst tlRow ++ lsbFirst tlCol ++ lsbFirst brRow ++ lsbFirst brCol ++ lsbFirst startTs ++
        lsbFirst (duration.extractLsb' 0 8) ++ lsbFirst (duration.extractLsb' 8 2) ++ lsbFirst wires
  | .heatWiresMode mode => lsbFirst mode

theorem frameOf_eq (bc : Bool) (pkg : Package) :
    frameOf bc pkg =
      withParity
        (frameHeader ((typeId (packageVariant pkg)).setWidth 4) (rangeFlag (packageVariant pkg)) bc ++
          packageTail pkg) := by
  cases pkg <;> simp only [packageTail, List.append_nil, ← List.append_assoc] <;> rfl

/-- The fields of a package stand in its tail where the table of R135 reads them. -/
theorem packageRead_of_bitsAt {b : PortBuffer} {pkg : Package} (hpkg : validPackage pkg)
    (h : BitsAt b 7 (packageTail pkg)) :
    packageRead b (typeId (packageVariant pkg)).toNat (rangeFlag (packageVariant pkg)) = pkg := by
  cases pkg <;>
    simp only [packageTail, bitsAt_append, bitsAt_singleton, List.length_append, length_lsbFirst, Nat.reduceAdd] at h
  case header => rfl
  case ack => rfl
  case ackAddr row col =>
    obtain ⟨hrow, hcol⟩ := h
    exact congrArg₂ Package.ackAddr (ofNat_fieldSum_of_bitsAt hrow) (ofNat_fieldSum_of_bitsAt hcol)
  case announceGeometry rows cols =>
    obtain ⟨hrows, hcols⟩ := h
    exact congrArg₂ Package.announceGeometry (ofNat_fieldSum_of_bitsAt hrows) (ofNat_fieldSum_of_bitsAt hcols)
  case setGeometry rows cols =>
    obtain ⟨hrows, hcols⟩ := h
    exact congrArg₂ Package.setGeometry (ofNat_fieldSum_of_bitsAt hrows) (ofNat_fieldSum_of_bitsAt hcols)
  case heatWiresMode mode => exact congrArg Package.heatWiresMode (ofNat_fieldSum_of_bitsAt h)
  case enumerate row col bcr =>
    obtain ⟨⟨hrow, hcol⟩, hbcr⟩ := h
    change Package.enumerate (.ofNat 8 _) (.ofNat 8 _) (bufGet b 23) = _
    rw [ofNat_fieldSum_of_bitsAt hrow, ofNat_fieldSum_of_bitsAt hcol, hbcr]
  case syncTime time latency stuffing =>
    obtain ⟨⟨htime, hlatency⟩, hstuffing⟩ := h
    change Package.syncTime (.ofNat 16 _) (.ofNat 16 _) (.ofNat 8 _) = _
    rw [ofNat_fieldSum_of_bitsAt htime, ofNat_fieldSum_of_bitsAt hlatency, ofNat_fieldSum_of_bitsAt hstuffing]
  case heatWires row col startTs duration wires =>
    obtain ⟨⟨⟨⟨⟨hrow, hcol⟩, hstart⟩, hlo⟩, hhi⟩, hwires⟩ := h
    change Package.heatWires (.ofNat 8 _) (.ofNat 8 _) (.ofNat 16 _) (.ofNat 16 _) (.ofNat 2 _) = _
    rw [ofNat_fieldSum_of_bitsAt hrow, ofNat_fieldSum_of_bitsAt hcol, ofNat_fieldSum_of_bitsAt hstart,
      ofNat_duration_of_bitsAt hpkg hlo hhi, ofNat_fieldSum_of_bitsAt hwires]
  case heatWiresRange tlRow tlCol brRow brCol startTs duration wires =>
    obtain ⟨⟨⟨⟨⟨⟨⟨htlRow, htlCol⟩, hbrRow⟩, hbrCol⟩, hstart⟩, hlo⟩, hhi⟩, hwires⟩ := h
    obtain ⟨-, -, hduration⟩ := hpkg
    change
      Package.heatWiresRange (.ofNat 8 _) (.ofNat 8 _) (.ofNat 8 _) (.ofNat 8 _) (.ofNat 16 _) (.ofNat 16 _)
          (.ofNat 2 _) = _
    rw [ofNat_fieldSum_of_bitsAt htlRow, ofNat_fieldSum_of_bitsAt htlCol, ofNat_fieldSum_of_bitsAt hbrRow,
      ofNat_fieldSum_of_bitsAt hbrCol, ofNat_fieldSum_of_bitsAt hstart, ofNat_duration_of_bitsAt hduration hlo hhi,
      ofNat_fieldSum_of_bitsAt hwires]

/-! ### The frame of a package is accepted (R134) -/

/-- What the bits of a header read as (R55). -/
theorem header_of_bitsAt {b : PortBuffer} {id : BitVec 4} {range bc : Bool} (h : BitsAt b 0 (frameHeader id range bc)) :
    bufGet b 0 = true ∧ fieldSum b 1 4 = id.toNat ∧ bufGet b 5 = range ∧ bufGet b 6 = bc := by
  simp only [frameHeader, bitsAt_append, bitsAt_cons, List.length_append, length_lsbFirst, List.length_cons,
    List.length_nil, Nat.reduceAdd] at h
  obtain ⟨⟨⟨hstart, -⟩, hid⟩, hrange, hbc, -⟩ := h
  exact ⟨hstart, fieldSum_of_bitsAt hid, hrange, hbc⟩

/-- Every variant has the length that its own type and range identify (R57). -/
theorem lengthOf_variant (v : Variant) : lengthOf (typeId v).toNat (rangeFlag v) = some (frameLen v) := by
  cases v <;> rfl

theorem toNat_typeId_setWidth (v : Variant) : ((typeId v).setWidth 4).toNat = (typeId v).toNat := by cases v <;> rfl

theorem frameLen_pos (v : Variant) : 0 < frameLen v := by cases v <;> decide

theorem length_frameOf (bc : Bool) (pkg : Package) : (frameOf bc pkg).length = frameLen (packageVariant pkg) := by
  have hlen := frameLen_pos (packageVariant pkg)
  rw [← withParity_frameBits, withParity, List.length_append, frameBits_length, List.length_singleton]
  omega

theorem interpret_of_holds_frameOf {b : PortBuffer} {bc : Bool} {pkg : Package} (hpkg : validPackage pkg)
    (hb : Holds b (frameOf bc pkg)) : interpret b = .accept bc pkg := by
  have hpos : b.pos.val = frameLen (packageVariant pkg) := hb.2.1.trans (length_frameOf bc pkg)
  have hover : b.overflowed = false := hb.2.2
  rw [frameOf_eq] at hb
  have hbits := bitsAt_of_holds hb
  rw [withParity, bitsAt_append, bitsAt_append] at hbits
  obtain ⟨⟨hheader, htail⟩, -⟩ := hbits
  obtain ⟨hstart, hid, hrange, hbc⟩ := header_of_bitsAt hheader
  rw [toNat_typeId_setWidth] at hid
  have hown : lengthOf (fieldSum b 1 4) (bufGet b 5) = some b.pos.val := by rw [hid, hrange, hpos, lengthOf_variant]
  have hreadable : HeaderReadable b := ⟨hover, mem_validLengths_of_lengthOf hown, hstart⟩
  rw [interpret_of_evenParity hreadable hown (parityOf_of_holds hb), hbc, hid, hrange,
    packageRead_of_bitsAt hpkg htail]

theorem stageable_of_valid {pkg : Package} (h : validPackage pkg) : Stageable pkg := by
  cases pkg
  case syncTime => exact h
  case heatWiresRange => exact ⟨h.1, h.2.1⟩
  all_goals trivial

/-- Settles O48: a constructor stages the frame of its package, and a buffer that holds that frame is accepted as it. -/
theorem codecRoundTrip : Obligations.CodecRoundTrip := by
  intro s u p q r bc pkg hpkg hrun hidle hq
  obtain ⟨t, hnext, -, -, -, -, hout, -, htarget⟩ := stagesFrame_constructor hrun hidle bc (stageable_of_valid hpkg)
  obtain ⟨⟨hget, -, -⟩, hend, -⟩ := htarget q hq
  refine ⟨t, hnext, by rw [hout], fun hbuffered hbytes hpos hover => ?_⟩
  have hholds : Holds (u.rxPort r).buf (frameOf bc pkg) :=
    ⟨fun n hn => (bufGet_congr hbytes n).trans (hget n hn), by rw [hpos, hend], hover⟩
  rw [exec_pktInterpret_of_buffered hbuffered, interpret_of_holds_frameOf hpkg hholds]

end Sys2Proof.Proofs

/-! SUPPORT. Inverted bits in a frame that PKT.INTERPRET accepts (spec/44_packetizer.md R139): what the bits, the parity and the
fields read as after a flip, and what an accepted frame is. -/

namespace Sys2Proof.Proofs

open Sys2Proof.Machine

/-! ### One inverted bit -/

@[simp] theorem flipBit_pos (b : PortBuffer) (k : Nat) : (flipBit b k).pos = b.pos := rfl

@[simp] theorem flipBit_overflowed (b : PortBuffer) (k : Nat) : (flipBit b k).overflowed = b.overflowed := rfl

theorem bufGet_flipBit (b : PortBuffer) {k n : Nat} (hk : k < Config.bufBits) (hn : n < Config.bufBits) :
    bufGet (flipBit b k) n = if n = k then !bufGet b k else bufGet b n :=
  bufGet_writeBytes _ b.bytes k (!bufGet b k) rfl hk n hn

theorem bufGet_flipBit_self (b : PortBuffer) {k : Nat} (hk : k < Config.bufBits) :
    bufGet (flipBit b k) k = !bufGet b k := by
  rw [bufGet_flipBit b hk hk, if_pos rfl]

theorem bufGet_flipBit_of_ne (b : PortBuffer) {k n : Nat} (hk : k < Config.bufBits) (hn : n < Config.bufBits)
    (hne : n ≠ k) : bufGet (flipBit b k) n = bufGet b n := by
  rw [bufGet_flipBit b hk hn, if_neg hne]

theorem parityOf_succ (b : PortBuffer) (n : Nat) : parityOf b (n + 1) = (parityOf b n ^^ bufGet b n) := by
  rw [parityOf, List.range_succ, List.foldl_append]
  rfl

/-- The parity of the first `n` bits changes exactly when the inverted bit is one of them (R87). -/
theorem parityOf_flipBit (b : PortBuffer) {k : Nat} (hk : k < Config.bufBits) {n : Nat} (hn : n ≤ Config.bufBits) :
    parityOf (flipBit b k) n = (parityOf b n ^^ decide (k < n)) := by
  induction n with
  | zero => rfl
  | succ n ih =>
    rw [parityOf_succ, parityOf_succ, ih (by omega), bufGet_flipBit b hk (by omega)]
    rcases Nat.lt_trichotomy n k with h | rfl | h
    · have hn : ¬ k < n + 1 := by omega
      simp [h.ne, h.not_gt, hn]
    · simp
    · have hn : k < n + 1 := by omega
      simp [h, h.ne', hn]

/-! ### What an accepted frame is -/

/-- All six checks pass (R134). -/
structure ValidFrame (b : PortBuffer) : Prop extends HeaderReadable b where
  ownLength : lengthOf (fieldSum b 1 4) (bufGet b 5) = some b.pos.val
  evenParity : parityOf b b.pos.val = false

theorem interpret_eq_accept_iff {b : PortBuffer} {bc : Bool} {pkg : Package} :
    interpret b = .accept bc pkg ↔
      ValidFrame b ∧ bc = bufGet b 6 ∧ pkg = packageRead b (fieldSum b 1 4) (bufGet b 5) := by
  constructor
  · intro h
    have hfits : b.overflowed = false := by
      by_contra hover
      simp [interpret_of_overflowed (by simpa using hover)] at h
    have hlen : b.pos.val ∈ validLengths := by
      by_contra hlen
      simp [interpret_of_badLength hfits hlen] at h
    have hstart : bufGet b 0 = true := by
      by_contra hstart
      simp [interpret_of_badStart hfits hlen (by simpa using hstart)] at h
    have hb : HeaderReadable b := ⟨hfits, hlen, hstart⟩
    have hown : lengthOf (fieldSum b 1 4) (bufGet b 5) = some b.pos.val := by
      rcases hl : lengthOf (fieldSum b 1 4) (bufGet b 5) with _ | len
      · simp [interpret_of_noVariant hb hl] at h
      · by_contra hne
        have hne : b.pos.val ≠ len := fun he => hne (congrArg some he.symm)
        simp [interpret_of_otherLength hb hl hne] at h
    have heven : parityOf b b.pos.val = false := by
      by_contra hodd
      simp [interpret_of_oddParity hb hown (by simpa using hodd)] at h
    rw [interpret_of_evenParity hb hown heven, Interpreted.accept.injEq] at h
    exact ⟨⟨hb, hown, heven⟩, h.1.symm, h.2.symm⟩
  · rintro ⟨hb, rfl, rfl⟩
    exact interpret_of_evenParity hb.toHeaderReadable hb.ownLength hb.evenParity

/-- The record of a PKT.INTERPRET that was done is the interpretation of the buffer. -/
theorem interpret_of_exec {q : Port} {s : State} {x : Interpreted}
    (h : exec (.pktInterpret (argOf q)) s = .next (s.answer 0 (.interpreted x))) : interpret (s.rxPort q).buf = x := by
  cases hbuffered : (s.rxPort q).isDataBuffered
  · rw [exec_pktInterpret_of_empty hbuffered, Host.Outcome.next.injEq] at h
    exact absurd (congrArg (fun t : State => t.out.rdata) h) (by simp)
  · rw [exec_pktInterpret_of_buffered hbuffered, Host.Outcome.next.injEq] at h
    simpa using congrArg (fun t : State => t.out.rdata) h

theorem ValidFrame.pos_bounds {b : PortBuffer} (hb : ValidFrame b) : 8 ≤ b.pos.val ∧ b.pos.val ≤ 68 := by
  have hlen := (mem_validLengths _).mp hb.validLength
  simp only [List.mem_cons, List.not_mem_nil, or_false] at hlen
  omega

/-! ### The fields of a frame with other bits inverted -/

theorem fieldSum_congr {a b : PortBuffer} {n w : Nat} (h : ∀ k, k < w → bufGet a (n + k) = bufGet b (n + k)) :
    fieldSum a n w = fieldSum b n w :=
  Finset.sum_congr rfl fun k hk => by rw [h k (Finset.mem_range.mp hk)]

/-- The fields of a tail lie between the header and the parity bit (R58 to R67). -/
theorem layout_bounds {v : Variant} {f : Field} (hf : f ∈ layout v) : 7 ≤ f.pos ∧ f.pos + f.width < frameLen v := by
  have hall : ∀ f ∈ layout v, 7 ≤ f.pos ∧ f.pos + f.width < frameLen v := by cases v <;> decide
  exact hall f hf

/-- The package depends on the bits between the header and the parity bit only. -/
theorem packageOf_congr {a b : PortBuffer} {v : Variant}
    (h : ∀ n, 7 ≤ n → n + 1 < frameLen v → bufGet a n = bufGet b n) : packageOf a v = packageOf b v := by
  have hread (name : FieldName) : readField a v name = readField b v name := by
    rw [readField, readField, readNamed, readNamed]
    cases hf : fieldNamed (layout v) name with
    | none => rfl
    | some f =>
      obtain ⟨hlo, hhi⟩ := layout_bounds (List.mem_of_find?_eq_some hf)
      show getField a f.pos f.width = getField b f.pos f.width
      rw [getField_eq_fieldSum, getField_eq_fieldSum]
      exact fieldSum_congr fun k hk => h _ (by omega) (by omega)
  cases v <;> simp only [packageOf, readDuration, hread]

theorem packageRead_congr {a b : PortBuffer} {id : Nat} {range : Bool} {len : Nat} (hlen : lengthOf id range = some len)
    (h : ∀ n, 7 ≤ n → n + 1 < len → bufGet a n = bufGet b n) : packageRead a id range = packageRead b id range := by
  obtain ⟨v, -, rfl, rfl, rfl⟩ := exists_variant_of_lengthOf hlen
  rw [← packageOf_eq_packageRead, ← packageOf_eq_packageRead, packageOf_congr h]

/-! ### What is read after a flip (R139) -/

theorem interpret_flipBit_start {b : PortBuffer} (hb : ValidFrame b) : interpret (flipBit b 0) = .reject .badStart :=
  interpret_of_badStart hb.fits hb.validLength (by rw [bufGet_flipBit_self b (by decide), hb.startBit]; rfl)

section Flip

variable {b : PortBuffer} (hb : ValidFrame b) {k : Nat} (hk : k < b.pos.val)
include hb hk

theorem headerReadable_flipBit (h0 : k ≠ 0) : HeaderReadable (flipBit b k) where
  fits := hb.fits
  validLength := hb.validLength
  startBit := (bufGet_flipBit_of_ne b (hk.trans_le (pos_le b)) (by decide) h0.symm).trans hb.startBit

theorem parityOf_flipBit_of_valid : parityOf (flipBit b k) b.pos.val = true := by
  rw [parityOf_flipBit b (hk.trans_le (pos_le b)) (pos_le b), hb.evenParity, decide_eq_true hk]
  rfl

end Flip

/-- The broadcast bit and the parity bit inverted: the parity stays even and the package is the same. -/
theorem interpret_flipBit_flipBit {b : PortBuffer} (hb : ValidFrame b) :
    interpret (flipBit (flipBit b 6) (b.pos.val - 1)) =
      .accept (!bufGet b 6) (packageRead b (fieldSum b 1 4) (bufGet b 5)) := by
  obtain ⟨hlo, hhi⟩ := hb.pos_bounds
  have hbits : Config.bufBits = 72 := rfl
  have hother {n : Nat} (hn : n + 1 < b.pos.val) (h6 : n ≠ 6) :
      bufGet (flipBit (flipBit b 6) (b.pos.val - 1)) n = bufGet b n := by
    rw [bufGet_flipBit_of_ne _ (by omega) (by omega) (by omega), bufGet_flipBit_of_ne _ (by decide) (by omega) h6]
  have hbc : bufGet (flipBit (flipBit b 6) (b.pos.val - 1)) 6 = !bufGet b 6 := by
    rw [bufGet_flipBit_of_ne _ (by omega) (by omega) (by omega), bufGet_flipBit_self _ (by decide)]
  have hid : fieldSum (flipBit (flipBit b 6) (b.pos.val - 1)) 1 4 = fieldSum b 1 4 :=
    fieldSum_congr fun k hk => hother (by omega) (by omega)
  have hrange : bufGet (flipBit (flipBit b 6) (b.pos.val - 1)) 5 = bufGet b 5 := hother (by omega) (by omega)
  have heven : parityOf (flipBit (flipBit b 6) (b.pos.val - 1)) b.pos.val = false := by
    rw [parityOf_flipBit _ (by omega) (by omega), parityOf_flipBit_of_valid hb (by omega),
      decide_eq_true (by omega : b.pos.val - 1 < b.pos.val)]
    rfl
  refine interpret_eq_accept_iff.mpr ⟨⟨⟨hb.fits, hb.validLength, ?start⟩, ?own, heven⟩, hbc.symm, ?package⟩
  case start => exact (hother (by omega) (by decide)).trans hb.startBit
  case own => rw [hid, hrange]; exact hb.ownLength
  case package =>
    rw [hid, hrange]
    exact packageRead_congr hb.ownLength fun n h7 hn => (hother hn (by omega)).symm

/-- Settles O49: a flip at position 0 fails the start check; any other leaves an odd parity for the last check, which only a wrong
type or length can come before. -/
theorem singleBitErrorIsRejected : Obligations.SingleBitErrorIsRejected := by
  intro s t q bc pkg hs hbuffered
  obtain ⟨hb, rfl, rfl⟩ := interpret_eq_accept_iff.mp (interpret_of_exec hs)
  refine ⟨fun k hk ht => ?_, fun ht => ?_⟩
  · rw [exec_pktInterpret_of_buffered hbuffered, ht]
    by_cases h0 : k = 0
    · rw [if_pos h0, h0, interpret_flipBit_start hb]
    rw [if_neg h0]
    have hreadable := headerReadable_flipBit hb hk h0
    cases hl : lengthOf (fieldSum (flipBit (s.rxPort q).buf k) 1 4) (bufGet (flipBit (s.rxPort q).buf k) 5) with
    | none => rw [interpret_of_noVariant hreadable hl]
    | some len =>
      by_cases hlen : len = (s.rxPort q).buf.pos.val
      · rw [interpret_of_oddParity hreadable (hl.trans (congrArg some hlen)) (parityOf_flipBit_of_valid hb hk)]
        simp only [if_pos hlen]
      · rw [interpret_of_otherLength hreadable hl (Ne.symm hlen)]
        simp only [if_neg hlen]
  · rw [exec_pktInterpret_of_buffered hbuffered, ht, interpret_flipBit_flipBit hb]

end Sys2Proof.Proofs

/-! SUPPORT. The configuration and system operations (spec/45_config_system.md R141 to R144), each as one equation. -/

namespace Sys2Proof.Proofs

open Sys2Proof.Machine

/-! ### SYS.RESET and SYS.IRQEN: in every state -/

theorem exec_sysReset (s : State) : exec .sysReset s = .next (resetBlock s) := rfl

/-- Settles O11: the four groups of elements of a block that was reset. -/
theorem sysResetResult : Obligations.SysResetResult := fun s =>
  ⟨resetBlock s, exec_sysReset s, resetBlock_rx s, resetBlock_tx s, resetBlock_cfg s, resetBlock_sys s⟩

theorem exec_sysIrqen (e : Bool) (s : State) :
    exec (.sysIrqen e) s = .next ({ s with sys := { s.sys with irqEn := e } }.answer 0 .none) := rfl

/-- Settles O15: the operation has no check, so one equation holds for every state. -/
theorem sysIrqenResult : Obligations.SysIrqenResult := fun s e => exec_sysIrqen e s

/-! ### CFG.DELAY and CFG.SHIFT: refused while halted -/

/-- The row HALTED of R153, for a command that checks it first. -/
theorem require_running_of_fatal {s : State} (hf : s.sys.fatal = true) (k : Host.Outcome State Fault Refusal) :
    require (!s.sys.fatal) .halted s k = .next (s.answer 1 .none) := by
  rw [hf]
  rfl

theorem exec_cfgDelay_of_legal {d : Ts} {s : State} (hrun : s.sys.fatal = false) (hd : legalDelay d = true) :
    exec (.cfgDelay d) s = .next ((writeDelay d s).answer 0 .none) := by
  rw [exec_cfgDelay, hrun, hd]
  rfl

/-- Settles O13: the two refusals in their order; a legal delay is written with the values derived from it, read as numbers. -/
theorem cfgDelayResult : Obligations.CfgDelayResult := by
  intro s d
  refine ⟨fun hf => ?_, fun hrun hd => exec_cfgDelay_of_illegal hrun (legalDelay_eq_false_iff.mpr hd), fun hrun hd => ?_⟩
  · rw [exec_cfgDelay, require_running_of_fatal hf]
  · exact ⟨deriveHalf d, deriveShort d, deriveLong d, toNat_deriveHalf d, toNat_deriveShort d, toNat_deriveLong hd.2,
      exec_cfgDelay_of_legal hrun (legalDelay_eq_true_iff.mpr hd)⟩

theorem exec_cfgShift (sh : Ts) (s : State) :
    exec (.cfgShift sh) s =
      require (!s.sys.fatal) .halted s
        (finish .none { s with cfg := { s.cfg with txClockShift := sh, shiftUpdateable := true } }) := rfl

/-- Settles O14: the one refusal, and no check of the value, since every pattern is legal. -/
theorem cfgShiftResult : Obligations.CfgShiftResult := by
  intro s sh
  refine ⟨fun hf => ?_, fun hrun => ?_⟩
  · rw [exec_cfgShift, require_running_of_fatal hf]
  · rw [exec_cfgShift, hrun]
    rfl

end Sys2Proof.Proofs

/-! SUPPORT. The halted block (spec/45_config_system.md R147): what each group of operations does while the fatal fault is
latched, and the one frame of every operation but SYS.RESET. -/

namespace Sys2Proof.Proofs

open Sys2Proof.Machine

theorem eq_sim_or_argOf (p : PortArg) : p = .sim ∨ ∃ q, p = argOf q := by
  cases p
  · exact .inr ⟨.n, rfl⟩
  · exact .inr ⟨.e, rfl⟩
  · exact .inr ⟨.s, rfl⟩
  · exact .inl rfl

/-- Every staging operation, the constructors included, begins with the precondition of R91. -/
theorem exec_of_stagingPort {i : Instr} {p : PortArg} (hi : stagingPort i = some p) (s : State) :
    ∃ k, exec i s = staging p s k := by
  cases i <;> cases hi <;> exact ⟨_, rfl⟩

theorem exec_rxRead_argOf (q : Port) (s : State) :
    exec (.rxRead (argOf q)) s = .next (s.answer 0 (rxRecord (s.rxPort q))) := onPhysical_argOf ..

theorem exec_txStatus_argOf (q : Port) (s : State) :
    exec (.txStatus (argOf q)) s = .next (s.answer 0 (txRecord (s.txPort q))) := onPhysical_argOf ..

theorem exec_rxPoll (q : Port) (now : Ts) (s : State) :
    exec (.rxPoll (argOf q) now) s =
      .next ((pollLoop q now (pollBound q s) s).1.answer 0 (.stepped (pollLoop q now (pollBound q s) s).2)) :=
  onPhysical_argOf ..

/-! ### One group of operations at a time -/

section Halted

variable {i : Instr} {s : State} (hf : s.sys.fatal = true)
include hf

theorem exec_rxEdge_of_fatal (q : Port) (ts : Ts) (rising : Bool) : exec (.rxEdge (argOf q) ts rising) s = .next s :=
  (onPhysical_argOf ..).trans (by rw [if_pos hf])

/-- The first micro-step yields, and a poll always has one (R107). -/
theorem pollLoop_of_fatal (q : Port) (now : Ts) (k : Nat) : pollLoop q now (k + 1) s = (s, .yield) := by
  rw [pollLoop_succ, microStep_of_fatal q now hf]
  rfl

theorem exec_of_decodes_of_fatal {q : Port} (hi : decodes i q) : exec i s = .next (s.answer 0 (.stepped .yield)) := by
  obtain ⟨now, rfl | rfl⟩ := hi
  · rw [exec_rxStep, microStep_of_fatal q now hf]
  · rw [exec_rxPoll, pollBound, pollLoop_of_fatal hf]

/-- The row HALTED of R153. RX.CLEAR of `SIM` is refused before it, for its port. -/
theorem exec_of_refusedWhileHalted (hi : refusedWhileHalted i = true) (hport : i ≠ .rxClear .sim) :
    exec i s = .next (s.answer 1 .none) := by
  unfold refusedWhileHalted at hi
  split at hi
  next d => rw [exec_cfgDelay, require_running_of_fatal hf]
  next sh => rw [exec_cfgShift, require_running_of_fatal hf]
  next p =>
    obtain rfl | ⟨q, rfl⟩ := eq_sim_or_argOf p
    · exact absurd rfl hport
    · rw [exec_rxClear, onPhysical_argOf, require_running_of_fatal hf]
  next p now => rw [exec_txEnable, staging_of_fatal hf]
  next =>
    obtain ⟨p, hp⟩ := Option.isSome_iff_exists.mp hi
    obtain ⟨k, hk⟩ := exec_of_stagingPort hp s
    rw [hk, staging_of_fatal hf]

end Halted

/-! ### The frame -/

/-- The outcome is a next state that differs from `s` at most in the status and record outputs. -/
def AnswersOnly (s : State) (o : Host.Outcome State Fault Refusal) : Prop := ∃ c r, o = .next (s.answer c r)

theorem answersOnly_self (s : State) : AnswersOnly s (.next s) := ⟨s.out.status, s.out.rdata, rfl⟩

/-- An operation on a physical port is refused for `SIM`, so what it does on each port decides. -/
theorem answersOnly_of_ports {s : State} (f : PortArg → Instr) (hsim : exec (f .sim) s = .next (s.answer 3 .none))
    (hports : ∀ q, AnswersOnly s (exec (f (argOf q)) s)) (p : PortArg) : AnswersOnly s (exec (f p) s) := by
  obtain rfl | ⟨q, rfl⟩ := eq_sim_or_argOf p
  · exact ⟨3, .none, hsim⟩
  · exact hports q

theorem answersOnly_pktInterpret (q : Port) (s : State) : AnswersOnly s (exec (.pktInterpret (argOf q)) s) := by
  cases hbuffered : (s.rxPort q).isDataBuffered
  · exact ⟨9, .none, exec_pktInterpret_of_empty hbuffered⟩
  · exact ⟨0, _, exec_pktInterpret_of_buffered hbuffered⟩

theorem answersOnly_exec_of_fatal {i : Instr} {s : State} (hf : s.sys.fatal = true) (hreset : i ≠ .sysReset)
    (hirq : ∀ e, i ≠ .sysIrqen e) : AnswersOnly s (exec i s) := by
  cases i
  case sysReset => exact absurd rfl hreset
  case sysIrqen e => exact absurd rfl (hirq e)
  case sysStatus => exact ⟨0, sysRecord s, exec_sysStatus s⟩
  case txTick => rw [exec_txTick_of_fatal hf]; exact answersOnly_self s
  case rxEdge p ts rising =>
    refine answersOnly_of_ports (.rxEdge · ts rising) rfl (fun q => ?_) p
    rw [exec_rxEdge_of_fatal hf]
    exact answersOnly_self s
  case rxStep p now =>
    exact answersOnly_of_ports (.rxStep · now) rfl
      (fun q => ⟨0, .stepped .yield, exec_of_decodes_of_fatal hf ⟨now, .inl rfl⟩⟩) p
  case rxPoll p now =>
    exact answersOnly_of_ports (.rxPoll · now) rfl
      (fun q => ⟨0, .stepped .yield, exec_of_decodes_of_fatal hf ⟨now, .inr rfl⟩⟩) p
  case rxClear p =>
    refine answersOnly_of_ports .rxClear rfl (fun q => ⟨1, .none, exec_of_refusedWhileHalted hf rfl ?_⟩) p
    exact fun h => absurd (Instr.rxClear.inj h) (by cases q <;> decide)
  case rxRead p => exact answersOnly_of_ports .rxRead rfl (fun q => ⟨0, _, exec_rxRead_argOf q s⟩) p
  case txStatus p => exact answersOnly_of_ports .txStatus rfl (fun q => ⟨0, _, exec_txStatus_argOf q s⟩) p
  case pktInterpret p => exact answersOnly_of_ports .pktInterpret rfl (answersOnly_pktInterpret · s) p
  all_goals exact ⟨1, .none, exec_of_refusedWhileHalted hf rfl nofun⟩

/-- While halted every operation but SYS.RESET keeps ports, configuration, environment and strobe, and only SYS.IRQEN writes a
register. -/
theorem exec_frame_of_fatal {i : Instr} {s : State} (hf : s.sys.fatal = true) (hreset : i ≠ .sysReset) :
    ∃ t, exec i s = .next t ∧ t.rx = s.rx ∧ t.tx = s.tx ∧ t.cfg = s.cfg ∧ t.env = s.env ∧
      t.out.rxDone = s.out.rxDone ∧
      (∀ e, i = .sysIrqen e → t.sys = { s.sys with irqEn := e } ∧ t.out.status = 0) ∧
      ((∀ e, i ≠ .sysIrqen e) → t.sys = s.sys) := by
  by_cases hirq : ∃ e, i = .sysIrqen e
  · obtain ⟨e, rfl⟩ := hirq
    refine ⟨_, exec_sysIrqen e s, rfl, rfl, rfl, rfl, rfl, ?_, fun h => absurd rfl (h e)⟩
    rintro _ ⟨⟩
    exact ⟨rfl, rfl⟩
  · obtain ⟨c, r, h⟩ := answersOnly_exec_of_fatal hf hreset (not_exists.mp hirq)
    exact ⟨_, h, rfl, rfl, rfl, rfl, rfl, fun e hi => absurd ⟨e, hi⟩ hirq, fun _ => rfl⟩

theorem next_unique {o : Host.Outcome State Fault Refusal} {t u : State} (ht : o = .next t) (hu : o = .next u) : t = u :=
  Host.Outcome.next.inj (ht.symm.trans hu)

/-- Settles O52: the frame of a halted block gives the next state, and each group of operations says which one it is. -/
theorem haltedBlock : Obligations.HaltedBlock := by
  intro i s hf
  refine ⟨?reset, fun hreset => ?_⟩
  case reset =>
    rintro rfl
    exact ⟨resetBlock s, exec_sysReset s, rfl⟩
  obtain ⟨t, hnext, hrx, htx, hcfg, henv, hstrobe, hirqen, hsys⟩ := exec_frame_of_fatal hf hreset
  refine ⟨t, hnext, hrx, htx, hcfg, henv, hstrobe, hirqen, hsys, ?event, fun q hi => ?decoder, fun hi hport => ?refused,
    ?readOut, ?interpret⟩
  case event =>
    rintro (rfl | ⟨q, ts, rising, rfl⟩)
    · exact next_unique hnext (exec_txTick_of_fatal hf)
    · exact next_unique hnext (exec_rxEdge_of_fatal hf q ts rising)
  case decoder =>
    rw [next_unique hnext (exec_of_decodes_of_fatal hf hi)]
    exact ⟨rfl, rfl⟩
  case refused => rw [next_unique hnext (exec_of_refusedWhileHalted hf hi hport), answer_status]
  case readOut =>
    rintro (rfl | ⟨q, rfl | rfl⟩)
    · rw [next_unique hnext (exec_sysStatus s), answer_status]
    · rw [next_unique hnext (exec_rxRead_argOf q s), answer_status]
    · rw [next_unique hnext (exec_txStatus_argOf q s), answer_status]
  case interpret =>
    rintro q rfl
    cases hbuffered : (s.rxPort q).isDataBuffered
    · rw [next_unique hnext (exec_pktInterpret_of_empty hbuffered), answer_status]; decide
    · rw [next_unique hnext (exec_pktInterpret_of_buffered hbuffered), answer_status]; decide

end Sys2Proof.Proofs

/-! SUPPORT. Command words (spec/30_encoding.md R71 to R74): the fields of a word and of its slots read back as they were written,
and the words that name no operation. -/

namespace Sys2Proof.Proofs

open Sys2Proof.Machine

/-! ### Fields and slots (R71, R72) -/

theorem toNat_word (op : BitVec 6) (pp : BitVec 2) : (word op pp).toNat = 4 * op.toNat + pp.toNat := by
  have hpp := pp.isLt
  have hshift : op.toNat <<< 2 ||| pp.toNat = 2 ^ 2 * op.toNat + pp.toNat := by
    rw [Nat.shiftLeft_eq, Nat.mul_comm, Nat.two_pow_add_eq_or_of_lt hpp]
  rw [word, BitVec.toNat_append, hshift]
  rfl

@[simp] theorem opField_word (op : BitVec 6) (pp : BitVec 2) : opField (word op pp) = op.toNat := by
  have hpp := pp.isLt
  rw [opField, toNat_word]
  omega

@[simp] theorem portField_word (op : BitVec 6) (pp : BitVec 2) : portField (word op pp) = pp := by
  have hpp := pp.isLt
  apply BitVec.eq_of_toNat_eq
  rw [portField, BitVec.toNat_setWidth, toNat_word]
  omega

@[simp] theorem portOfCode_code (p : PortArg) : portOfCode p.code = p := by cases p <;> rfl

@[simp] theorem slotBit_bitSlot (b : Bool) : slotBit (bitSlot b) = b := by cases b <;> rfl

@[simp] theorem slotU2_setWidth (x : BitVec 2) : slotU2 (x.setWidth 16) = x :=
  BitVec.setWidth_setWidth_of_le x (by decide) |>.trans (BitVec.setWidth_eq x)

@[simp] theorem slotU8_setWidth (x : U8) : slotU8 (x.setWidth 16) = x :=
  BitVec.setWidth_setWidth_of_le x (by decide) |>.trans (BitVec.setWidth_eq x)

@[simp] theorem slotTs_eq (x : Ts) : slotTs x = x := BitVec.setWidth_eq x

@[simp] theorem portless_word_zero (op : BitVec 6) (i : Instr) : portless (word op 0#2) i = .ok i :=
  if_pos (portField_word op 0#2)

/-- Settles O1: the word gives the operation number and the port back, and every slot its operand. -/
theorem decodeOfEncodeIsTheOperation : Obligations.DecodeOfEncodeIsTheOperation := by
  intro i _
  cases i <;> simp [encode, decode]

/-- Settles O2: the eight words are evaluated. -/
theorem sampleWordsDecode : Obligations.SampleWordsDecode := by
  refine ⟨?_, ?_, ?_, ?_, ?_, ?_, ?_, ?_⟩ <;> rfl

/-! ### Words that name no operation, or an operation that refuses its port (R74) -/

@[simp] theorem toNat_portField (cmd : U8) : (portField cmd).toNat = cmd.toNat % 4 := BitVec.toNat_setWidth ..

theorem portless_of_port {cmd : U8} (hpp : cmd.toNat % 4 ≠ 0) (i : Instr) :
    portless cmd i = .error (.portOnPortless (opField cmd)) := by
  refine if_neg fun h => hpp ?_
  rw [← toNat_portField, h]
  rfl

theorem decode_of_reservedOp {c : Command}
    (hop : 5 ≤ opField c.cmd ∧ opField c.cmd ≤ 7 ∨ opField c.cmd = 0x0E ∨ opField c.cmd = 0x0F ∨
      0x16 ≤ opField c.cmd ∧ opField c.cmd ≤ 0x1F ∨ 0x2A ≤ opField c.cmd) :
    ∃ e, decode c = .error e := by
  unfold decode
  generalize opField c.cmd = op at hop ⊢
  split
  case h_28 => exact ⟨_, rfl⟩
  all_goals omega

theorem decode_of_portOnPortless {c : Command} (hop : opField c.cmd ≤ 4 ∨ opField c.cmd = 0x11)
    (hpp : c.cmd.toNat % 4 ≠ 0) : ∃ e, decode c = .error e := by
  have hnumbers : opField c.cmd = 0 ∨ opField c.cmd = 1 ∨ opField c.cmd = 2 ∨ opField c.cmd = 3 ∨ opField c.cmd = 4 ∨
      opField c.cmd = 0x11 := by omega
  unfold decode
  rcases hnumbers with h | h | h | h | h | h <;> rw [h] <;> exact ⟨_, portless_of_port hpp _⟩

/-- Port 3 on an operation of a physical port: the word decodes, to the operation on `SIM`, which refuses it. -/
theorem decode_of_simOnPhysical {c : Command} (hop : 8 ≤ opField c.cmd ∧ opField c.cmd ≤ 0x0D ∨ opField c.cmd = 0x12)
    (hpp : c.cmd.toNat % 4 = 3) : ∃ i, decode c = .ok i ∧ ∀ s, exec i s = .next (s.answer 3 .none) := by
  have hsim : portOfCode (portField c.cmd) = .sim := by simp [portOfCode, hpp]
  have hnumbers : opField c.cmd = 8 ∨ opField c.cmd = 9 ∨ opField c.cmd = 0x0A ∨ opField c.cmd = 0x0B ∨
      opField c.cmd = 0x0C ∨ opField c.cmd = 0x0D ∨ opField c.cmd = 0x12 := by omega
  unfold decode
  rw [hsim]
  rcases hnumbers with h | h | h | h | h | h | h <;> rw [h] <;> refine ⟨_, rfl, fun s => ?_⟩ <;> rfl

end Sys2Proof.Proofs

/-! SUPPORT. Delivery (spec/60_exceptions.md R154 to R158; log entries 3 to 5): what the fetch of a step takes from each kind of
input and from each pending interrupt, as one equation of the step. -/

namespace Sys2Proof.Proofs

open Sys2Proof.Machine

/-! ### The input at the head of the queue -/

section Inputs

variable {s : State} {rest : List Input} (hpending : NothingPending s)
include hpending

theorem step_of_command {c : Command} {i : Instr} (hin : s.env.inputs = .command c :: rest) (hc : decode c = .ok i) :
    step s = exec i (afterInput rest s) := by
  simp [step, fetch_of_nothingPending hpending, fetchInput, hin, fetchCommand, hc, setInputs_endStrobe]

theorem step_of_illegalCommand {c : Command} {e : DecodeError} (hin : s.env.inputs = .command c :: rest)
    (hc : decode c = .error e) : step s = .next ((afterInput rest s).answer 2 .none) := by
  simp [step, fetch_of_nothingPending hpending, fetchInput, hin, fetchCommand, hc, setInputs_endStrobe, refuse,
    Reason.code]

theorem step_of_resetPin (hin : s.env.inputs = .resetPin :: rest) : step s = exec .sysReset (afterInput rest s) := by
  simp [step, fetch_of_nothingPending hpending, fetchInput, hin, setInputs_endStrobe]

theorem step_of_noInput (hin : s.env.inputs = []) : step s = .next (afterInput [] s) := by
  have hkept : setInputs [] (endStrobe s) = endStrobe s := by rw [setInputs, endStrobe_env, ← hin]; rfl
  simp [step, fetch_of_nothingPending hpending, fetchInput, hin, ← setInputs_endStrobe, hkept]

theorem step_of_pinChange {p : Port} {ts : Ts} {level : Bool} (hen : s.sys.irqEn = true)
    (hin : s.env.inputs = .pinChange p ts level :: rest) :
    step s = exec (.rxEdge (argOf p) ts level) (afterInput rest s) := by
  have hen' : (afterInput rest s).sys.irqEn = true := hen
  simp [step, fetch_of_nothingPending hpending, fetchInput, hin, fetchPinChange, setInputs_endStrobe, hen']

theorem step_of_counter {tcnt : Ts} (hen : s.sys.irqEn = true) (hin : s.env.inputs = .counter tcnt :: rest) :
    step s =
      if txIrqEnable s = true ∧ tcnt = s.sys.txCompare then exec .txTick (afterInput rest s)
      else .next (afterInput rest s) := by
  have hfetch : fetch s = fetchCounter tcnt (afterInput rest s) := by
    simp [fetch_of_nothingPending hpending, fetchInput, hin, setInputs_endStrobe]
  have hmatch : (txIrqEnable (afterInput rest s) && tcnt == (afterInput rest s).sys.txCompare) =
      decide (txIrqEnable s = true ∧ tcnt = s.sys.txCompare) := by
    rw [Bool.decide_and, Bool.decide_eq_true, ← Bool.beq_eq_decide_eq]
    rfl
  have hen' : (afterInput rest s).sys.irqEn = true := hen
  rw [step, hfetch, fetchCounter, hmatch, hen']
  by_cases h : txIrqEnable s = true ∧ tcnt = s.sys.txCompare <;> simp [h]

end Inputs

/-- Settles O3: a reserved number and a port where none is taken do not decode; port 3 decodes to an operation on `SIM`. -/
theorem reservedWordsAreRefused : Obligations.ReservedWordsAreRefused := by
  intro s c rest hin hpending op pp
  have hop : opField c.cmd = op := rfl
  refine ⟨fun hillegal => ?_, fun ⟨hphysical, hsim⟩ => ?_⟩
  · have herr : ∃ e, decode c = .error e := by
      rcases hillegal with h | h | h | h | h | ⟨h, hpp⟩
      · exact decode_of_reservedOp (.inl h)
      · exact decode_of_reservedOp (.inr (.inl h))
      · exact decode_of_reservedOp (.inr (.inr (.inl h)))
      · exact decode_of_reservedOp (.inr (.inr (.inr (.inl h))))
      · exact decode_of_reservedOp (.inr (.inr (.inr (.inr h))))
      · exact decode_of_portOnPortless h hpp
    obtain ⟨e, he⟩ := herr
    exact step_of_illegalCommand hpending hin he
  · obtain ⟨i, hi, hexec⟩ := decode_of_simOnPhysical (c := c) hphysical hsim
    rw [step_of_command hpending hin hi, hexec]

/-- Settles O4. -/
theorem stepRunsTheDecodedCommand : Obligations.StepRunsTheDecodedCommand := fun _ _ _ _ hin hpending hc =>
  step_of_command hpending hin hc

/-- Settles O5: the two kinds of input that interrupts come from, the second split by its condition. -/
theorem unmaskedInterruptsAreDelivered : Obligations.UnmaskedInterruptsAreDelivered := by
  intro s rest hen hpending
  refine ⟨fun p ts level hin => step_of_pinChange hpending hen hin, fun tcnt hin => ⟨fun hmatch hbusy => ?_, fun h => ?_⟩⟩
  · rw [step_of_counter hpending hen hin, if_pos ⟨(txIrqEnable_iff s).mpr hbusy, hmatch⟩]
  · rw [step_of_counter hpending hen hin, if_neg]
    rintro ⟨hirq, hmatch⟩
    rcases h with hne | hquiet
    · exact hne hmatch
    · exact absurd hirq (by simp [(txIrqEnable_eq_false_iff s).mpr hquiet])

/-- Settles O8: the reset input, and the word 0, which decodes to the same operation. -/
theorem resetInputIsSysReset : Obligations.ResetInputIsSysReset := fun _ _ hpending =>
  ⟨step_of_resetPin hpending, fun hin => step_of_command hpending hin rfl⟩

/-! ### Interrupts while masked (R157) -/

/-- A masked interrupt input is no operation: it ends the strobe, is taken, and is at most remembered. -/
theorem fetchInput_of_masked {s : State} {x : Input} {rest : List Input} (hmasked : s.sys.irqEn = false)
    (hin : s.env.inputs = x :: rest) (hx : (∃ p ts level, x = .pinChange p ts level) ∨ ∃ tcnt, x = .counter tcnt) :
    (fetchInput s).2 = .idle ∧ (fetchInput s).1.env.inputs = rest := by
  have hmasked' : (setInputs rest s).sys.irqEn = false := hmasked
  rcases hx with ⟨p, ts, level, rfl⟩ | ⟨tcnt, rfl⟩
  · simp only [fetchInput, hin, fetchPinChange, hmasked']
    split
    · exact absurd ‹false = true› (by decide)
    · split <;> exact ⟨rfl, rfl⟩
  · simp only [fetchInput, hin, fetchCounter, hmasked']
    split
    · exact ⟨rfl, rfl⟩
    · split
      · exact absurd ‹false = true› (by decide)
      · split <;> exact ⟨rfl, rfl⟩

/-- Settles O6: the step is idle, and a fetch keeps the block and all outputs but the strobe. -/
theorem maskedInterruptsChangeNothing : Obligations.MaskedInterruptsChangeNothing := by
  intro s x rest hmasked hin hx
  obtain ⟨hblock, hout⟩ := fetch_frame s
  obtain ⟨hidle, htaken⟩ := fetchInput_of_masked (s := endStrobe s) hmasked hin hx
  rw [← fetch_of_nothingPending (.inl hmasked)] at hidle htaken
  refine ⟨(fetch s).1, ?_, hblock, hout, htaken⟩
  rw [step, show fetch s = ((fetch s).1, .idle) from Prod.ext rfl hidle]

/-! ### Pending interrupts (R157, R158) -/

theorem step_of_pendingEdge {s : State} {p : Port} {x : Snapshot} (hen : s.sys.irqEn = true)
    (hfirst : firstPending s.env.pendingEdge = some (p, x)) :
    step s = exec (.rxEdge (argOf p) x.ts x.rising) (setPendingEdge p none (endStrobe s)) := by
  simp [step, fetch, hen, hfirst]

theorem step_of_pendingTick {s : State} (hen : s.sys.irqEn = true) (hnone : ∀ p, s.env.pendingEdge.get p = none)
    (htick : s.env.pendingTick = true) (hbusy : txIrqEnable s = true) :
    step s = exec .txTick (setPendingTick false (endStrobe s)) := by
  have hbusy' : txIrqEnable (endStrobe s) = true := hbusy
  simp [step, fetch, firstPending, hen, hnone, htick, hbusy']

/-- Settles O7: the order of `firstPending`, and the match after it. -/
theorem pendingInterruptsComeFirst : Obligations.PendingInterruptsComeFirst := by
  intro s x hen pending edge
  refine ⟨fun hn => ?_, fun hn he => ?_, fun hn he hs => ?_, step_of_pendingTick hen⟩
  · exact step_of_pendingEdge hen (by simp only [pending] at hn; simp [firstPending, hn])
  · exact step_of_pendingEdge hen (by simp only [pending] at hn he; simp [firstPending, hn, he])
  · exact step_of_pendingEdge hen (by simp only [pending] at hn he hs; simp [firstPending, hn, he, hs])

/-! ### The quiescent block (R190) -/

/-- Settles O9: in START with an empty ring the first micro-step of a poll yields; with nothing to do the step ends the
strobe. -/
theorem quiescentBlockDoesNothing : Obligations.QuiescentBlockDoesNothing := by
  intro s _ hquiet
  refine ⟨fun p now => ?_, fun hpending hin => step_of_noInput hpending hin⟩
  obtain ⟨hempty, hstart⟩ := hquiet p
  have hyield : microStep p now s = (s, .yield) := by
    cases hf : s.sys.fatal with
    | true => exact microStep_of_fatal p now hf
    | false => rw [microStep_start now hf hstart, stepStart_of_hold (.inr ((ringEmpty_iff _).mp hempty))]
  have hpoll : pollLoop p now (pollBound p s) s = (s, .yield) := by
    rw [pollBound, pollLoop_succ, hyield]
    rfl
  rw [exec_rxPoll, hpoll]

end Sys2Proof.Proofs

/-! SUPPORT. The snapshot ring as a queue (spec/41_rx_capture.md R92 to R95) and what RX.EDGE does with it (R97). -/

namespace Sys2Proof.Proofs

open Sys2Proof.Machine

/-! ### The count and the two indices (R21, R92) -/

theorem ringNext_val (i : Fin Config.cap) : (ringNext i).val = (i.val + 1) % 29 := rfl

theorem ringCount_eq (q : Ring) : ringCount q = (q.stop.val + 29 - q.start.val) % 29 := rfl

theorem ringCount_lt (q : Ring) : ringCount q < 29 := Nat.mod_lt _ (by decide)

@[simp] theorem length_ringQueue (q : Ring) : (ringQueue q).length = ringCount q := by simp [ringQueue]

theorem ringEmpty_iff_count (q : Ring) : ringEmpty q = true ↔ ringCount q = 0 := by
  have hstart := q.start.isLt
  have hstop := q.stop.isLt
  simp only [Config.cap] at hstart hstop
  rw [ringEmpty_iff, Fin.ext_iff, ringCount_eq]
  omega

theorem ringFull_iff_count (q : Ring) : ringFull q = true ↔ ringCount q = 28 := by
  have hstart := q.start.isLt
  have hstop := q.stop.isLt
  simp only [Config.cap] at hstart hstop
  rw [ringFull_iff, ringCount_eq]
  omega

/-- Settles O21: every row is a comparison of the two indices mod 29. -/
theorem ringCountBounds : Obligations.RingCountBounds := fun q =>
  ⟨Nat.le_of_lt_succ (ringCount_lt q), length_ringQueue q, ringEmpty_iff q, ringEmpty_iff_count q, ringFull_iff_count q,
    ringFull_iff q⟩

/-- The queue has its snapshot number `k` in the slot `k` after the start. -/
theorem getElem_ringQueue (q : Ring) {k : Nat} (hk : k < (ringQueue q).length) :
    (ringQueue q)[k] = q.slot[(ringIndex (q.start.val + k)).val] := by simp [ringQueue]

/-! ### Enqueue and dequeue (R93, R94) -/

theorem ringCount_enqueue {q : Ring} (hroom : ringFull q = false) (sn : Snapshot) :
    ringCount (ringEnqueue q sn) = ringCount q + 1 := by
  have hstart := q.start.isLt
  have hstop := q.stop.isLt
  simp only [Config.cap] at hstart hstop
  rw [← Bool.not_eq_true, ringFull_iff] at hroom
  rw [ringEnqueue_of_room (by rwa [← Bool.not_eq_true, ringFull_iff]), ringCount_eq, ringCount_eq, ringNext_val]
  dsimp only
  omega

theorem ringCount_dequeue {q : Ring} (hne : ringEmpty q = false) : ringCount q = ringCount (ringDequeue q) + 1 := by
  have hstart := q.start.isLt
  have hstop := q.stop.isLt
  simp only [Config.cap] at hstart hstop
  rw [ringEmpty_eq_false_iff, ne_eq, Fin.ext_iff] at hne
  rw [ringCount_eq, ringCount_eq, ringDequeue, ringNext_val]
  dsimp only
  omega

/-- The slot written is behind the last one queued, so the snapshots queued before stay. -/
theorem ringQueue_enqueue {q : Ring} (hroom : ringFull q = false) (sn : Snapshot) :
    ringQueue (ringEnqueue q sn) = ringQueue q ++ [sn] := by
  have hstart := q.start.isLt
  have hstop := q.stop.isLt
  simp only [Config.cap] at hstart hstop
  have hcount := ringCount_enqueue hroom sn
  refine List.ext_getElem (by simp [hcount]) fun k hk _ => ?_
  rw [length_ringQueue, hcount] at hk
  simp only [getElem_ringQueue, ringEnqueue_of_room hroom, List.getElem_append, length_ringQueue, Vector.getElem_set,
    ringIndex_val, List.getElem_singleton]
  rcases Nat.lt_or_ge k (ringCount q) with hold | hnew
  · rw [dif_pos hold, if_neg (by rw [ringCount_eq] at hold; omega)]
  · rw [dif_neg hnew.not_gt, if_pos (by rw [ringCount_eq] at hk hnew; omega)]

/-- The queue loses its first snapshot, the one `ring_peek` shows (R95). -/
theorem ringQueue_eq_cons {q : Ring} (hne : ringEmpty q = false) :
    ringQueue q = ringPeek q :: ringQueue (ringDequeue q) := by
  have hstart := q.start.isLt
  simp only [Config.cap] at hstart
  refine List.ext_getElem (by simp [ringCount_dequeue hne]) fun k hk _ => ?_
  cases k with
  | zero => simp [getElem_ringQueue, ringPeek, ringIndex_val, Nat.mod_eq_of_lt hstart]
  | succ k =>
    have hslot : (ringNext q.start).val + k ≡ q.start.val + (k + 1) [MOD 29] := by
      rw [ringNext_val, Nat.add_comm k, ← Nat.add_assoc]
      exact (Nat.mod_modEq _ 29).add_right k
    simp only [getElem_ringQueue, List.getElem_cons_succ, ringDequeue, ringIndex_val]
    congr 1
    exact hslot.symm

/-- Settles O20: an enqueue with room appends, one without only raises the flag, a dequeue takes the head. -/
theorem ringIsFirstInFirstOut : Obligations.RingIsFirstInFirstOut := by
  intro q sn
  refine ⟨?_, fun hroom => ⟨ringQueue_enqueue hroom sn, ?_, ringEnqueue_start q sn⟩,
    fun hfull => ringEnqueue_of_full hfull sn, fun hne => ⟨ringQueue_eq_cons hne, rfl, rfl⟩⟩
  · rw [ringEnqueueStored_eq, Bool.not_eq_true']
  · rw [ringEnqueue_of_room hroom]

/-! ### RX.EDGE (R97) -/

/-- `SNAP_PACKED` is at its default (log entry 2), so the snapshot is the captured value and level. -/
theorem captureEdge_of_room {q : Port} {s : State} (hroom : ringFull (s.rxPort q).ring = false) (ts : Ts) (rising : Bool) :
    captureEdge q ts rising s =
      s.setRx q { s.rxPort q with ring := ringEnqueue (s.rxPort q).ring { ts := ts, rising := rising } } :=
  if_pos (by rw [ringEnqueueStored_eq, hroom]; rfl)

theorem captureEdge_of_full {q : Port} {s : State} (hfull : ringFull (s.rxPort q).ring = true) (ts : Ts) (rising : Bool) :
    captureEdge q ts rising s =
      raiseFatal .ringOverflow q
        (s.setRx q { s.rxPort q with ring := { (s.rxPort q).ring with overflowed := true } }) := by
  have hdropped : ¬ ringEnqueueStored (s.rxPort q).ring = true := by simp [hfull]
  rw [← ringEnqueue_of_full hfull (snapMake ts rising)]
  exact if_neg hdropped

theorem exec_rxEdge (q : Port) (ts : Ts) (rising : Bool) (s : State) :
    exec (.rxEdge (argOf q) ts rising) s = .next (if s.sys.fatal then s else captureEdge q ts rising s) :=
  onPhysical_argOf ..

theorem exec_rxEdge_of_running {s : State} (hrun : s.sys.fatal = false) (q : Port) (ts : Ts) (rising : Bool) :
    exec (.rxEdge (argOf q) ts rising) s = .next (captureEdge q ts rising s) := by
  rw [exec_rxEdge, hrun]
  rfl

/-- Settles O25: halted, or the edge captured with or without room in the ring. -/
theorem rxEdgeResult : Obligations.RxEdgeResult := by
  intro s q ts rising r
  refine ⟨fun hf => exec_rxEdge_of_fatal hf q ts rising, fun hrun hne => ?room, fun hrun heq => ?full⟩
  case room =>
    have hroom : ringFull r.ring = false := by rwa [← Bool.not_eq_true, ringFull_iff]
    rw [exec_rxEdge_of_running hrun, captureEdge_of_room hroom, ringEnqueue_of_room hroom]
    rfl
  case full =>
    rw [exec_rxEdge_of_running hrun, captureEdge_of_full ((ringFull_iff _).mpr heq)]
    exact congrArg _ (raiseFatal_of_running .ringOverflow q hrun)

end Sys2Proof.Proofs

/-! SUPPORT. Sanity of shared operations: the fatal latch (spec/60_exceptions.md R149), what reset keeps (log entries 6, 12) and the
flag bits that the table of spec/30_encoding.md R79 does not list (log entry 18). -/

namespace Sys2Proof.Proofs

open Sys2Proof.Machine

/-- The latch is closed: the first fault's registers are written back as they are. -/
theorem raiseFatal_of_fatal (c : Cause) (p : Port) {s : State} (hf : s.sys.fatal = true) : raiseFatal c p s = s := by
  have hsys : { s.sys with fatal := true } = s.sys := by rw [← hf]
  rw [raiseFatal, if_pos hf, if_pos hf]
  exact congrArg (fun y => { s with sys := y }) hsys

/-- Settles O50: the latch closed, and open. -/
theorem firstFaultIsKept : Obligations.FirstFaultIsKept := fun _ c p =>
  ⟨raiseFatal_of_fatal c p, raiseFatal_of_running c p⟩

/-- Settles O12: the two groups of fields that `resetBlock` gives no reset value of the block. -/
theorem resetKeepsTheEnvironment : Obligations.ResetKeepsTheEnvironment := fun s =>
  ⟨resetBlock s, exec_sysReset s, resetBlock_env s, resetBlock_out s⟩

/-- A field of a byte whose bits are all 0. -/
theorem extractLsb'_eq_zero {f : U8} {k w : Nat} (h : ∀ j, j < w → f.getLsbD (k + j) = false) : f.extractLsb' k w = 0 := by
  apply BitVec.eq_of_getLsbD_eq
  intro j hj
  rw [BitVec.getLsbD_extractLsb', h j hj, Bool.and_false]
  exact BitVec.getLsbD_zero.symm

theorem rxFlags_unlisted (r : RxPort) : (rxFlags r).extractLsb' 5 3 = 0 := by
  refine extractLsb'_eq_zero fun j hj => ?_
  have hstate : (decStateCode r.dec.state).getLsbD (5 + j - 3) = false := BitVec.getLsbD_of_ge _ _ (by omega)
  rw [getLsbD_rxFlags r (by omega), hstate]
  simp
  omega

theorem txFlags_unlisted (x : TxPort) : (txFlags x).extractLsb' 4 4 = 0 := by
  refine extractLsb'_eq_zero fun j hj => ?_
  rw [getLsbD_txFlags x (by omega)]
  simp
  omega

/-- Settles O17: the flag bytes that the two read-outs answer have no bit above the listed ones. -/
theorem unlistedFlagBitsReadZero : Obligations.UnlistedFlagBitsReadZero := fun s q =>
  ⟨⟨rxFlags (s.rxPort q), exec_rxRead_argOf q s, rxFlags_unlisted _⟩,
    ⟨txFlags (s.txPort q), exec_txStatus_argOf q s, txFlags_unlisted _⟩⟩

end Sys2Proof.Proofs

/-! SUPPORT. The refusal table of spec/60_exceptions.md R153: an operation as a chain of checks, row by row, and from it that no
operation but the tick can fail to answer a next state. -/

namespace Sys2Proof.Proofs

open Sys2Proof.Machine

/-! ### Rows in checking order -/

/-- The reason of the first of these rows whose condition holds. -/
def firstOf (rows : List (Bool × Reason)) : Option Reason := (rows.find? (·.1)).map (·.2)

theorem firstReason_eq (i : Instr) (s : State) : firstReason i s = firstOf (refusalRows i s) := rfl

/-- The outcome `o` of a command in state `s` is what these rows say: refused with the first reason that applies and nothing else
written, or done. -/
def FollowsRows (s : State) (rows : List (Bool × Reason)) (o : Host.Outcome State Fault Refusal) : Prop :=
  (∀ r, firstOf rows = some r → o = .next (s.answer r.code .none)) ∧
    (firstOf rows = none → ∃ t, o = .next t ∧ t.out.status = 0)

section Rows

variable {s : State} {rows : List (Bool × Reason)} {o : Host.Outcome State Fault Refusal}

theorem followsRows_nil (r : Record) (s t : State) : FollowsRows s [] (finish r t) :=
  ⟨fun _ h => absurd h nofun, fun _ => ⟨t.answer 0 r, rfl, rfl⟩⟩

/-- A row whose condition holds. -/
theorem followsRows_refused {c : Bool} (r : Reason) (hc : c = true) :
    FollowsRows s ((c, r) :: rows) (.next (s.answer r.code .none)) := by
  subst hc
  refine ⟨fun r' h => ?_, fun h => absurd h nofun⟩
  obtain rfl : r = r' := Option.some.inj h
  rfl

/-- A row that the operation checks: its condition is that the check fails. -/
theorem followsRows_require {c d : Bool} (r : Reason) (hcd : c = !d) (h : FollowsRows s rows o) :
    FollowsRows s ((c, r) :: rows) (require d r s o) := by
  cases d
  · exact followsRows_refused r hcd
  · subst hcd
    exact h

end Rows

/-! ### The conditions of the table as the checks of the operations -/

theorem someTarget_eq_not_all (p : PortArg) (s : State) (f : TxPort → Bool) :
    someTarget p s f = !(targets p).all fun q => !f (s.txPort q) := by
  simp only [someTarget, List.all_eq_not_any_not, Bool.not_not]

theorem busy_eq_not_idle (p : PortArg) (s : State) : someTarget p s (fun t => t.isTransmitting) = !targetsIdle p s :=
  someTarget_eq_not_all ..

theorem notStaged_eq_not_staged (p : PortArg) (s : State) :
    someTarget p s (fun t => t.dataEnd.val == 0) = !targetsStaged p s := by
  rw [someTarget_eq_not_all, targetsStaged]
  congr 2
  funext q
  rcases Nat.eq_zero_or_pos (s.txPort q).dataEnd.val with h | h
  · simp [h]
  · simp [h, h.ne']

theorem overflowed_eq_not_fit (p : PortArg) (s : State) : someTarget p s (fun t => t.buf.overflowed) = !targetsFit p s :=
  someTarget_eq_not_all ..

theorem badWidth_eq_not_ok (p : PortArg) (v w : U16) : badOperand (.txPut p v w) = !putWidthOk w := by
  simp only [badOperand, putWidthOk, Bool.not_and, ← decide_not, Nat.not_le]

theorem badDelay_eq_not_legal (d : Ts) : badOperand (.cfgDelay d) = !legalDelay d := by
  simp only [badOperand, legalDelay, Bool.not_and, ← decide_not, Nat.not_le]

theorem badRange_eq_not_ordered (p : PortArg) (tlRow tlCol brRow brCol : U8) (startTs duration : U16) (wires : BitVec 2)
    (bc : Bool) :
    badRange (.pktHeatrng p tlRow tlCol brRow brCol startTs duration wires bc) = !cornersOrdered tlRow tlCol brRow brCol := by
  simp only [badRange, cornersOrdered, Bool.not_and, ← decide_not, BitVec.not_le, BitVec.lt_def]

/-! ### Every command

Each operation checks the rows that concern it; of the eight rows of the table the others read `false` for it. -/

section Commands

variable {s : State}

/-- The first two rows of a staging operation, and of TX.ENABLE, are the precondition of R91. -/
theorem followsRows_staging {p : PortArg} {rows : List (Bool × Reason)} {k : Host.Outcome State Fault Refusal}
    (h : FollowsRows s rows k) :
    FollowsRows s ((s.sys.fatal, .halted) :: (someTarget p s (fun t => t.isTransmitting), .busy) :: rows) (staging p s k) :=
  followsRows_require _ (Bool.not_not _).symm (followsRows_require _ (busy_eq_not_idle p s) h)

/-- An operation of a physical port: `SIM` is refused before any other check (R74). -/
theorem followsRows_onPhysical {rows : PortArg → List (Bool × Reason)} {k : Port → Host.Outcome State Fault Refusal}
    (h : ∀ q, FollowsRows s (rows (argOf q)) (k q)) (p : PortArg) :
    FollowsRows s ((!p.isPhysical, .badPort) :: rows p) (onPhysical p s k) := by
  obtain rfl | ⟨q, rfl⟩ := eq_sim_or_argOf p
  · exact followsRows_refused _ rfl
  · have hphysical : (!(argOf q).isPhysical) = false := by cases q <;> rfl
    rw [hphysical, onPhysical_argOf]
    exact h q

/-- The condition of the row NOT_BUFFERED. -/
def emptyPort (p : PortArg) (s : State) : Bool := (physical p).any fun q => !(s.rxPort q).isDataBuffered

theorem emptyPort_argOf (q : Port) (s : State) : emptyPort (argOf q) s = !(s.rxPort q).isDataBuffered := by
  rw [emptyPort, physical_argOf]
  rfl

theorem followsRows_cfgDelay (d : Ts) :
    FollowsRows s [(s.sys.fatal, .halted), (badOperand (.cfgDelay d), .badOperand)] (exec (.cfgDelay d) s) :=
  followsRows_require _ (Bool.not_not _).symm (followsRows_require _ (badDelay_eq_not_legal d) (followsRows_nil ..))

theorem followsRows_cfgShift (sh : Ts) : FollowsRows s [(s.sys.fatal, .halted)] (exec (.cfgShift sh) s) :=
  followsRows_require _ (Bool.not_not _).symm (followsRows_nil ..)

theorem followsRows_rxClear (p : PortArg) :
    FollowsRows s [(!p.isPhysical, .badPort), (s.sys.fatal, .halted), (emptyPort p s, .notBuffered)]
      (exec (.rxClear p) s) :=
  followsRows_onPhysical (rows := fun p => [(s.sys.fatal, .halted), (emptyPort p s, .notBuffered)])
    (fun q => followsRows_require _ (Bool.not_not _).symm (followsRows_require _ (emptyPort_argOf q s) (followsRows_nil ..))) p

theorem followsRows_pktInterpret (p : PortArg) :
    FollowsRows s [(!p.isPhysical, .badPort), (emptyPort p s, .notBuffered)] (exec (.pktInterpret p) s) :=
  followsRows_onPhysical (rows := fun p => [(emptyPort p s, .notBuffered)])
    (fun q => followsRows_require _ (emptyPort_argOf q s) (followsRows_nil ..)) p

theorem followsRows_txEnable (p : PortArg) (now : Ts) :
    FollowsRows s
      [(s.sys.fatal, .halted), (someTarget p s (fun t => t.isTransmitting), .busy),
        (someTarget p s (fun t => t.dataEnd.val == 0), .notStaged), (someTarget p s (fun t => t.buf.overflowed), .txOverflowed)]
      (exec (.txEnable p now) s) :=
  followsRows_staging (followsRows_require _ (notStaged_eq_not_staged p s)
    (followsRows_require _ (overflowed_eq_not_fit p s) (followsRows_nil ..)))

theorem followsRows_txPut (p : PortArg) (v w : U16) :
    FollowsRows s
      [(s.sys.fatal, .halted), (someTarget p s (fun t => t.isTransmitting), .busy), (badOperand (.txPut p v w), .badOperand)]
      (exec (.txPut p v w) s) :=
  followsRows_staging (followsRows_require _ (badWidth_eq_not_ok p v w) (followsRows_nil ..))

theorem followsRows_pktHeatrng (p : PortArg) (tlRow tlCol brRow brCol : U8) (startTs duration : U16) (wires : BitVec 2)
    (bc : Bool) :
    FollowsRows s
      [(s.sys.fatal, .halted), (someTarget p s (fun t => t.isTransmitting), .busy),
        (badRange (.pktHeatrng p tlRow tlCol brRow brCol startTs duration wires bc), .rangeOrder)]
      (exec (.pktHeatrng p tlRow tlCol brRow brCol startTs duration wires bc) s) :=
  followsRows_staging
    (followsRows_require _ (badRange_eq_not_ordered p tlRow tlCol brRow brCol startTs duration wires bc) (followsRows_nil ..))

/-- Every operation that is no event is answered as the table says. -/
theorem followsRows_exec {i : Instr} (hi : isEvent i = false) (s : State) :
    FollowsRows s (refusalRows i s) (exec i s) := by
  cases i
  case rxEdge => cases hi
  case txTick => cases hi
  case sysReset => exact ⟨fun _ h => absurd h nofun, fun _ => ⟨resetBlock s, exec_sysReset s, rfl⟩⟩
  case sysStatus => exact followsRows_nil _ s s
  case sysIrqen => exact followsRows_nil _ s _
  case cfgDelay d => exact followsRows_cfgDelay d
  case cfgShift sh => exact followsRows_cfgShift sh
  case rxStep p now => exact followsRows_onPhysical (rows := fun _ => []) (fun _ => followsRows_nil ..) p
  case rxPoll p now => exact followsRows_onPhysical (rows := fun _ => []) (fun _ => followsRows_nil ..) p
  case rxRead p => exact followsRows_onPhysical (rows := fun _ => []) (fun _ => followsRows_nil ..) p
  case txStatus p => exact followsRows_onPhysical (rows := fun _ => []) (fun _ => followsRows_nil ..) p
  case rxClear p => exact followsRows_rxClear p
  case pktInterpret p => exact followsRows_pktInterpret p
  case txEnable p now => exact followsRows_txEnable p now
  case txPut p v w => exact followsRows_txPut p v w
  case pktHeatrng p tlRow tlCol brRow brCol startTs duration wires bc =>
    exact followsRows_pktHeatrng p tlRow tlCol brRow brCol startTs duration wires bc
  all_goals exact followsRows_staging (followsRows_nil ..)

end Commands

/-! ### Events and delivery -/

theorem captureEdge_out (q : Port) (ts : Ts) (rising : Bool) (s : State) : (captureEdge q ts rising s).out = s.out := by
  simp only [captureEdge]
  split <;> rfl

theorem out_of_rxEdge {s t : State} {q : Port} {ts : Ts} {rising : Bool}
    (h : exec (.rxEdge (argOf q) ts rising) s = .next t) : t.out = s.out := by
  rw [exec_rxEdge] at h
  obtain rfl := Host.Outcome.next.inj h
  split
  · rfl
  · exact captureEdge_out q ts rising s

theorem out_of_txTick {s t : State} (h : exec .txTick s = .next t) : t.out = s.out := by
  rw [exec_txTick] at h
  rcases execTxTick_cases s with ⟨-, e⟩ | ⟨-, p, -, -, e⟩ | ⟨-, x, -, e⟩ <;> rw [e] at h <;> cases h <;> rfl

/-- Settles O53: every command follows its rows, a word that does not decode is refused by the step, and the two events keep the
outputs. -/
theorem refusalTable : Obligations.RefusalTable := by
  refine ⟨fun i s hi => ?_, fun s c e rest hin hpending hc => step_of_illegalCommand hpending hin hc,
    fun s t h => out_of_txTick h, fun s t q ts rising h => out_of_rxEdge h⟩
  rw [firstReason_eq]
  exact followsRows_exec hi s

/-! ### The one fault of the model (log entry 10) -/

/-- Every operation but the tick answers a next state. -/
theorem exec_next_of_ne_tick {i : Instr} (hi : i ≠ .txTick) (s : State) : ∃ t, exec i s = .next t := by
  by_cases hevent : isEvent i = true
  · cases i <;> simp only [isEvent, Bool.false_eq_true] at hevent
    case txTick => exact absurd rfl hi
    case rxEdge p ts rising =>
      obtain rfl | ⟨q, rfl⟩ := eq_sim_or_argOf p
      · exact ⟨s.answer 3 .none, rfl⟩
      · exact ⟨_, exec_rxEdge q ts rising s⟩
  · obtain ⟨hrefused, hdone⟩ := followsRows_exec (Bool.not_eq_true _ ▸ hevent) s
    cases hfirst : firstOf (refusalRows i s) with
    | some r => exact ⟨_, hrefused r hfirst⟩
    | none => exact (hdone hfirst).imp fun _ h => h.1

/-- A half step would read position 72 (R85, R116). -/
def ReadsAtEnd (x : TxPort) : Prop :=
  x.isTransmitting = true ∧ x.buf.pos.val = Config.bufBits ∧ ¬ (x.secondHalf = false ∧ x.dataEnd.val = Config.bufBits)

theorem readsAtEnd_iff {x : TxPort} : ReadsAtEnd x ↔ x.isTransmitting = true ∧ txHalfStep x = none := by
  rw [txHalfStep_eq_none_iff]
  refine and_congr_right fun _ => and_congr_right fun hfull => ?_
  rw [hfull, eq_comm (a := Config.bufBits)]

theorem exec_txTick_fault_iff (s : State) :
    (∃ f, exec .txTick s = .fault f) ↔ s.sys.fatal = false ∧ ∃ q, ReadsAtEnd (s.txPort q) := by
  simp only [readsAtEnd_iff]
  rw [exec_txTick]
  constructor
  · rintro ⟨f, h⟩
    rcases execTxTick_cases s with ⟨-, e⟩ | ⟨hrun, p, hbusy, hnone, -⟩ | ⟨-, x, -, e⟩
    · rw [e] at h; cases h
    · exact ⟨hrun, p, hbusy, hnone⟩
    · rw [e] at h; cases h
  · rintro ⟨hrun, q, hbusy, hnone⟩
    rcases execTxTick_cases s with ⟨hf, -⟩ | ⟨-, p, -, -, e⟩ | ⟨-, x, hx, -⟩
    · exact absurd hf (by simp [hrun])
    · exact ⟨_, e⟩
    · exact absurd (hx q) (by rw [tickPort_of_transmitting hbusy, hnone]; nofun)

theorem exec_txTick_ne_refused (s : State) (r : Refusal) : exec .txTick s ≠ .refused r := by
  rw [exec_txTick]
  rcases execTxTick_cases s with ⟨-, e⟩ | ⟨-, p, -, -, e⟩ | ⟨-, x, -, e⟩ <;> rw [e] <;> nofun

/-- Settles O38: every operation but the tick answers a next state, and the tick faults exactly where a half step reads at the
end. -/
theorem onlyTheTickCanStop : Obligations.OnlyTheTickCanStop := by
  intro i s
  by_cases hi : i = .txTick
  · subst hi
    refine ⟨exec_txTick_ne_refused s, ?_⟩
    rw [exec_txTick_fault_iff]
    exact (and_iff_right rfl).symm
  · obtain ⟨t, ht⟩ := exec_next_of_ne_tick hi s
    rw [ht]
    exact ⟨nofun, iff_of_false nofun fun h => hi h.1⟩

end Sys2Proof.Proofs

/-! SUPPORT. What a micro-step of the decoder can do (spec/42_decoder.md R102 to R106), said once, and the poll as a chain of
micro-steps (R107). -/

namespace Sys2Proof.Proofs

open Sys2Proof.Machine

/-! ### One micro-step -/

/-- What a micro-step of port `q` can do in `s`: the state it leads to and what it answers. Of a consumed snapshot's buffer only
the overflow flag is told apart, since that is what may raise the fatal fault. -/
inductive MicroStep (q : Port) (s : State) : State → StepResult → Prop
  | halted (hf : s.sys.fatal = true) : MicroStep q s s .yield
  | held (hdec : (s.rxPort q).dec.state = .start) : MicroStep q s s .yield
  | waiting (hdec : (s.rxPort q).dec.state = .decoding) : MicroStep q s s .yield
  | discarded (hrun : s.sys.fatal = false) (hdec : (s.rxPort q).dec.state = .start)
      (hfree : (s.rxPort q).isDataBuffered = false) (hne : ringEmpty (s.rxPort q).ring = false) :
      MicroStep q s (s.setRx q { s.rxPort q with ring := ringDequeue (s.rxPort q).ring }) .again
  | started (hrun : s.sys.fatal = false) (hdec : (s.rxPort q).dec.state = .start)
      (hfree : (s.rxPort q).isDataBuffered = false) (hne : ringEmpty (s.rxPort q).ring = false) :
      MicroStep q s
        (s.setRx q
          { s.rxPort q with
            ring := ringDequeue (s.rxPort q).ring
            dec := { state := .decoding, phase := 0, refTs := (ringPeek (s.rxPort q).ring).ts, halfCycles := 0 }
            buf := ptrStart (s.rxPort q).buf }) .again
  | consumed (hrun : s.sys.fatal = false) (hdec : (s.rxPort q).dec.state = .decoding)
      (hne : ringEmpty (s.rxPort q).ring = false) (adv : Nat) (b : PortBuffer)
      (hb : b.overflowed = (s.rxPort q).buf.overflowed) :
      MicroStep q s (consumedInto q adv (ringPeek (s.rxPort q).ring) b s) .again
  | overflowed (hrun : s.sys.fatal = false) (hdec : (s.rxPort q).dec.state = .decoding)
      (hne : ringEmpty (s.rxPort q).ring = false) (adv : Nat) (hfull : (s.rxPort q).buf.pos.val = Config.bufBits) :
      MicroStep q s
        (raiseFatal .bitbufOverflow q
          (consumedInto q adv (ringPeek (s.rxPort q).ring) { (s.rxPort q).buf with overflowed := true } s)) .again
  | ended (hrun : s.sys.fatal = false) (hdec : (s.rxPort q).dec.state = .decoding) :
      MicroStep q s (setDecState q .postTimeoutProcess s) .again
  | completed (hrun : s.sys.fatal = false) (hdec : (s.rxPort q).dec.state = .postTimeoutProcess) :
      MicroStep q s (stepComplete q s).1 .done

section Inversion

variable {q : Port} {s : State}

theorem microStep_stepStart (hrun : s.sys.fatal = false) (hdec : (s.rxPort q).dec.state = .start) :
    MicroStep q s (stepStart q s).1 (stepStart q s).2 := by
  by_cases hhold : (s.rxPort q).isDataBuffered = true ∨ (s.rxPort q).ring.start = (s.rxPort q).ring.stop
  · rw [stepStart_of_hold hhold]
    exact .held hdec
  · obtain ⟨hheld, hne⟩ := not_or.mp hhold
    have hfree := Bool.eq_false_of_not_eq_true hheld
    cases hlevel : (ringPeek (s.rxPort q).ring).rising with
    | true =>
      rw [stepStart_of_rising hfree hne hlevel]
      exact .discarded hrun hdec hfree (ringEmpty_eq_false_iff.mpr hne)
    | false =>
      rw [stepStart_of_falling hfree hne hlevel]
      exact .started hrun hdec hfree (ringEmpty_eq_false_iff.mpr hne)

theorem bufPut_overflowed_of_room {b : PortBuffer} (hroom : b.pos.val < Config.bufBits) (v : Bool) :
    (bufPut b v).overflowed = b.overflowed := by simp [bufPut_overflowed, hroom.ne]

theorem microStep_consume (hrun : s.sys.fatal = false) (hdec : (s.rxPort q).dec.state = .decoding)
    (hne : ringEmpty (s.rxPort q).ring = false) (adv : Nat) :
    MicroStep q s (consume q adv (ringPeek (s.rxPort q).ring) s) .again := by
  by_cases hodd : (advance adv (s.rxPort q)).dec.phase.toNat % 2 = 1
  · rcases (pos_le (s.rxPort q).buf).lt_or_eq with hroom | hfull
    · rw [consume_of_odd_of_room _ hodd hroom]
      exact .consumed hrun hdec hne adv _ (bufPut_overflowed_of_room hroom _)
    · rw [consume_of_odd_of_full _ hodd hfull]
      exact .overflowed hrun hdec hne adv hfull
  · rw [consume_of_even _ hodd]
    exact .consumed hrun hdec hne adv _ rfl

theorem microStep_stepQueued (hrun : s.sys.fatal = false) (hdec : (s.rxPort q).dec.state = .decoding)
    (hne : ringEmpty (s.rxPort q).ring = false) : MicroStep q s (stepQueued q s).1 (stepQueued q s).2 := by
  cases h : queuedInterval q s with
  | overdue => rw [stepQueued_of_overdue h]; exact .ended hrun hdec
  | short => rw [stepQueued_of_short h]; exact microStep_consume hrun hdec hne 1
  | long => rw [stepQueued_of_long h]; exact microStep_consume hrun hdec hne 2

theorem microStep_stepTimeout (hrun : s.sys.fatal = false) (hdec : (s.rxPort q).dec.state = .decoding) (now : Ts) :
    MicroStep q s (stepTimeout q now s).1 (stepTimeout q now s).2 := by
  by_cases h : 2 * s.cfg.clockDelay.toNat ≤ (sub16 now (s.rxPort q).dec.refTs).toNat
  · rw [stepTimeout_of_elapsed h]; exact .ended hrun hdec
  · rw [stepTimeout_of_waiting h]; exact .waiting hdec

end Inversion

theorem microStep_cases (q : Port) (now : Ts) (s : State) : MicroStep q s (microStep q now s).1 (microStep q now s).2 := by
  cases hf : s.sys.fatal with
  | true => rw [microStep_of_fatal q now hf]; exact .halted hf
  | false =>
    cases hdec : (s.rxPort q).dec.state with
    | start => rw [microStep_start now hf hdec]; exact microStep_stepStart hf hdec
    | decoding =>
      cases hempty : ringEmpty (s.rxPort q).ring with
      | true =>
        rw [microStep_timeout now hf hdec ((ringEmpty_iff _).mp hempty)]
        exact microStep_stepTimeout hf hdec now
      | false =>
        rw [microStep_queued now hf hdec (ringEmpty_eq_false_iff.mp hempty)]
        exact microStep_stepQueued hf hdec hempty
    | postTimeoutProcess => rw [microStep_complete now hf hdec]; exact .completed hf hdec

/-! ### The port after a micro-step -/

@[simp] theorem consumedInto_rxPort_self (q : Port) (adv : Nat) (sn : Snapshot) (b : PortBuffer) (s : State) :
    (consumedInto q adv sn b s).rxPort q =
      { advance adv (s.rxPort q) with
        dec := { (advance adv (s.rxPort q)).dec with refTs := sn.ts }
        buf := b } := rxPort_setRx_self ..

@[simp] theorem setDecState_rxPort_self (q : Port) (st : DecState) (s : State) :
    (setDecState q st s).rxPort q = { s.rxPort q with dec := { (s.rxPort q).dec with state := st } } :=
  rxPort_setRx_self ..

@[simp] theorem stepComplete_rxPort_self (q : Port) (s : State) :
    (stepComplete q s).1.rxPort q =
      { s.rxPort q with isDataBuffered := true, dec := { (s.rxPort q).dec with state := .start } } :=
  rxPort_setRx_self s q _

/-- How many more times a poll can go on: once for every queued snapshot, and once to end the package (R107, R188). -/
def pollMeasure (q : Port) (s : State) : Nat :=
  ringCount (s.rxPort q).ring + if (s.rxPort q).dec.state = .postTimeoutProcess then 0 else 1

theorem pollMeasure_lt {q : Port} {s t : State} (h : MicroStep q s t .again) : pollMeasure q t < pollMeasure q s := by
  cases h with
  | discarded _ hdec _ hne => simp [pollMeasure, hdec, ringCount_dequeue hne]
  | started _ hdec _ hne => simp [pollMeasure, hdec, ringCount_dequeue hne]
  | consumed _ hdec hne => simp [pollMeasure, advance, hdec, ringCount_dequeue hne]
  | overflowed _ hdec hne => simp [pollMeasure, advance, hdec, ringCount_dequeue hne]
  | ended _ hdec => simp [pollMeasure, hdec]

/-! ### The outputs of a command are nothing to a micro-step

Each row of the decoder applies in `s.answer c r` exactly where it applies in `s`, and writes no status and no record. -/

section Answer

variable (q : Port) (s : State) (c : U8) (r : Record)

theorem consume_answer (adv : Nat) (sn : Snapshot) : consume q adv sn (s.answer c r) = (consume q adv sn s).answer c r := by
  by_cases hodd : (advance adv (s.rxPort q)).dec.phase.toNat % 2 = 1
  · rcases (pos_le (s.rxPort q).buf).lt_or_eq with hroom | hfull
    · rw [consume_of_odd_of_room sn hodd hroom]
      exact consume_of_odd_of_room (s := s.answer c r) sn hodd hroom
    · rw [consume_of_odd_of_full sn hodd hfull]
      exact consume_of_odd_of_full (s := s.answer c r) sn hodd hfull
  · rw [consume_of_even sn hodd]
    exact consume_of_even (s := s.answer c r) sn hodd

theorem stepStart_answer : stepStart q (s.answer c r) = ((stepStart q s).1.answer c r, (stepStart q s).2) := by
  by_cases hhold : (s.rxPort q).isDataBuffered = true ∨ (s.rxPort q).ring.start = (s.rxPort q).ring.stop
  · rw [stepStart_of_hold hhold]
    exact stepStart_of_hold (s := s.answer c r) hhold
  · obtain ⟨hheld, hne⟩ := not_or.mp hhold
    have hfree := Bool.eq_false_of_not_eq_true hheld
    cases hlevel : (ringPeek (s.rxPort q).ring).rising with
    | true =>
      rw [stepStart_of_rising hfree hne hlevel]
      exact stepStart_of_rising (s := s.answer c r) hfree hne hlevel
    | false =>
      rw [stepStart_of_falling hfree hne hlevel]
      exact stepStart_of_falling (s := s.answer c r) hfree hne hlevel

theorem stepQueued_answer : stepQueued q (s.answer c r) = ((stepQueued q s).1.answer c r, (stepQueued q s).2) := by
  cases h : queuedInterval q s with
  | overdue => rw [stepQueued_of_overdue h]; exact stepQueued_of_overdue (s := s.answer c r) h
  | short =>
    rw [stepQueued_of_short h, ← consume_answer]
    exact stepQueued_of_short (s := s.answer c r) h
  | long =>
    rw [stepQueued_of_long h, ← consume_answer]
    exact stepQueued_of_long (s := s.answer c r) h

theorem stepTimeout_answer (now : Ts) :
    stepTimeout q now (s.answer c r) = ((stepTimeout q now s).1.answer c r, (stepTimeout q now s).2) := by
  by_cases h : 2 * s.cfg.clockDelay.toNat ≤ (sub16 now (s.rxPort q).dec.refTs).toNat
  · rw [stepTimeout_of_elapsed h]; exact stepTimeout_of_elapsed (s := s.answer c r) h
  · rw [stepTimeout_of_waiting h]; exact stepTimeout_of_waiting (s := s.answer c r) h

theorem microStep_answer (now : Ts) :
    microStep q now (s.answer c r) = ((microStep q now s).1.answer c r, (microStep q now s).2) := by
  cases hf : s.sys.fatal with
  | true => rw [microStep_of_fatal q now hf]; exact microStep_of_fatal q now (s := s.answer c r) hf
  | false =>
    cases hdec : (s.rxPort q).dec.state with
    | start =>
      rw [microStep_start now hf hdec, ← stepStart_answer]
      exact microStep_start (s := s.answer c r) now hf hdec
    | decoding =>
      by_cases hempty : (s.rxPort q).ring.start = (s.rxPort q).ring.stop
      · rw [microStep_timeout now hf hdec hempty, ← stepTimeout_answer]
        exact microStep_timeout (s := s.answer c r) now hf hdec hempty
      · rw [microStep_queued now hf hdec hempty, ← stepQueued_answer]
        exact microStep_queued (s := s.answer c r) now hf hdec hempty
    | postTimeoutProcess =>
      rw [microStep_complete now hf hdec]
      exact microStep_complete (s := s.answer c r) now hf hdec

end Answer

theorem pollLoop_answer (q : Port) (now : Ts) (k : Nat) (s : State) (c : U8) (r : Record) :
    pollLoop q now k (s.answer c r) = ((pollLoop q now k s).1.answer c r, (pollLoop q now k s).2) := by
  induction k generalizing s with
  | zero => rfl
  | succ k ih =>
    rw [pollLoop_succ, pollLoop_succ, microStep_answer]
    split
    · exact ih _
    · rfl

/-! ### Runs of operations -/

theorem runOps_cons {i : Instr} {is : List Instr} {s t : State} (h : exec i s = .next t) : runOps (i :: is) s = runOps is t := by
  rw [runOps, h]

theorem runOps_append {is js : List Instr} {s t : State} (h : runOps is s = .next t) :
    runOps (is ++ js) s = runOps js t := by
  induction is generalizing s with
  | nil => obtain rfl := Host.Outcome.next.inj h; rfl
  | cons i is ih =>
    rw [runOps] at h
    cases hi : exec i s with
    | next u => rw [hi] at h; exact (runOps_cons hi).trans (ih h)
    | fault f => rw [hi] at h; cases h
    | refused r => rw [hi] at h; cases h

/-- A poll with enough fuel is a run of steps: the last one answers what the poll answers, the ones before it go on. -/
def PollRuns (q : Port) (now : Ts) (fuel : Nat) (s : State) (o : State × StepResult) : Prop :=
  ∃ k, 1 ≤ k ∧ k ≤ fuel ∧
    runOps (List.replicate k (.rxStep (argOf q) now)) s = .next (o.1.answer 0 (.stepped o.2)) ∧ o.2 ≠ .again ∧
    ∀ j, 0 < j → j < k →
      ∃ u, runOps (List.replicate j (.rxStep (argOf q) now)) s = .next u ∧ u.out.rdata = .stepped .again

theorem pollRuns_pollLoop (q : Port) (now : Ts) {fuel : Nat} {s : State} (hfuel : pollMeasure q s < fuel) :
    PollRuns q now fuel s (pollLoop q now fuel s) := by
  induction fuel generalizing s with
  | zero => omega
  | succ fuel ih =>
    have hstep := exec_rxStep q now s
    rw [pollLoop_succ]
    split
    next hagain =>
      have hless := pollMeasure_lt (hagain ▸ microStep_cases q now s)
      obtain ⟨k, hk, hkfuel, hruns, hlast, hbefore⟩ :=
        ih (s := (microStep q now s).1.answer 0 (.stepped .again)) (by exact hless.trans_le (Nat.le_of_lt_succ hfuel))
      rw [pollLoop_answer] at hruns hlast
      rw [hagain] at hstep
      refine ⟨k + 1, by omega, by omega, (runOps_cons hstep).trans hruns, hlast, fun j hj hjk => ?_⟩
      obtain ⟨j, rfl⟩ := Nat.exists_eq_add_of_le' hj
      rw [List.replicate_succ, runOps_cons hstep]
      rcases Nat.eq_zero_or_pos j with rfl | hj
      · exact ⟨_, rfl, rfl⟩
      · exact hbefore j hj (by omega)
    next hlast => exact ⟨1, le_rfl, by omega, runOps_cons hstep, hlast, fun j hj hjk => by omega⟩

/-- Settles O32: the fuel of a poll exceeds its measure, so it is a run of steps. -/
theorem rxPollIsRepeatedStep : Obligations.RxPollIsRepeatedStep := by
  intro s q now
  have hfuel : pollMeasure q s < pollBound q s := by
    rw [pollMeasure, pollBound]
    split <;> omega
  obtain ⟨k, hk, hkfuel, hruns, hlast, hbefore⟩ := pollRuns_pollLoop q now hfuel
  refine ⟨k, _, hk, hkfuel, exec_rxPoll q now s, hruns, ?_, hbefore⟩
  rw [answer_rdata]
  cases hres : (pollLoop q now (pollBound q s) s).2 with
  | again => exact absurd hres hlast
  | yield => exact .inl rfl
  | done => exact .inr rfl

end Sys2Proof.Proofs

/-! SUPPORT. What an operation can do, said once: the next states of `exec`, one constructor per kind of effect, and two claims
read off it, the strobe of a completed package (spec/42_decoder.md R110) and the causes of the fatal fault
(spec/60_exceptions.md R151). -/

namespace Sys2Proof.Proofs

open Sys2Proof.Machine

/-! ### The effects of an operation -/

/-- What a staging operation writes on each target port. -/
inductive StagingWrite : (TxPort → TxPort) → Prop
  | clear : StagingWrite clearPort
  | put (v : U16) (w : Nat) : StagingWrite (putPort v w)
  | parity : StagingWrite sealPort
  | frame (v : Variant) (bc : Bool) (values : List (FieldName × U16)) : StagingWrite (stageFrame v bc values)

/-- The state in which a tick leaves the block, with `x` for its transmit ports (R117). -/
def tickedInto (x : PerPort TxPort) (s : State) : State :=
  { s with tx := x, sys := { s.sys with txCompare := add16 s.sys.txCompare s.cfg.halfDelay } }

/-- How operation `i` may take `s` to a next state. RX.STEP is a poll of one micro-step. -/
inductive Effect (i : Instr) (s : State) : State → Prop
  | reset (hi : i = .sysReset) : Effect i s (resetBlock s)
  | answered (c : U8) (r : Record) : Effect i s (s.answer c r)
  | delaySet (d : Ts) (hd : legalDelay d = true) : Effect i s ((writeDelay d s).answer 0 .none)
  | shiftSet (sh : Ts) :
      Effect i s ({ s with cfg := { s.cfg with txClockShift := sh, shiftUpdateable := true } }.answer 0 .none)
  | irqSet (e : Bool) : Effect i s ({ s with sys := { s.sys with irqEn := e } }.answer 0 .none)
  | captured (q : Port) (ts : Ts) (rising : Bool) (hi : i = .rxEdge (argOf q) ts rising) (hrun : s.sys.fatal = false) :
      Effect i s (captureEdge q ts rising s)
  | decoded (q : Port) (now : Ts) (k : Nat) (r : Record) (hi : decodes i q) :
      Effect i s ((pollLoop q now k s).1.answer 0 r)
  | released (q : Port) (hheld : (s.rxPort q).isDataBuffered = true) :
      Effect i s
        ((s.setRx q { s.rxPort q with buf := bufClear (s.rxPort q).buf, isDataBuffered := false }).answer 0 .none)
  | staged (p : PortArg) (f : TxPort → TxPort) (hf : StagingWrite f)
      (hidle : ∀ q ∈ targets p, (s.txPort q).isTransmitting = false) :
      Effect i s ((updateTargets p f s).answer 0 .none)
  | armed (p : PortArg) (now : Ts) (hidle : ∀ q ∈ targets p, (s.txPort q).isTransmitting = false)
      (hstaged : ∀ q ∈ targets p, (s.txPort q).dataEnd.val ≠ 0)
      (hfit : ∀ q ∈ targets p, (s.txPort q).buf.overflowed = false) :
      Effect i s ((startCadence now (txIrqEnable s) (updateTargets p armPort s)).answer 0 .none)
  | ticked (x : PerPort TxPort) (hx : ∀ q, tickPort (s.txPort q) = some (x.get q)) : Effect i s (tickedInto x s)

/-- Whatever next state `o` answers, it is an effect of `i` in `s`. -/
def EffectOutcome (i : Instr) (s : State) (o : Host.Outcome State Fault Refusal) : Prop := ∀ t, o = .next t → Effect i s t

section Ends

variable {i : Instr} {s : State} {k : Host.Outcome State Fault Refusal}

theorem effectOutcome_next {u : State} (h : Effect i s u) : EffectOutcome i s (.next u) := by
  rintro t ⟨⟩
  exact h

theorem effectOutcome_require {c : Bool} (r : Reason) (h : c = true → EffectOutcome i s k) :
    EffectOutcome i s (require c r s k) := by
  intro t ht
  rcases require_eq_next.mp ht with ⟨-, rfl⟩ | ⟨hc, hk⟩
  · exact .answered _ _
  · exact h hc t hk

theorem effectOutcome_onPhysical {p : PortArg} {k : Port → Host.Outcome State Fault Refusal}
    (h : ∀ q, p = argOf q → EffectOutcome i s (k q)) : EffectOutcome i s (onPhysical p s k) := by
  intro t ht
  rcases onPhysical_eq_next ht with ⟨-, rfl⟩ | ⟨q, hp, hk⟩
  · exact .answered _ _
  · exact h q hp t hk

theorem effectOutcome_staging {p : PortArg}
    (h : (∀ q ∈ targets p, (s.txPort q).isTransmitting = false) → EffectOutcome i s k) :
    EffectOutcome i s (staging p s k) := by
  intro t ht
  rcases staging_eq_next ht with ⟨-, rfl⟩ | ⟨-, -, rfl⟩ | ⟨-, hidle, hk⟩
  · exact .answered _ _
  · exact .answered _ _
  · exact h ((targetsIdle_iff p s).mp hidle) t hk

theorem effectOutcome_readOut (r : Record) : EffectOutcome i s (finish r s) := effectOutcome_next (.answered 0 r)

theorem effectOutcome_stagingWrite {p : PortArg} {f : TxPort → TxPort} (hf : StagingWrite f)
    (hidle : ∀ q ∈ targets p, (s.txPort q).isTransmitting = false) :
    EffectOutcome i s (finish .none (updateTargets p f s)) :=
  effectOutcome_next (.staged p f hf hidle)

end Ends

/-- A poll of one micro-step leaves what the micro-step leaves. -/
theorem pollLoop_one (q : Port) (now : Ts) (s : State) : (pollLoop q now 1 s).1 = (microStep q now s).1 := by
  rw [pollLoop_succ]
  split <;> rfl

/-- A halted event changes nothing, and so only keeps the outputs. -/
theorem effect_refl (i : Instr) (s : State) : Effect i s s := .answered s.out.status s.out.rdata

theorem effectOutcome_rxEdge (p : PortArg) (ts : Ts) (rising : Bool) (s : State) :
    EffectOutcome (.rxEdge p ts rising) s (exec (.rxEdge p ts rising) s) := by
  refine effectOutcome_onPhysical fun q hp => effectOutcome_next ?_
  subst hp
  cases hf : s.sys.fatal with
  | true => exact effect_refl _ s
  | false => exact .captured q ts rising rfl hf

theorem effectOutcome_rxStep (p : PortArg) (now : Ts) (s : State) :
    EffectOutcome (.rxStep p now) s (exec (.rxStep p now) s) := by
  obtain rfl | ⟨q, rfl⟩ := eq_sim_or_argOf p
  · exact effectOutcome_next (.answered 3 .none)
  · rw [exec_rxStep, ← pollLoop_one]
    exact effectOutcome_next (.decoded q now 1 _ ⟨now, .inl rfl⟩)

theorem effectOutcome_rxPoll (p : PortArg) (now : Ts) (s : State) :
    EffectOutcome (.rxPoll p now) s (exec (.rxPoll p now) s) := by
  obtain rfl | ⟨q, rfl⟩ := eq_sim_or_argOf p
  · exact effectOutcome_next (.answered 3 .none)
  · rw [exec_rxPoll]
    exact effectOutcome_next (.decoded q now (pollBound q s) _ ⟨now, .inr rfl⟩)

theorem effectOutcome_rxClear (p : PortArg) (s : State) : EffectOutcome (.rxClear p) s (exec (.rxClear p) s) :=
  effectOutcome_onPhysical fun q _ => effectOutcome_require _ fun _ => effectOutcome_require _ fun hheld =>
    effectOutcome_next (.released q hheld)

theorem effectOutcome_txEnable (p : PortArg) (now : Ts) (s : State) :
    EffectOutcome (.txEnable p now) s (exec (.txEnable p now) s) := by
  rw [exec_txEnable]
  exact effectOutcome_staging fun hidle => effectOutcome_require _ fun hstaged => effectOutcome_require _ fun hfit =>
    effectOutcome_next
      (.armed p now hidle (targetsStaged_eq_true_iff.mp hstaged) (targetsFit_eq_true_iff.mp hfit))

theorem effectOutcome_txTick (s : State) : EffectOutcome .txTick s (exec .txTick s) := by
  rw [exec_txTick]
  rcases execTxTick_cases s with ⟨-, e⟩ | ⟨-, p, -, -, e⟩ | ⟨-, x, hx, e⟩ <;> rw [e]
  · exact effectOutcome_next (effect_refl _ s)
  · rintro t ⟨⟩
  · exact effectOutcome_next (.ticked x hx)

theorem effect_of_exec {i : Instr} {s t : State} (h : exec i s = .next t) : Effect i s t := by
  suffices hall : EffectOutcome i s (exec i s) from hall t h
  cases i
  case sysReset => exact effectOutcome_next (.reset rfl)
  case cfgDelay d =>
    exact effectOutcome_require _ fun _ => effectOutcome_require _ fun hd => effectOutcome_next (.delaySet d hd)
  case cfgShift sh => exact effectOutcome_require _ fun _ => effectOutcome_next (.shiftSet sh)
  case sysIrqen e => exact effectOutcome_next (.irqSet e)
  case sysStatus => exact effectOutcome_readOut _
  case rxRead p => exact effectOutcome_onPhysical fun _ _ => effectOutcome_readOut _
  case txStatus p => exact effectOutcome_onPhysical fun _ _ => effectOutcome_readOut _
  case pktInterpret p =>
    exact effectOutcome_onPhysical fun _ _ => effectOutcome_require _ fun _ => effectOutcome_readOut _
  case rxEdge p ts rising => exact effectOutcome_rxEdge p ts rising s
  case rxStep p now => exact effectOutcome_rxStep p now s
  case rxPoll p now => exact effectOutcome_rxPoll p now s
  case rxClear p => exact effectOutcome_rxClear p s
  case txEnable p now => exact effectOutcome_txEnable p now s
  case txTick => exact effectOutcome_txTick s
  case txClear p => exact effectOutcome_staging (effectOutcome_stagingWrite .clear)
  case txSeal p => exact effectOutcome_staging (effectOutcome_stagingWrite .parity)
  case txPut p v w =>
    exact effectOutcome_staging fun hidle => effectOutcome_require _ fun _ => effectOutcome_stagingWrite (.put v _) hidle
  case pktHeatrng =>
    exact effectOutcome_staging fun hidle => effectOutcome_require _ fun _ =>
      effectOutcome_stagingWrite (.frame ..) hidle
  all_goals exact effectOutcome_staging (effectOutcome_stagingWrite (.frame ..))

/-! ### The strobe (R106, R110) -/

/-- A completed package is held in START (R103, R106): the clause of the invariant that the strobe depends on. -/
def HeldInStart (q : Port) (s : State) : Prop := (s.rxPort q).isDataBuffered = true → (s.rxPort q).dec.state = .start

/-- Only the completing micro-step shows the strobe and buffers the package; only without one does a micro-step go on. -/
theorem microStep_strobe {q : Port} {s t : State} {r : StepResult} (hheld : HeldInStart q s) (h : MicroStep q s t r) :
    t.out.rxDone = s.out.rxDone ∧ (t.rxPort q).isDataBuffered = (s.rxPort q).isDataBuffered ∧
        (r = .again → (s.rxPort q).isDataBuffered = false) ∨
      r = .done ∧ t.out.rxDone = some q ∧ (s.rxPort q).isDataBuffered = false ∧ (t.rxPort q).isDataBuffered = true := by
  have hfree {st : DecState} (hdec : (s.rxPort q).dec.state = st) (hst : st ≠ .start) :
      (s.rxPort q).isDataBuffered = false := by
    rw [← Bool.not_eq_true]
    exact fun hb => hst (hdec.symm.trans (hheld hb))
  cases h with
  | halted | held | waiting => exact .inl ⟨rfl, rfl, nofun⟩
  | discarded _ _ hfree' => exact .inl ⟨rfl, by simp, fun _ => hfree'⟩
  | started _ _ hfree' => exact .inl ⟨rfl, by simp, fun _ => hfree'⟩
  | consumed _ hdec => exact .inl ⟨rfl, by simp [advance], fun _ => hfree hdec (by decide)⟩
  | overflowed _ hdec => exact .inl ⟨rfl, by simp [advance], fun _ => hfree hdec (by decide)⟩
  | ended _ hdec => exact .inl ⟨rfl, by simp, fun _ => hfree hdec (by decide)⟩
  | completed _ hdec => exact .inr ⟨rfl, rfl, hfree hdec (by decide), by simp⟩

theorem pollLoop_strobe {q : Port} {s : State} (hheld : HeldInStart q s) (now : Ts) (k : Nat) :
    (pollLoop q now k s).1.out.rxDone = s.out.rxDone ∧
        ((pollLoop q now k s).1.rxPort q).isDataBuffered = (s.rxPort q).isDataBuffered ∨
      (pollLoop q now k s).1.out.rxDone = some q ∧ (s.rxPort q).isDataBuffered = false ∧
        ((pollLoop q now k s).1.rxPort q).isDataBuffered = true := by
  induction k generalizing s with
  | zero => exact .inl ⟨rfl, rfl⟩
  | succ k ih =>
    rw [pollLoop_succ]
    rcases microStep_strobe hheld (microStep_cases q now s) with ⟨hout, hbuf, hagain⟩ | ⟨hdone, hrise⟩
    · split
      next hr =>
        rw [← hout, ← hbuf]
        exact ih fun hb => absurd (hbuf.symm.trans hb) (by simp [hagain hr])
      next => exact .inl ⟨hout, hbuf⟩
    · rw [if_neg (by rw [hdone]; decide)]
      exact .inr hrise

/-- The strobe of port `q` is shown in `t` exactly when the package was buffered on the way from `s`. -/
def StrobeMatches (q : Port) (s t : State) : Prop :=
  t.out.rxDone = some q ↔ (s.rxPort q).isDataBuffered = false ∧ (t.rxPort q).isDataBuffered = true

theorem strobeMatches_of_quiet {q : Port} {s t : State} (hout : t.out.rxDone ≠ some q)
    (hbuf : (t.rxPort q).isDataBuffered = (s.rxPort q).isDataBuffered ∨ (t.rxPort q).isDataBuffered = false) :
    StrobeMatches q s t := by
  refine iff_of_false hout fun ⟨hs, ht⟩ => ?_
  rcases hbuf with h | h <;> simp [h, hs] at ht

theorem strobeMatches_pollLoop {p q : Port} {s : State} (hheld : ∀ p, HeldInStart p s) (hquiet : s.out.rxDone = none)
    (now : Ts) (k : Nat) : StrobeMatches q s (pollLoop p now k s).1 := by
  rcases pollLoop_strobe (hheld p) now k with ⟨hout, hbuf⟩ | ⟨hout, hs, ht⟩
  · refine strobeMatches_of_quiet (by simp [hout, hquiet]) (.inl ?_)
    by_cases hpq : q = p
    · subst hpq; exact hbuf
    · rw [(decoderFrame_pollLoop p now k s).others q hpq]
  · by_cases hpq : q = p
    · subst hpq; exact iff_of_true hout ⟨hs, ht⟩
    · refine strobeMatches_of_quiet (by simp [hout, Ne.symm hpq]) (.inl ?_)
      rw [(decoderFrame_pollLoop p now k s).others q hpq]

theorem captureEdge_isDataBuffered (p q : Port) (ts : Ts) (rising : Bool) (s : State) :
    ((captureEdge p ts rising s).rxPort q).isDataBuffered = (s.rxPort q).isDataBuffered := by
  rw [captureEdge_rxPort]
  split
  · subst q; rfl
  · rfl

theorem strobeMatches_effect {i : Instr} {s t : State} (q : Port) (h : Effect i s t) (hheld : ∀ p, HeldInStart p s)
    (hquiet : s.out.rxDone = none) : StrobeMatches q s t := by
  have hkept {u : State} (hout : u.out.rxDone = s.out.rxDone) (hrx : u.rx = s.rx) : StrobeMatches q s u :=
    strobeMatches_of_quiet (by simp [hout, hquiet]) (.inl (congrArg (fun x => (x.get q).isDataBuffered) hrx))
  cases h with
  | reset => exact strobeMatches_of_quiet nofun (.inr (congrArg (·.isDataBuffered) (rxPort_reset q)))
  | answered | delaySet | shiftSet | irqSet | ticked => exact hkept rfl rfl
  | captured p ts rising =>
    refine strobeMatches_of_quiet ?_ (.inl (captureEdge_isDataBuffered p q ts rising s))
    rw [captureEdge_out, hquiet]
    nofun
  | decoded p now k r => exact strobeMatches_pollLoop hheld hquiet now k
  | released p =>
    refine strobeMatches_of_quiet (by simp [hquiet]) ?_
    rw [answer_rxPort, rxPort_setRx]
    split
    · exact .inr rfl
    · exact .inl rfl
  | staged p f =>
    obtain ⟨hrx, -, -, hout, -⟩ := updateTargets_frame p f s
    exact hkept (by rw [answer_rxDone, hout]) hrx
  | armed p now =>
    obtain ⟨hrx, -, -, hout, -⟩ := armTargets_frame p now (txIrqEnable s) s
    exact hkept (by rw [answer_rxDone, hout]) hrx

/-- Settles O35: of the invariant only the held packages are needed. -/
theorem completionIsSignalledOnce : Obligations.CompletionIsSignalledOnce := by
  intro i s t q hinv hnext hquiet
  obtain ⟨-, -, hrx, -⟩ := hinv
  rw [allPorts_iff] at hrx
  exact strobeMatches_effect q (effect_of_exec hnext) (fun p => (hrx p).2.1) hquiet

/-! ### The causes of the fatal fault (R151) -/

theorem raiseFatal_fault (c : Cause) (p : Port) {s : State} (hrun : s.sys.fatal = false) :
    (raiseFatal c p s).sys.faultPort = Port.number p ∧ (raiseFatal c p s).sys.faultCause = c.code := by
  rw [raiseFatal_of_running c p hrun]
  exact ⟨rfl, rfl⟩

/-- If the block is halted, the decoder of port `q` halted it: the cause is 2, and the buffer of `q` overflowed at its end. -/
def HaltedByDecoder (q : Port) (s : State) : Prop :=
  s.sys.fatal = true → s.sys.faultPort = Port.number q ∧ s.sys.faultCause = 2 ∧ (s.rxPort q).buf.overflowed = true ∧
    (s.rxPort q).buf.pos.val = Config.bufBits

theorem haltedByDecoder_of_running {q : Port} {s : State} (hrun : s.sys.fatal = false) : HaltedByDecoder q s := fun hf =>
  absurd hf (by simp [hrun])

theorem haltedByDecoder_microStep {q : Port} {s t : State} {r : StepResult} (h : MicroStep q s t r)
    (hs : HaltedByDecoder q s) : HaltedByDecoder q t := by
  cases h with
  | halted | held | waiting => exact hs
  | discarded hrun | started hrun | consumed hrun | ended hrun | completed hrun => exact haltedByDecoder_of_running hrun
  | overflowed hrun _ _ _ hfull =>
    obtain ⟨hport, hcause⟩ := raiseFatal_fault .bitbufOverflow q (s := consumedInto ..) hrun
    refine fun _ => ⟨hport, hcause, ?_⟩
    rw [raiseFatal_rxPort, consumedInto_rxPort_self]
    exact ⟨rfl, hfull⟩

theorem haltedByDecoder_pollLoop {q : Port} {s : State} (hrun : s.sys.fatal = false) (now : Ts) (k : Nat) :
    HaltedByDecoder q (pollLoop q now k s).1 :=
  pollLoop_keeps (fun u => haltedByDecoder_microStep (microStep_cases q now u)) k s (haltedByDecoder_of_running hrun)

/-- The block is halted in `t` by an edge that found the ring of `q` full in `s` (R97). -/
theorem captureEdge_halts {q : Port} {ts : Ts} {rising : Bool} {s : State} (hrun : s.sys.fatal = false)
    (hf : (captureEdge q ts rising s).sys.fatal = true) :
    ringCount (s.rxPort q).ring = 28 ∧ (captureEdge q ts rising s).sys.faultPort = Port.number q ∧
      (captureEdge q ts rising s).sys.faultCause = 1 ∧
      (captureEdge q ts rising s).rxPort q = { s.rxPort q with ring := { (s.rxPort q).ring with overflowed := true } } := by
  cases hfull : ringFull (s.rxPort q).ring with
  | false =>
    rw [captureEdge_of_room hfull] at hf
    exact absurd (hrun.symm.trans hf) (by decide)
  | true =>
    obtain ⟨hport, hcause⟩ := raiseFatal_fault .ringOverflow q (s := State.setRx ..) hrun
    rw [captureEdge_of_full hfull, raiseFatal_rxPort, rxPort_setRx_self]
    exact ⟨(ringFull_iff_count _).mp hfull, hport, hcause, rfl⟩

theorem startCadence_fatal (now : Ts) (was : Bool) (s : State) :
    (startCadence now was s).sys.fatal = s.sys.fatal := by cases was <;> rfl

/-- Settles O51: of the effects of an operation only a captured edge and a decoded one can latch the fault. -/
theorem fatalOnlyFromTheTwoOverflows : Obligations.FatalOnlyFromTheTwoOverflows := by
  intro i s t hnext hrun hf
  have hkept {P : Prop} {u : State} (hu : u.sys.fatal = s.sys.fatal) (hf : u.sys.fatal = true) : P :=
    absurd (hu.symm.trans hf) (by simp [hrun])
  cases effect_of_exec hnext with
  | reset => exact absurd hf nofun
  | answered | delaySet | shiftSet | irqSet | released | ticked => exact hkept rfl hf
  | captured q ts rising hi =>
    obtain ⟨hcount, hport, hcause, hring⟩ := captureEdge_halts hrun hf
    exact ⟨q, hport, .inl ⟨⟨ts, rising, hi⟩, hcount, hcause, hring⟩⟩
  | decoded q now k r hi =>
    obtain ⟨hport, hcause, hover, hpos⟩ := haltedByDecoder_pollLoop hrun now k hf
    exact ⟨q, hport, .inr ⟨hi, hcause, hover, hpos⟩⟩
  | staged p f =>
    obtain ⟨-, -, hsys, -, -⟩ := updateTargets_frame p f s
    exact hkept (by rw [answer_sys, hsys]) hf
  | armed p now =>
    obtain ⟨-, -, hsys, -, -⟩ := updateTargets_frame p armPort s
    exact hkept (by rw [answer_sys, startCadence_fatal, hsys]) hf

end Sys2Proof.Proofs

/-! SUPPORT. The invariant of the block (spec/10_state.md section 9): a rule for each kind of write to a port, and from the effects of
an operation that every step keeps it and no run ever stops. -/

namespace Sys2Proof.Proofs

open Sys2Proof.Machine

/-! ### The invariant, port by port -/

/-- The invariant with its parts named and its ports quantified. -/
structure BlockOk (s : State) : Prop where
  cfg : CfgOk s.cfg
  sys : SysOk s.sys
  rx : ∀ q, RxOk s.sys.fatal (s.rxPort q)
  tx : ∀ q, TxOk (s.txPort q)

theorem inv_iff_blockOk {s : State} : Inv s ↔ BlockOk s := by
  rw [Machine.Inv, allPorts_iff, allPorts_iff]
  exact ⟨fun ⟨hcfg, hsys, hrx, htx⟩ => ⟨hcfg, hsys, hrx, htx⟩, fun ⟨hcfg, hsys, hrx, htx⟩ => ⟨hcfg, hsys, hrx, htx⟩⟩

theorem BlockOk.answer {s : State} (h : BlockOk s) (c : U8) (r : Record) : BlockOk (s.answer c r) :=
  ⟨h.cfg, h.sys, h.rx, h.tx⟩

theorem BlockOk.setRx {s : State} (h : BlockOk s) {q : Port} {r : RxPort} (hr : RxOk s.sys.fatal r) :
    BlockOk (s.setRx q r) := by
  refine ⟨h.cfg, h.sys, fun p => ?_, h.tx⟩
  rw [rxPort_setRx]
  split
  · exact hr
  · exact h.rx p

/-- A halted block allows a port whatever a running one does. -/
theorem rxOk_of_running {r : RxPort} (h : RxOk false r) : RxOk true r := by
  obtain ⟨hcount, hheld, hstart, hring, hbuf⟩ := h
  exact ⟨hcount, hheld, hstart, fun ho => absurd (hring ho).2 (by decide), fun ho => absurd (hbuf ho).2 (by decide)⟩

theorem cause_code_ne (c : Cause) : c.code ≠ 0 ∧ c.code ≠ 3 := by cases c <;> decide

theorem port_number_ne (p : Port) : Port.number p ≠ 3 := by cases p <;> decide

/-- The fault taken together with a write to a receive port that only a halted block allows. -/
theorem BlockOk.raiseFatal_setRx {s : State} (h : BlockOk s) (hrun : s.sys.fatal = false) (c : Cause) {q : Port}
    {r : RxPort} (hr : RxOk true r) : BlockOk (raiseFatal c q (s.setRx q r)) := by
  obtain ⟨hport, hcause⟩ := raiseFatal_fault c q (s := s.setRx q r) hrun
  obtain ⟨hne0, hne3⟩ := cause_code_ne c
  refine ⟨h.cfg, ⟨?_, ?_, ?_, nofun⟩, fun p => ?_, h.tx⟩
  · rw [hcause]; exact iff_of_true rfl hne0
  · rw [hcause]; exact hne3
  · rw [hport]; exact port_number_ne q
  · rw [raiseFatal_rxPort, raiseFatal_fatal, rxPort_setRx]
    split
    · exact hr
    · exact rxOk_of_running (hrun ▸ h.rx p)

/-! ### Reset -/

theorem cfgOk_derived {d : Ts} (hd : legalDelay d = true) (sh : Ts) :
    CfgOk
      { clockDelay := d, halfDelay := deriveHalf d, shortThr := deriveShort d, longThr := deriveLong d, txClockShift := sh
        delayUpdateable := true, shiftUpdateable := true } := ⟨hd, rfl, rfl, rfl, rfl, rfl⟩

theorem sysOk_reset : SysOk State.reset.sys := by decide

theorem rxOk_reset : RxOk false RxPort.reset := ⟨rfl, nofun, fun _ _ => rfl, nofun, nofun⟩

theorem txOk_reset : TxOk TxPort.reset := ⟨nofun, fun _ => ⟨rfl, rfl⟩, nofun⟩

theorem blockOk_resetBlock (s : State) : BlockOk (resetBlock s) :=
  ⟨cfgOk_derived (by decide) 0, sysOk_reset, fun q => rxPort_reset q ▸ rxOk_reset, fun q => txPort_reset q ▸ txOk_reset⟩

theorem lineOk_of_idle {x : TxPort} (hidle : x.isTransmitting = false) : LineOk x := fun h =>
  absurd h (by simp [hidle])

/-- Settles O55: the registers are derived from a legal delay, every port is a reset one, and no port transmits. -/
theorem invariantHoldsAtReset : Obligations.InvariantHoldsAtReset :=
  ⟨inv_iff_blockOk.mpr (blockOk_resetBlock State.reset), fun p => txPort_reset p ▸ lineOk_of_idle rfl⟩

/-! ### The receive side -/

section Receive

variable {q : Port} {s : State}

/-- A running block has no overflow, so a port with no overflow and the clauses of the decoder is allowed. -/
theorem BlockOk.running_rx (h : BlockOk s) (hrun : s.sys.fatal = false) (q : Port) :
    (s.rxPort q).dec.phase.toNat = (s.rxPort q).dec.halfCycles.toNat ∧ (s.rxPort q).ring.overflowed = false ∧
      (s.rxPort q).buf.overflowed = false := by
  obtain ⟨hcount, -, -, hring, hbuf⟩ := h.rx q
  rw [hrun] at hring hbuf
  refine ⟨hcount, ?_, ?_⟩ <;> rw [← Bool.not_eq_true]
  · exact fun ho => absurd (hring ho).2 (by decide)
  · exact fun ho => absurd (hbuf ho).2 (by decide)

theorem rxOk_of_noOverflow {f : Bool} {r : RxPort} (hcount : r.dec.phase.toNat = r.dec.halfCycles.toNat)
    (hheld : r.isDataBuffered = true → r.dec.state = .start)
    (hstart : r.dec.state = .start → r.isDataBuffered = false → r.buf.pos = 0) (hring : r.ring.overflowed = false)
    (hbuf : r.buf.overflowed = false) : RxOk f r :=
  ⟨hcount, hheld, hstart, fun h => absurd h (by simp [hring]), fun h => absurd h (by simp [hbuf])⟩

theorem BlockOk.captureEdge (h : BlockOk s) (hrun : s.sys.fatal = false) (ts : Ts) (rising : Bool) :
    BlockOk (captureEdge q ts rising s) := by
  obtain ⟨hcount, hring, hbuf⟩ := h.running_rx hrun q
  obtain ⟨-, hheld, hstart, -, -⟩ := h.rx q
  cases hfull : ringFull (s.rxPort q).ring with
  | false =>
    rw [captureEdge_of_room hfull]
    refine h.setRx (rxOk_of_noOverflow hcount hheld hstart ?_ hbuf)
    rw [ringEnqueue_of_room hfull]
    exact hring
  | true =>
    rw [captureEdge_of_full hfull]
    exact h.raiseFatal_setRx hrun _
      ⟨hcount, hheld, hstart, fun _ => ⟨hfull, rfl⟩, fun ho => absurd (hbuf.symm.trans ho) (by decide)⟩

theorem advance_counts {r : RxPort} (hcount : r.dec.phase.toNat = r.dec.halfCycles.toNat) (adv : Nat) :
    (advance adv r).dec.phase.toNat = (advance adv r).dec.halfCycles.toNat := by
  have h : r.dec.phase = r.dec.halfCycles := BitVec.eq_of_toNat_eq hcount
  rw [advance, h]

theorem BlockOk.microStep {t : State} {r : StepResult} (hstep : MicroStep q s t r) (h : BlockOk s) : BlockOk t := by
  obtain ⟨hcount, hheld, hstart, -, -⟩ := h.rx q
  cases hstep with
  | halted | held | waiting => exact h
  | discarded hrun =>
    obtain ⟨-, hring, hbuf⟩ := h.running_rx hrun q
    exact h.setRx (rxOk_of_noOverflow hcount hheld hstart hring hbuf)
  | started hrun _ hfree =>
    obtain ⟨-, hring, hbuf⟩ := h.running_rx hrun q
    exact h.setRx (rxOk_of_noOverflow rfl (fun hb => absurd (hfree.symm.trans hb) (by decide)) nofun hring hbuf)
  | consumed hrun hdec _ adv b hb =>
    obtain ⟨-, hring, hbuf⟩ := h.running_rx hrun q
    have hdec' : (advance adv (s.rxPort q)).dec.state ≠ .start := fun hst => absurd (hdec.symm.trans hst) (by decide)
    exact h.setRx (rxOk_of_noOverflow (advance_counts hcount adv) hheld (fun hst => absurd hst hdec') hring
      (hb.trans hbuf))
  | overflowed hrun hdec _ adv hfull =>
    obtain ⟨-, hring, -⟩ := h.running_rx hrun q
    have hdec' : (advance adv (s.rxPort q)).dec.state ≠ .start := fun hst => absurd (hdec.symm.trans hst) (by decide)
    exact h.raiseFatal_setRx hrun _ ⟨advance_counts hcount adv, hheld, fun hst => absurd hst hdec',
      fun ho => absurd (hring.symm.trans ho) (by decide), fun _ => ⟨hfull, rfl⟩⟩
  | ended hrun hdec =>
    obtain ⟨-, hring, hbuf⟩ := h.running_rx hrun q
    have hfree : (s.rxPort q).isDataBuffered ≠ true := fun hb => absurd (hdec.symm.trans (hheld hb)) (by decide)
    exact h.setRx (rxOk_of_noOverflow hcount (fun hb => absurd hb hfree) nofun hring hbuf)
  | completed hrun =>
    obtain ⟨-, hring, hbuf⟩ := h.running_rx hrun q
    obtain ⟨hcfg, hsys, hrx, htx⟩ : BlockOk (s.setRx q _) :=
      h.setRx (r := { s.rxPort q with isDataBuffered := true, dec := { (s.rxPort q).dec with state := .start } })
        (rxOk_of_noOverflow hcount (fun _ => rfl) nofun hring hbuf)
    exact ⟨hcfg, hsys, hrx, htx⟩

theorem BlockOk.pollLoop (h : BlockOk s) (now : Ts) (k : Nat) : BlockOk (pollLoop q now k s).1 :=
  pollLoop_keeps (fun u => BlockOk.microStep (microStep_cases q now u)) k s h

/-- RX.CLEAR: the package was held in START, where the cursor of a free port is 0 (R108). -/
theorem BlockOk.released (h : BlockOk s) :
    BlockOk (s.setRx q { s.rxPort q with buf := bufClear (s.rxPort q).buf, isDataBuffered := false }) := by
  obtain ⟨hcount, -, -, hring, -⟩ := h.rx q
  exact h.setRx ⟨hcount, nofun, fun _ _ => rfl, hring, nofun⟩

end Receive

/-! ### The transmit side -/

/-- An overflowed buffer is full (R84): the clause of the invariant about a transmit buffer by itself. -/
def FullIfOverflowed (b : PortBuffer) : Prop := b.overflowed = true → b.pos.val = Config.bufBits

theorem fullIfOverflowed_bufPut {b : PortBuffer} (hb : FullIfOverflowed b) (v : Bool) : FullIfOverflowed (bufPut b v) := by
  intro ho
  rw [bufPut_overflowed, Bool.or_eq_true, decide_eq_true_iff] at ho
  have hfull : b.pos.val = Config.bufBits := ho.elim hb id
  rw [bufPut_pos, hfull]
  rfl

theorem fullIfOverflowed_putBits {b : PortBuffer} (hb : FullIfOverflowed b) (bits : List Bool) :
    FullIfOverflowed (putBits b bits) := by
  induction bits generalizing b with
  | nil => exact hb
  | cons v bits ih => exact ih (fullIfOverflowed_bufPut hb v)

theorem fullIfOverflowed_bufClear (b : PortBuffer) : FullIfOverflowed (bufClear b) := nofun

theorem StagingWrite.writesData {f : TxPort → TxPort} (hf : StagingWrite f) : WritesData f := by
  cases hf with
  | clear => exact writesData_clearPort
  | put v w => exact writesData_putPort v w
  | parity => exact writesData_sealPort
  | frame v bc values => exact writesData_stageFrame v bc values

theorem StagingWrite.fullIfOverflowed {f : TxPort → TxPort} (hf : StagingWrite f) {x : TxPort}
    (hx : FullIfOverflowed x.buf) : FullIfOverflowed (f x).buf := by
  cases hf with
  | clear => exact fullIfOverflowed_bufClear x.buf
  | put v w => exact fullIfOverflowed_putBits hx _
  | parity => exact fullIfOverflowed_bufPut hx _
  | frame => exact fullIfOverflowed_bufPut (fullIfOverflowed_putBits (fullIfOverflowed_bufClear x.buf) _) _

theorem StagingWrite.idle {f : TxPort → TxPort} (hf : StagingWrite f) {x : TxPort} (hidle : x.isTransmitting = false) :
    (f x).isTransmitting = false := by
  rw [hf.writesData x]
  exact hidle

theorem StagingWrite.txOk {f : TxPort → TxPort} (hf : StagingWrite f) {x : TxPort} (hx : TxOk x)
    (hidle : x.isTransmitting = false) : TxOk (f x) := by
  obtain ⟨-, hline, hfull⟩ := hx
  refine ⟨fun hb => absurd ((hf.idle hidle).symm.trans hb) (by decide), fun _ => ?_, hf.fullIfOverflowed hfull⟩
  rw [hf.writesData x]
  exact hline hidle

theorem txOk_armPort {x : TxPort} (hstaged : x.dataEnd.val ≠ 0) (hfit : x.buf.overflowed = false) : TxOk (armPort x) :=
  ⟨fun _ => ⟨Nat.zero_le _, Nat.pos_of_ne_zero hstaged, hfit, nofun⟩, nofun,
    fun ho => absurd (hfit.symm.trans ho) (by decide)⟩

/-- The read cursor of a transmitting port is before its end of data wherever the half step reads a bit. -/
theorem txOk_txHalfStep {x x' : TxPort} (hx : TxOk x) (hbusy : x.isTransmitting = true) (h : txHalfStep x = some x') :
    TxOk x' := by
  obtain ⟨hdata, -, hfull⟩ := hx
  obtain ⟨hle, hpos, hfit, hmid⟩ := hdata hbusy
  rcases txHalfStep_cases x with ⟨hfirst, hend, e⟩ | ⟨-, -, e⟩ | ⟨hsecond, hroom, e⟩ | ⟨-, hne, -, e⟩ <;>
    rw [e] at h <;> cases h
  · exact ⟨nofun, fun _ => ⟨hfirst, rfl⟩, hfull⟩
  · refine ⟨fun _ => ⟨?_, hpos, (ptrInc_overflowed _).trans hfit, nofun⟩, fun hi => absurd (hbusy.symm.trans hi) nofun,
      fun ho => absurd (hfit.symm.trans ((ptrInc_overflowed _).symm.trans ho)) (by decide)⟩
    rw [ptrInc_pos_of_lt _ hroom]
    exact hmid hsecond
  · exact ⟨fun _ => ⟨hle, hpos, hfit, fun _ => hle.lt_of_ne hne⟩, fun hi => absurd (hbusy.symm.trans hi) nofun, hfull⟩

theorem txOk_tickPort {x x' : TxPort} (hx : TxOk x) (h : tickPort x = some x') : TxOk x' := by
  cases hbusy : x.isTransmitting with
  | false =>
    rw [tickPort_of_idle hbusy] at h
    exact Option.some.inj h ▸ hx
  | true =>
    rw [tickPort_of_transmitting hbusy] at h
    exact txOk_txHalfStep hx hbusy h

/-- No port of a block with the invariant reads at the end position (log entry 10). -/
theorem not_readsAtEnd {x : TxPort} (hx : TxOk x) : ¬ ReadsAtEnd x := by
  rintro ⟨hbusy, hfull, hunfinished⟩
  obtain ⟨hle, -, -, hmid⟩ := hx.1 hbusy
  have hend : x.dataEnd.val = Config.bufBits := by have := x.dataEnd.isLt; omega
  refine hunfinished ⟨?_, hend⟩
  rw [← Bool.not_eq_true]
  intro hsecond
  have := hmid hsecond
  omega

/-! ### Every operation -/

theorem BlockOk.of_tx {s t : State} (h : BlockOk s) (hrx : t.rx = s.rx) (hcfg : t.cfg = s.cfg) (hsys : SysOk t.sys)
    (hfatal : t.sys.fatal = s.sys.fatal) (htx : ∀ q, TxOk (t.txPort q)) : BlockOk t :=
  ⟨hcfg ▸ h.cfg, hsys, fun q => by rw [hfatal, State.rxPort, hrx]; exact h.rx q, htx⟩

/-- The compare value and the interrupt enable stand in no clause of the invariant. -/
theorem sysOk_of_fault {y z : Sys} (hy : SysOk y) (hfatal : z.fatal = y.fatal) (hcause : z.faultCause = y.faultCause)
    (hport : z.faultPort = y.faultPort) : SysOk z := by
  rw [SysOk, hfatal, hcause, hport]
  exact hy

theorem startCadence_sysOk {now : Ts} {was : Bool} {s : State} (h : SysOk s.sys) : SysOk (startCadence now was s).sys := by
  cases was with
  | true => exact h
  | false => exact sysOk_of_fault h rfl rfl rfl

theorem BlockOk.effect {i : Instr} {s t : State} (h : BlockOk s) (heffect : Effect i s t) : BlockOk t := by
  cases heffect with
  | reset => exact blockOk_resetBlock s
  | answered c r => exact h.answer c r
  | delaySet d hd =>
    obtain ⟨-, -, -, -, -, hshift⟩ := h.cfg
    exact ⟨⟨hd, rfl, rfl, rfl, rfl, hshift⟩, h.sys, h.rx, h.tx⟩
  | shiftSet =>
    obtain ⟨hlegal, hhalf, hshort, hlong, hdelay, -⟩ := h.cfg
    exact ⟨⟨hlegal, hhalf, hshort, hlong, hdelay, rfl⟩, h.sys, h.rx, h.tx⟩
  | irqSet => exact ⟨h.cfg, sysOk_of_fault h.sys rfl rfl rfl, h.rx, h.tx⟩
  | captured q ts rising _ hrun => exact h.captureEdge hrun ts rising
  | decoded q now k r => exact (h.pollLoop now k).answer 0 r
  | released q => exact h.released.answer 0 .none
  | staged p f hf hidle =>
    obtain ⟨hrx, hcfg, hsys, -, -⟩ := updateTargets_frame p f s
    refine (h.of_tx hrx hcfg (hsys ▸ h.sys) (by rw [hsys]) fun q => ?_).answer 0 .none
    rw [txPort_updateTargets]
    split
    · exact hf.txOk (h.tx q) (hidle q ‹_›)
    · exact h.tx q
  | armed p now _ hstaged hfit =>
    obtain ⟨-, -, hsys, -, -⟩ := updateTargets_frame p armPort s
    obtain ⟨hrx, hcfg, -, -, hports⟩ := armTargets_frame p now (txIrqEnable s) s
    refine (h.of_tx hrx hcfg (startCadence_sysOk (hsys ▸ h.sys)) ?_ fun q => ?_).answer 0 .none
    · rw [startCadence_fatal, hsys]
    · rw [hports]
      split
      · exact txOk_armPort (hstaged q ‹_›) (hfit q ‹_›)
      · exact h.tx q
  | ticked x hx =>
    exact h.of_tx rfl rfl (sysOk_of_fault h.sys rfl rfl rfl) rfl fun q => txOk_tickPort (h.tx q) (hx q)

/-- From the invariant every operation answers a next state, and keeps it. -/
theorem BlockOk.exec {s : State} (h : BlockOk s) (i : Instr) : ∃ t, exec i s = .next t ∧ BlockOk t := by
  have hnext : ∃ t, Machine.exec i s = .next t := by
    obtain ⟨hrefused, hfault⟩ := onlyTheTickCanStop i s
    cases ho : Machine.exec i s with
    | next t => exact ⟨t, rfl⟩
    | refused r => exact absurd ho (hrefused r)
    | fault f =>
      obtain ⟨-, -, q, hbad⟩ := hfault.mp ⟨f, ho⟩
      exact absurd hbad (not_readsAtEnd (h.tx q))
  obtain ⟨t, ht⟩ := hnext
  exact ⟨t, ht, h.effect (effect_of_exec ht)⟩

/-! ### Every step -/

/-- The fetch changes no element of the block. -/
theorem BlockOk.fetch {s : State} (h : BlockOk s) : BlockOk (fetch s).1 := by
  obtain ⟨⟨hrx, htx, hcfg, hsys⟩, -⟩ := fetch_frame s
  refine h.of_tx hrx hcfg (hsys ▸ h.sys) (by rw [hsys]) fun q => ?_
  rw [State.txPort, htx]
  exact h.tx q

theorem BlockOk.step {s : State} (h : BlockOk s) : ∃ t, step s = .next t ∧ BlockOk t := by
  have hf := h.fetch
  unfold Machine.step
  split
  next t hs => rw [hs] at hf; exact ⟨t, rfl, hf⟩
  next t i hs => rw [hs] at hf; exact hf.exec i
  next t hs => rw [hs] at hf; exact ⟨_, rfl, hf.answer 2 .none⟩

/-- Settles O57: a step is a fetch, which changes no element, and an operation, whose effects keep the invariant. -/
theorem everyStepKeepsTheInvariant : Obligations.EveryStepKeepsTheInvariant := by
  intro s t hinv hstep
  obtain ⟨u, hu, hok⟩ := (inv_iff_blockOk.mp hinv).step
  rw [next_unique hstep hu]
  exact inv_iff_blockOk.mpr hok

theorem run_succ_of_next {M : Host.Core} {n : Nat} {s u : M.State} (h : M.step s = .next u) :
    M.run (n + 1) s = M.run n u := by
  rw [Host.Core.run, h]

theorem run_next {n : Nat} {s : State} (h : BlockOk s) : ∃ t, core.run n s = .next t ∧ BlockOk t := by
  induction n generalizing s with
  | zero => exact ⟨s, rfl, h⟩
  | succ n ih =>
    obtain ⟨u, hu, hok⟩ := h.step
    obtain ⟨t, ht, htok⟩ := ih hok
    exact ⟨t, (run_succ_of_next (M := core) hu).trans ht, htok⟩

/-- Settles O58: by induction on the number of steps. -/
theorem runsNeverStop : Obligations.RunsNeverStop := by
  intro n s hinv
  obtain ⟨t, ht, hok⟩ := run_next (n := n) (inv_iff_blockOk.mp hinv)
  exact ⟨t, ht, inv_iff_blockOk.mpr hok⟩

end Sys2Proof.Proofs

/-! SUPPORT. The line of a transmitting port (spec/30_encoding.md R48 to R51; spec/43_encoder_tx.md R116 to R120): the levels of a
frame half cell by half cell, the level changes among them, and the tick that drives them. -/

namespace Sys2Proof.Proofs

open Sys2Proof.Machine

/-! ### The levels of a frame (R48, R50) -/

theorem lineLevels_cons (b : Bool) (bits : List Bool) : lineLevels (b :: bits) = (!b) :: b :: lineLevels bits := rfl

/-- The level at half cell `n`: the first half of a bit's cell, the second half of one, or the release after the last. -/
theorem getElem?_lineLevels {bits : List Bool} {n : Nat} {l : Bool} :
    (lineLevels bits)[n]? = some l ↔
      (∃ k, n = 2 * k ∧ bits[k]? = some !l) ∨ (∃ k, n = 2 * k + 1 ∧ bits[k]? = some l) ∨
        n = 2 * bits.length ∧ l = true := by
  induction bits generalizing n with
  | nil => cases n <;> simp [lineLevels, eq_comm]
  | cons b bits ih =>
    rw [lineLevels_cons]
    match n with
    | 0 =>
      rw [List.getElem?_cons_zero, Option.some.injEq]
      refine ⟨fun h => .inl ⟨0, rfl, by simp [← h]⟩, ?_⟩
      rintro (⟨k, hk, h⟩ | ⟨k, hk, -⟩ | ⟨hk, -⟩)
      · obtain rfl : k = 0 := by omega
        simpa [Bool.not_eq_eq_eq_not] using h
      · omega
      · simp at hk
    | 1 =>
      rw [List.getElem?_cons_succ, List.getElem?_cons_zero, Option.some.injEq]
      refine ⟨fun h => .inr (.inl ⟨0, rfl, by simp [h]⟩), ?_⟩
      rintro (⟨k, hk, -⟩ | ⟨k, hk, h⟩ | ⟨hk, -⟩)
      · omega
      · obtain rfl : k = 0 := by omega
        simpa using h
      · rw [List.length_cons] at hk
        omega
    | n + 2 =>
      rw [List.getElem?_cons_succ, List.getElem?_cons_succ, ih]
      refine or_congr ?_ (or_congr ?_ (by rw [List.length_cons]; exact and_congr_left fun _ => by omega))
      · refine ⟨fun ⟨k, hk, h⟩ => ⟨k + 1, by omega, h⟩, fun ⟨k, hk, h⟩ => ?_⟩
        obtain ⟨j, rfl⟩ : ∃ j, k = j + 1 := ⟨k - 1, by omega⟩
        exact ⟨j, by omega, h⟩
      · refine ⟨fun ⟨k, hk, h⟩ => ⟨k + 1, by omega, h⟩, fun ⟨k, hk, h⟩ => ?_⟩
        rcases k with _ | j
        · omega
        · exact ⟨j, by omega, h⟩

theorem lineLevels_firstHalf {bits : List Bool} {k : Nat} {b : Bool} (h : bits[k]? = some b) :
    (lineLevels bits)[2 * k]? = some !b :=
  getElem?_lineLevels.mpr (.inl ⟨k, rfl, by rw [Bool.not_not]; exact h⟩)

theorem lineLevels_secondHalf {bits : List Bool} {k : Nat} {b : Bool} (h : bits[k]? = some b) :
    (lineLevels bits)[2 * k + 1]? = some b :=
  getElem?_lineLevels.mpr (.inr (.inl ⟨k, rfl, h⟩))

theorem lineLevels_release (bits : List Bool) : (lineLevels bits)[2 * bits.length]? = some true :=
  getElem?_lineLevels.mpr (.inr (.inr ⟨rfl, rfl⟩))

/-! ### The changes of the line (R51) -/

/-- A change happens at the levels that differ from the one before, the idle level standing before the first. -/
theorem mem_levelChanges {prev : Bool} {t0 h t : Nat} {l : Bool} {levels : List Bool} :
    (t, l) ∈ levelChanges prev t0 h levels ↔
      ∃ n, levels[n]? = some l ∧ (prev :: levels)[n]? ≠ some l ∧ t = t0 + n * h := by
  induction levels generalizing prev t0 with
  | nil => simp [levelChanges]
  | cons a levels ih =>
    have htail (p : Bool) : (t, l) ∈ levelChanges a (t0 + h) h levels ↔
        ∃ n, (a :: levels)[n + 1]? = some l ∧ (p :: a :: levels)[n + 1]? ≠ some l ∧ t = t0 + (n + 1) * h := by
      simp only [ih, List.getElem?_cons_succ, Nat.succ_mul, Nat.add_assoc, Nat.add_comm h]
    rw [levelChanges, ← Nat.or_exists_add_one]
    simp only [List.getElem?_cons_zero, ne_eq, Option.some.injEq, Nat.zero_mul, Nat.add_zero]
    split
    next hsame =>
      subst hsame
      rw [← htail]
      exact (or_iff_right fun ⟨h1, h2, _⟩ => h2 h1).symm
    next hchange =>
      rw [List.mem_cons, ← htail, Prod.mk.injEq]
      refine or_congr_left ⟨?_, ?_⟩
      · rintro ⟨rfl, rfl⟩
        exact ⟨rfl, Ne.symm hchange, rfl⟩
      · rintro ⟨rfl, -, rfl⟩
        exact ⟨rfl, rfl⟩

/-- The level before the one at the beginning of cell `k`: idle, or the bit before. -/
theorem levelBefore_firstHalf {bits : List Bool} {k : Nat} (hk : k ≤ bits.length) {l : Bool} :
    (true :: lineLevels bits)[2 * k]? ≠ some l ↔ k = 0 ∧ l = false ∨ 0 < k ∧ bits[k - 1]? = some !l := by
  rcases Nat.eq_zero_or_pos k with rfl | hpos
  · simp
  · obtain ⟨j, rfl⟩ := Nat.exists_eq_add_of_le' hpos
    obtain ⟨b, hb⟩ : ∃ b, bits[j]? = some b := ⟨bits[j], List.getElem?_eq_getElem hk⟩
    rw [show 2 * (j + 1) = 2 * j + 1 + 1 by ring, List.getElem?_cons_succ, lineLevels_secondHalf hb]
    simp only [Nat.add_sub_cancel, hb, ne_eq, Option.some.injEq]
    cases b <;> cases l <;> simp

/-- Settles O40: each half cell whose level differs from the one before it; in the middle of a cell it always does. -/
theorem frameEdgesOfTheLine : Obligations.FrameEdgesOfTheLine := by
  intro bits t0 h t level
  rw [frameEdges, mem_levelChanges]
  constructor
  · rintro ⟨n, hlevel, hbefore, rfl⟩
    rcases getElem?_lineLevels.mp hlevel with ⟨k, rfl, hk⟩ | ⟨k, rfl, hk⟩ | ⟨rfl, rfl⟩
    · have hlt : k < bits.length := (List.getElem?_eq_some_iff.mp hk).1
      refine .inl ⟨k, !level, hk, rfl, (Bool.not_not _).symm, ?_⟩
      rw [levelBefore_firstHalf hlt.le] at hbefore
      simpa using hbefore
    · exact .inr (.inl ⟨k, hk, rfl⟩)
    · refine .inr (.inr ⟨?_, rfl, rfl⟩)
      rw [levelBefore_firstHalf le_rfl] at hbefore
      rw [List.getLast?_eq_getElem?]
      simpa using (hbefore.resolve_left (by simp)).2
  · rintro (⟨k, b, hk, rfl, rfl, hbefore⟩ | ⟨k, hk, rfl⟩ | ⟨hlast, rfl, rfl⟩)
    · have hlt : k < bits.length := (List.getElem?_eq_some_iff.mp hk).1
      refine ⟨2 * k, lineLevels_firstHalf hk, ?_, rfl⟩
      rw [levelBefore_firstHalf hlt.le]
      simpa using hbefore
    · refine ⟨2 * k + 1, lineLevels_secondHalf hk, ?_, rfl⟩
      rw [List.getElem?_cons_succ, lineLevels_firstHalf hk]
      simp
    · refine ⟨2 * bits.length, lineLevels_release bits, ?_, rfl⟩
      have hne : bits ≠ [] := by rintro rfl; cases hlast
      rw [List.getLast?_eq_getElem?] at hlast
      rw [levelBefore_firstHalf le_rfl]
      exact .inr ⟨List.length_pos_of_ne_nil hne, hlast⟩

/-! ### The tick drives them (R116, R117, R119) -/

theorem bitsOf_congr {a b : PortBuffer} (h : a.bytes = b.bytes) (n : Nat) : bitsOf a n = bitsOf b n :=
  List.map_congr_left fun k _ => bufGet_congr h k

theorem length_bitsOf (b : PortBuffer) (n : Nat) : (bitsOf b n).length = n := by simp [bitsOf]

theorem getElem?_bitsOf (b : PortBuffer) {n k : Nat} (hk : k < n) : (bitsOf b n)[k]? = some (bufGet b k) := by
  simp [bitsOf, hk]

section HalfCells

variable {x x' : TxPort} (hbusy : x.isTransmitting = true)
include hbusy

/-- Before the end of its data a half step drives one more half cell, at the level the frame has there. -/
theorem txHalfStep_halvesDone (hhalves : halvesDone x < 2 * x.dataEnd.val) (h : txHalfStep x = some x') :
    x'.isTransmitting = true ∧ x'.buf.bytes = x.buf.bytes ∧ x'.dataEnd = x.dataEnd ∧ halvesDone x' = halvesDone x + 1 ∧
      (lineLevels (bitsOf x.buf x.dataEnd.val))[halvesDone x]? = some x'.line := by
  rw [halvesDone] at hhalves
  have hbit := getElem?_bitsOf x.buf (show x.buf.pos.val < x.dataEnd.val by omega)
  have hend := x.dataEnd.isLt
  cases hsecond : x.secondHalf with
  | false =>
    rw [txHalfStep_of_firstHalf hsecond (by omega) (by omega)] at h
    cases h
    refine ⟨hbusy, rfl, rfl, ?_, ?_⟩
    · simp [halvesDone, hsecond]
    · simpa [halvesDone, hsecond] using lineLevels_firstHalf hbit
  | true =>
    rw [txHalfStep_of_secondHalf hsecond (by omega)] at h
    cases h
    refine ⟨hbusy, ptrInc_bytes _, rfl, ?_, ?_⟩
    · simp [halvesDone, hsecond, ptrInc_pos_of_lt x.buf (by omega)]
      omega
    · simpa [halvesDone, hsecond] using lineLevels_secondHalf hbit

/-- A half step of a transmitting port that does not drive a half cell ends the frame. -/
theorem txHalfStep_of_allHalvesDone (hx : TxOk x) (hhalves : ¬ halvesDone x < 2 * x.dataEnd.val) :
    txHalfStep x = some { x with line := true, isTransmitting := false } := by
  obtain ⟨hle, -, -, hmid⟩ := hx.1 hbusy
  rw [halvesDone] at hhalves
  have hfirst : x.secondHalf = false := by
    rw [← Bool.not_eq_true]
    intro hsecond
    have := hmid hsecond
    rw [hsecond, Bool.toNat_true] at hhalves
    omega
  exact txHalfStep_of_finished hfirst (by rw [hfirst, Bool.toNat_false] at hhalves; omega)

end HalfCells

theorem lineOk_tickPort {x x' : TxPort} (hx : TxOk x) (h : tickPort x = some x') : LineOk x' := by
  cases hbusy : x.isTransmitting with
  | false =>
    rw [tickPort_of_idle hbusy] at h
    exact Option.some.inj h ▸ lineOk_of_idle hbusy
  | true =>
    rw [tickPort_of_transmitting hbusy] at h
    by_cases hhalves : halvesDone x < 2 * x.dataEnd.val
    · obtain ⟨-, hbytes, hend, hdone, hlevel⟩ := txHalfStep_halvesDone hbusy hhalves h
      refine fun _ => ⟨fun h0 => absurd (hdone.symm.trans h0) (by simp), fun k hk => ?_⟩
      obtain rfl : k = halvesDone x := by omega
      rw [bitsOf_congr hbytes, hend]
      exact hlevel
    · rw [txHalfStep_of_allHalvesDone hbusy hx hhalves] at h
      cases h
      exact lineOk_of_idle rfl

/-! ### The line in every step -/

theorem captureEdge_tx (q : Port) (ts : Ts) (rising : Bool) (s : State) : (captureEdge q ts rising s).tx = s.tx :=
  (captureEdge_frame q ts rising s).1

theorem lineOk_armPort {x : TxPort} (hx : TxOk x) (hidle : x.isTransmitting = false) : LineOk (armPort x) := fun _ =>
  ⟨fun _ => (hx.2.1 hidle).2, fun _ hk => absurd hk (by simp [halvesDone, armPort])⟩

theorem lineOk_effect {i : Instr} {s t : State} (hok : BlockOk s) (hline : ∀ q, LineOk (s.txPort q))
    (heffect : Effect i s t) (q : Port) : LineOk (t.txPort q) := by
  have hkept {u : State} (htx : u.tx = s.tx) : LineOk (u.txPort q) := by
    rw [State.txPort, htx]
    exact hline q
  cases heffect with
  | reset => exact txPort_reset q ▸ lineOk_of_idle rfl
  | answered | delaySet | shiftSet | irqSet | released => exact hkept rfl
  | captured p ts rising => exact hkept (captureEdge_tx p ts rising s)
  | decoded p now k r => exact hkept (decoderFrame_pollLoop p now k s).tx
  | staged p f hf hidle =>
    rw [answer_txPort, txPort_updateTargets]
    split
    · exact lineOk_of_idle (hf.idle (hidle q ‹_›))
    · exact hline q
  | armed p now hidle =>
    obtain ⟨-, -, -, -, hports⟩ := armTargets_frame p now (txIrqEnable s) s
    rw [answer_txPort, hports]
    split
    · exact lineOk_armPort (hok.tx q) (hidle q ‹_›)
    · exact hline q
  | ticked x hx => exact lineOk_tickPort (hok.tx q) (hx q)

/-- Settles O56: the fetch keeps the ports, and each effect of an operation keeps, idles, arms or ticks them. -/
theorem lineFollowsTheFrame : Obligations.LineFollowsTheFrame := by
  intro s t hinv hline hstep q
  obtain ⟨⟨-, htx, -, -⟩, -⟩ := fetch_frame s
  have hok := (inv_iff_blockOk.mp hinv).fetch
  have hline' (p : Port) : LineOk ((fetch s).1.txPort p) := by
    rw [State.txPort, htx]
    exact hline p
  rcases step_cases hstep with ⟨-, rfl⟩ | ⟨i, -, hexec⟩ | ⟨-, rfl⟩
  · exact hline' q
  · exact lineOk_effect hok hline' (effect_of_exec hexec) q
  · exact hline' q

/-! ### A frame tick by tick (R119, R120) -/

theorem exec_txTick_of_ok {s : State} (h : BlockOk s) (hrun : s.sys.fatal = false) :
    ∃ x, (∀ q, tickPort (s.txPort q) = some (x.get q)) ∧ exec .txTick s = .next (tickedInto x s) :=
  exec_txTick_of_running hrun fun q hbusy hnone => not_readsAtEnd (h.tx q) (readsAtEnd_iff.mpr ⟨hbusy, hnone⟩)

/-- From `s`, where port `q` was armed, `k` ticks led to `u` and the port has driven `k` half cells. -/
structure AfterTicks (q : Port) (s : State) (k : Nat) (u : State) : Prop where
  ok : BlockOk u
  running : u.sys.fatal = false
  cfg : u.cfg = s.cfg
  compare : u.sys.txCompare = s.sys.txCompare + BitVec.ofNat Config.tsBits k * s.cfg.halfDelay
  busy : (u.txPort q).isTransmitting = true
  bytes : (u.txPort q).buf.bytes = (s.txPort q).buf.bytes
  dataEnd : (u.txPort q).dataEnd = (s.txPort q).dataEnd
  halves : halvesDone (u.txPort q) = k

theorem compare_succ (c h : Ts) (k : Nat) :
    add16 (c + BitVec.ofNat Config.tsBits k * h) h = c + BitVec.ofNat Config.tsBits (k + 1) * h := by
  rw [add16, BitVec.ofNat_add, BitVec.add_mul, BitVec.one_mul, BitVec.add_assoc]

/-- One tick within the data. -/
theorem AfterTicks.succ {q : Port} {s u : State} {k : Nat} (h : AfterTicks q s k u)
    (hk : k < 2 * (s.txPort q).dataEnd.val) :
    ∃ v, exec .txTick u = .next v ∧ AfterTicks q s (k + 1) v ∧
      (lineLevels (bitsOf (s.txPort q).buf (s.txPort q).dataEnd.val))[k]? = some (v.txPort q).line := by
  obtain ⟨x, hx, hexec⟩ := exec_txTick_of_ok h.ok h.running
  have hstep := (tickPort_of_transmitting h.busy).symm.trans (hx q)
  obtain ⟨hbusy, hbytes, hend, hhalves, hlevel⟩ :=
    txHalfStep_halvesDone h.busy (by rw [h.halves, h.dataEnd]; exact hk) hstep
  refine ⟨tickedInto x u, hexec, ⟨h.ok.effect (.ticked (i := .txTick) x hx), h.running, h.cfg, ?_, hbusy,
    hbytes.trans h.bytes, hend.trans h.dataEnd, hhalves.trans (by rw [h.halves])⟩, ?_⟩
  · rw [← compare_succ, ← h.compare, ← h.cfg]
    rfl
  · rw [h.halves, bitsOf_congr h.bytes, h.dataEnd] at hlevel
    exact hlevel

/-- The tick after the last half cell releases the line. -/
theorem AfterTicks.release {q : Port} {s u : State} {k : Nat} (h : AfterTicks q s k u)
    (hk : ¬ k < 2 * (s.txPort q).dataEnd.val) :
    ∃ v, exec .txTick u = .next v ∧ (v.txPort q).line = true ∧ (v.txPort q).isTransmitting = false ∧
      v.sys.txCompare = s.sys.txCompare + BitVec.ofNat Config.tsBits (k + 1) * s.cfg.halfDelay := by
  obtain ⟨x, hx, hexec⟩ := exec_txTick_of_ok h.ok h.running
  have hstep := (tickPort_of_transmitting h.busy).symm.trans (hx q)
  rw [txHalfStep_of_allHalvesDone h.busy (h.ok.tx q) (by rw [h.halves, h.dataEnd]; exact hk)] at hstep
  have hport : (tickedInto x u).txPort q = _ := (Option.some.inj hstep).symm
  refine ⟨tickedInto x u, hexec, by rw [hport], by rw [hport], ?_⟩
  rw [← compare_succ, ← h.compare, ← h.cfg]
  rfl

theorem runOps_ticks {q : Port} {s : State} (h : AfterTicks q s 0 s) {k : Nat} (hk : k ≤ 2 * (s.txPort q).dataEnd.val) :
    ∃ u, runOps (List.replicate k .txTick) s = .next u ∧ AfterTicks q s k u := by
  induction k with
  | zero => exact ⟨s, rfl, h⟩
  | succ k ih =>
    obtain ⟨u, hu, hafter⟩ := ih (by omega)
    obtain ⟨v, hv, hafter', -⟩ := hafter.succ hk
    exact ⟨v, by rw [List.replicate_succ', runOps_append hu, runOps_cons hv]; rfl, hafter'⟩

/-- Settles O39: `k` ticks lead to `k` half cells driven, and one more drives the next or releases the line. -/
theorem frameWaveform : Obligations.FrameWaveform := by
  intro s q hinv hrun hbusy hfirst hpos L k hk
  have hstart : AfterTicks q s 0 s :=
    ⟨inv_iff_blockOk.mp hinv, hrun, rfl, by simp, hbusy, rfl, rfl, by simp [halvesDone, hfirst, hpos]⟩
  obtain ⟨u, hu, hafter⟩ := runOps_ticks hstart hk
  have hone {v : State} (hv : exec .txTick u = .next v) : runOps (List.replicate (k + 1) .txTick) s = .next v := by
    rw [List.replicate_succ', runOps_append hu, runOps_cons hv]
    rfl
  by_cases hlt : k < 2 * L
  · obtain ⟨v, hv, hafter', hlevel⟩ := hafter.succ hlt
    exact ⟨v, hone hv, hlevel, hafter'.busy.trans (decide_eq_true hlt).symm, hafter'.compare⟩
  · obtain ⟨v, hv, hline, hidle, hcompare⟩ := hafter.release hlt
    refine ⟨v, hone hv, ?_, hidle.trans (decide_eq_false hlt).symm, hcompare⟩
    obtain rfl : k = 2 * L := by omega
    simpa [length_bitsOf, hline] using lineLevels_release (bitsOf (s.txPort q).buf L)

end Sys2Proof.Proofs

/-! SUPPORT. The edges of a frame counted in half cells (spec/30_encoding.md R51): how far apart they are, where the last one is, and
that the edges in the middle of a cell carry the bits. -/

namespace Sys2Proof.Proofs

open Sys2Proof.Machine

/-! ### Edges by half cell -/

/-- The level changes a frame puts on an idle line, each with the number of half cells before it. -/
def halfEdges (bits : List Bool) : List (Nat × Bool) := frameEdges bits 0 1

theorem levelChanges_eq_map (prev : Bool) (t0 h k : Nat) (levels : List Bool) :
    levelChanges prev (t0 + k * h) h levels = (levelChanges prev k 1 levels).map fun e => (t0 + e.1 * h, e.2) := by
  induction levels generalizing prev k with
  | nil => rfl
  | cons l levels ih =>
    have hnext : t0 + k * h + h = t0 + (k + 1) * h := by ring
    rw [levelChanges, levelChanges, hnext, ih, ih]
    split <;> rfl

theorem frameEdges_eq_map (bits : List Bool) (t0 h : Nat) :
    frameEdges bits t0 h = (halfEdges bits).map fun e => (t0 + e.1 * h, e.2) := by
  rw [halfEdges, frameEdges, frameEdges, ← levelChanges_eq_map, Nat.zero_mul, Nat.add_zero]

/-- The edges of a frame from a cell that begins at half cell `k`, on a line at `prev`. -/
def edgesFrom (prev : Bool) (k : Nat) (bits : List Bool) : List (Nat × Bool) := levelChanges prev k 1 (lineLevels bits)

theorem edgesFrom_nil (prev : Bool) (k : Nat) : edgesFrom prev k [] = if prev then [] else [(k, true)] := by
  cases prev <;> rfl

/-- A bit equal to the level before it begins its cell with an edge; every bit has one in the middle of its cell. -/
theorem edgesFrom_cons (prev b : Bool) (k : Nat) (bits : List Bool) :
    edgesFrom prev k (b :: bits) =
      (if b = prev then [(k, !b)] else []) ++ (k + 1, b) :: edgesFrom b (k + 2) bits := by
  cases prev <;> cases b <;> rfl

theorem halfEdges_cons_true (bits : List Bool) :
    halfEdges (true :: bits) = (0, false) :: (1, true) :: edgesFrom true 2 bits := edgesFrom_cons true true 0 bits

/-- Two edges that follow one another: one half cell apart, or two. -/
def Near (e e' : Nat × Bool) : Prop := e.1 < e'.1 ∧ e'.1 ≤ e.1 + 2

theorem isChain_edgesFrom (j : Nat) (c : Bool) (bits : List Bool) :
    List.IsChain Near ((j, c) :: edgesFrom c (j + 1) bits) := by
  induction bits generalizing j c with
  | nil =>
    rw [edgesFrom_nil]
    cases c <;> simp [Near]
  | cons b bits ih =>
    have htail := ih (j + 2) b
    rw [edgesFrom_cons]
    split
    · exact .cons_cons (by simp [Near]) (.cons_cons (by simp [Near]) htail)
    · exact .cons_cons (by simp [Near]) htail

theorem isChain_halfEdges (bits : List Bool) : List.IsChain Near (halfEdges (true :: bits)) := by
  rw [halfEdges_cons_true]
  exact .cons_cons (by simp [Near]) (isChain_edgesFrom 1 true bits)

/-- The last edge is the middle of the last cell, or the release after it where the last bit is 0. -/
theorem getLast?_edgesFrom (j : Nat) (c : Bool) (bits : List Bool) :
    (((j, c) :: edgesFrom c (j + 1) bits).getLast?).map (·.1) =
      some (if (c :: bits).getLast? = some true then j + 2 * bits.length else j + 2 * bits.length + 1) := by
  induction bits generalizing j c with
  | nil =>
    rw [edgesFrom_nil]
    cases c <;> rfl
  | cons b bits ih =>
    have htail : (((j, c) :: edgesFrom c (j + 1) (b :: bits)).getLast?) =
        ((j + 2, b) :: edgesFrom b (j + 2 + 1) bits).getLast? := by
      rw [edgesFrom_cons]
      split <;> simp only [List.cons_append, List.nil_append, List.getLast?_cons_cons]
    rw [htail, ih, List.getLast?_cons_cons, List.length_cons, Nat.mul_succ]
    congr 1
    split <;> omega

theorem getLast?_halfEdges (bits : List Bool) :
    ((halfEdges (true :: bits)).getLast?).map (·.1) =
      some (if (true :: bits).getLast? = some true then 2 * (true :: bits).length - 1 else 2 * (true :: bits).length) := by
  rw [halfEdges_cons_true, List.getLast?_cons_cons, getLast?_edgesFrom, List.length_cons]
  congr 1
  split <;> omega

/-! ### The bits among the edges (R51, R121) -/

/-- The levels of the edges in the middle of a cell. -/
def storedBits (es : List (Nat × Bool)) : List Bool := (es.filter fun e => e.1 % 2 = 1).map (·.2)

theorem storedBits_append (xs ys : List (Nat × Bool)) : storedBits (xs ++ ys) = storedBits xs ++ storedBits ys := by
  simp [storedBits]

theorem storedBits_singleton_odd {e : Nat × Bool} (h : e.1 % 2 = 1) : storedBits [e] = [e.2] := by simp [storedBits, h]

theorem storedBits_singleton_even {e : Nat × Bool} (h : ¬ e.1 % 2 = 1) : storedBits [e] = [] := by simp [storedBits, h]

theorem storedBits_edgesFrom (prev : Bool) (m : Nat) (bits : List Bool) : storedBits (edgesFrom prev (2 * m) bits) = bits := by
  induction bits generalizing prev m with
  | nil =>
    rw [edgesFrom_nil]
    cases prev <;> simp [storedBits]
  | cons b bits ih =>
    have hfirst : storedBits (if b = prev then [(2 * m, !b)] else []) = [] := by
      split
      · exact storedBits_singleton_even (by simp)
      · rfl
    rw [edgesFrom_cons, storedBits_append, hfirst, ← List.singleton_append, storedBits_append,
      storedBits_singleton_odd (by omega), show 2 * m + 2 = 2 * (m + 1) by ring, ih]
    rfl

theorem storedBits_halfEdges (bits : List Bool) : storedBits (halfEdges bits) = bits := storedBits_edgesFrom true 0 bits

/-! ### A train of edges the decoder can follow -/

/-- Edge `e` can follow the edges `used`: the first is the falling edge of half cell 0, the next ones are near the one before, and a
bit to be stored finds room. -/
structure NextEdge (used : List (Nat × Bool)) (e : Nat × Bool) : Prop where
  first : used = [] → e = (0, false)
  near : ∀ e', used.getLast? = some e' → Near e' e
  room : e.1 % 2 = 1 → (storedBits used).length < Config.bufBits

/-- Every edge of the train can follow the edges before it. -/
def Train (es : List (Nat × Bool)) : Prop := ∀ used e rest, es = used ++ e :: rest → NextEdge used e

theorem train_halfEdges {bits : List Bool} (hlen : (true :: bits).length ≤ Config.bufBits) :
    Train (halfEdges (true :: bits)) := by
  intro used e rest hsplit
  refine ⟨?_, fun e' he' => ?_, fun hodd => ?_⟩
  · rintro rfl
    rw [halfEdges_cons_true] at hsplit
    exact (List.cons.inj hsplit).1.symm
  · have hchain := isChain_halfEdges bits
    rw [hsplit, List.isChain_append] at hchain
    exact hchain.2.2 e' he' e rfl
  · have hbits := storedBits_halfEdges (true :: bits)
    rw [hsplit, ← List.singleton_append, storedBits_append, storedBits_append, storedBits_singleton_odd hodd] at hbits
    have hcount := congrArg List.length hbits
    rw [List.length_append, List.length_append, List.length_singleton] at hcount
    omega

end Sys2Proof.Proofs

/-! SUPPORT. A decoder that receives the edges of a frame (spec/42_decoder.md R103 to R107, R121): what it holds after the edges it
used with others still queued, kept by RX.EDGE, by every micro-step and by every poll, and from it the round trip of the line code. -/

namespace Sys2Proof.Proofs

open Sys2Proof.Machine

/-! ### Bits read from a buffer -/

/-- A bit stored is the next one in reading order (R84). -/
theorem bitsOf_bufPut {b : PortBuffer} (hroom : b.pos.val < Config.bufBits) (v : Bool) :
    bitsOf (bufPut b v) (bufPut b v).pos.val = bitsOf b b.pos.val ++ [v] := by
  have hpos : (bufPut b v).pos.val = b.pos.val + 1 := (bufPut_pos b v).trans (Nat.min_eq_left hroom)
  have hold : (List.range b.pos.val).map (bufGet (bufPut b v)) = (List.range b.pos.val).map (bufGet b) :=
    List.map_congr_left fun n hn => by
      rw [List.mem_range] at hn
      rw [bufGet_bufPut b v (by omega), if_neg hn.ne]
  rw [bitsOf, hpos, List.range_succ, List.map_append, hold, List.map_singleton, bufGet_bufPut b v hroom, if_pos rfl]
  rfl

/-! ### Times mod 65536 -/

theorem toNat_sub16_later (x : Nat) {d : Nat} (hd : d < 65536) :
    (sub16 (BitVec.ofNat Config.tsBits (x + d)) (BitVec.ofNat Config.tsBits x)).toNat = d := by
  rw [sub16, BitVec.ofNat_add, BitVec.add_comm, BitVec.add_sub_cancel, BitVec.toNat_ofNat]
  exact Nat.mod_eq_of_lt hd

/-- One half cell is a short interval of the receiver, two are a long one (R8). -/
structure Timing (c : Cfg) : Prop where
  half : c.halfDelay.toNat ≤ c.shortThr.toNat
  cell : c.shortThr.toNat < 2 * c.halfDelay.toNat
  long : 2 * c.halfDelay.toNat ≤ c.longThr.toNat

theorem timing_of_cfgOk {c : Cfg} (h : CfgOk c) : Timing c := by
  obtain ⟨hlegal, hhalf, hshort, hlong, -, -⟩ := h
  obtain ⟨-, -, -, hhs, -, -, -, hsc, hcl⟩ := (legalDelayThresholds c.clockDelay).2 (legalDelay_eq_true_iff.mp hlegal)
  rw [← hhalf, ← hshort] at hhs hsc
  rw [← hhalf, ← hlong] at hcl
  exact ⟨hhs, hsc, hcl⟩

/-- When an edge of a frame sent from `t0` with the receiver's half delay comes. -/
def edgeTime (c : Cfg) (t0 : Nat) (e : Nat × Bool) : Nat := t0 + e.1 * c.halfDelay.toNat

/-- The counter value `d` ticks after an edge. -/
abbrev timeAfter (c : Cfg) (t0 : Nat) (e : Nat × Bool) (d : Nat) : Ts := BitVec.ofNat Config.tsBits (edgeTime c t0 e + d)

/-- The snapshot of an edge. -/
def edgeSnap (c : Cfg) (t0 : Nat) (e : Nat × Bool) : Snapshot :=
  { ts := BitVec.ofNat Config.tsBits (edgeTime c t0 e), rising := e.2 }

/-- The decoder after edge `e`: in the half cell the edge begins. -/
def decoderAt (c : Cfg) (t0 : Nat) (e : Nat × Bool) : Decoder :=
  { state := .decoding
    phase := BitVec.ofNat Config.phaseBits e.1
    refTs := (edgeSnap c t0 e).ts
    halfCycles := BitVec.ofNat Config.hcBits e.1 }

theorem edgeTime_later (c : Cfg) (t0 : Nat) {e e' : Nat × Bool} {adv : Nat} (h : e.1 = e'.1 + adv) :
    edgeTime c t0 e = edgeTime c t0 e' + adv * c.halfDelay.toNat := by
  rw [edgeTime, edgeTime, h]
  ring

/-! ### A port in the middle of a frame -/

/-- Port `q` received a frame's edges, sent from `t0`: the decoder used the edges `used`, and `queued` wait in its ring. No
package was completed: the strobe is the one at the beginning, `o`. -/
structure Receiving (q : Port) (c : Cfg) (t0 : Nat) (o : Option Port) (used queued : List (Nat × Bool)) (s : State) : Prop where
  running : s.sys.fatal = false
  cfg : s.cfg = c
  strobe : s.out.rxDone = o
  free : (s.rxPort q).isDataBuffered = false
  fits : (s.rxPort q).buf.overflowed = false
  queue : ringQueue (s.rxPort q).ring = queued.map (edgeSnap c t0)
  waiting : used = [] → (s.rxPort q).dec.state = .start
  reading : ∀ e, used.getLast? = some e → (s.rxPort q).dec = decoderAt c t0 e
  bits : used ≠ [] → bitsOf (s.rxPort q).buf (s.rxPort q).buf.pos.val = storedBits used

section Receiving

variable {q : Port} {c : Cfg} {t0 : Nat} {o : Option Port} {used queued : List (Nat × Bool)} {s : State}

theorem Receiving.answer (h : Receiving q c t0 o used queued s) (code : U8) (r : Record) :
    Receiving q c t0 o used queued (s.answer code r) :=
  ⟨h.running, h.cfg, h.strobe, h.free, h.fits, h.queue, h.waiting, h.reading, h.bits⟩

theorem Receiving.count (h : Receiving q c t0 o used queued s) : ringCount (s.rxPort q).ring = queued.length := by
  rw [← length_ringQueue, h.queue, List.length_map]

/-- RX.EDGE with room queues the edge (R97). -/
theorem Receiving.captured (h : Receiving q c t0 o used queued s) (hroom : queued.length < 28) (e : Nat × Bool) :
    ∃ t, exec (.rxEdge (argOf q) (BitVec.ofNat Config.tsBits (edgeTime c t0 e)) e.2) s = .next t ∧
      Receiving q c t0 o used (queued ++ [e]) t := by
  have hring : ringFull (s.rxPort q).ring = false := by
    rw [← Bool.not_eq_true, ringFull_iff_count, h.count]
    omega
  refine ⟨_, (exec_rxEdge_of_running h.running ..).trans (congrArg _ (captureEdge_of_room hring ..)), ?_⟩
  constructor <;> simp only [setRx_sys, setRx_cfg, setRx_out, rxPort_setRx_self]
  case queue => rw [ringQueue_enqueue hring, h.queue, List.map_append]; rfl
  case running => exact h.running
  case cfg => exact h.cfg
  case strobe => exact h.strobe
  case free => exact h.free
  case fits => exact h.fits
  case waiting => exact h.waiting
  case reading => exact h.reading
  case bits => exact h.bits

/-! ### One micro-step -/

/-- The oldest snapshot is the edge that waits first. -/
theorem Receiving.oldest {e : Nat × Bool} (h : Receiving q c t0 o used (e :: queued) s) :
    (s.rxPort q).ring.start ≠ (s.rxPort q).ring.stop ∧ ringPeek (s.rxPort q).ring = edgeSnap c t0 e ∧
      ringQueue (ringDequeue (s.rxPort q).ring) = queued.map (edgeSnap c t0) := by
  have hne : ringEmpty (s.rxPort q).ring = false := by
    rw [← Bool.not_eq_true, ringEmpty_iff_count, h.count]
    exact Nat.succ_ne_zero _
  have hqueue := h.queue
  rw [ringQueue_eq_cons hne, List.map_cons] at hqueue
  obtain ⟨hpeek, hrest⟩ := List.cons.inj hqueue
  exact ⟨ringEmpty_eq_false_iff.mp hne, hpeek, hrest⟩

/-- The first edge falls and begins a package (R103). -/
theorem Receiving.step_first (h : Receiving q c t0 o [] ((0, false) :: queued) s) (now : Ts) :
    ∃ t, microStep q now s = (t, .again) ∧ Receiving q c t0 o [(0, false)] queued t := by
  obtain ⟨hne, hpeek, hrest⟩ := h.oldest
  refine ⟨_, (microStep_start now h.running (h.waiting rfl)).trans (stepStart_of_falling h.free hne (by rw [hpeek]; rfl)), ?_⟩
  constructor <;> simp only [setRx_sys, setRx_cfg, setRx_out, rxPort_setRx_self]
  case running => exact h.running
  case cfg => exact h.cfg
  case strobe => exact h.strobe
  case free => exact h.free
  case fits => exact h.fits
  case queue => exact hrest
  case waiting => exact nofun
  case reading =>
    intro e he
    obtain rfl : (0, false) = e := Option.some.inj he
    rw [hpeek]
    rfl
  case bits => exact fun _ => rfl

/-- The interval to an edge `adv` half cells after the reference selects the advance `adv` (R100, R104). -/
theorem Receiving.stepQueued_eq {e e' : Nat × Bool} (hc : Timing c) (h : Receiving q c t0 o used (e :: queued) s)
    (hlast : used.getLast? = some e') {adv : Nat} (hadv : e.1 = e'.1 + adv) (hpos : 0 < adv) (htwo : adv ≤ 2) :
    stepQueued q s = (consume q adv (edgeSnap c t0 e) s, .again) := by
  obtain ⟨hhalf, hcell, hlong⟩ := hc
  obtain ⟨-, hpeek, -⟩ := h.oldest
  have hbound : c.longThr.toNat < 65536 := c.longThr.isLt
  have hdelta : (sub16 (edgeSnap c t0 e).ts (decoderAt c t0 e').refTs).toNat = adv * c.halfDelay.toNat := by
    rw [decoderAt, edgeSnap, edgeSnap, edgeTime_later c t0 hadv]
    refine toNat_sub16_later _ ?_
    calc adv * c.halfDelay.toNat ≤ 2 * c.halfDelay.toNat := Nat.mul_le_mul_right _ htwo
      _ < 65536 := by omega
  have hclass : queuedInterval q s =
      classify c.shortThr c.longThr (sub16 (edgeSnap c t0 e).ts (decoderAt c t0 e').refTs) := by
    rw [queuedInterval, hpeek, h.reading e' hlast, h.cfg]
  rcases (show adv = 1 ∨ adv = 2 by omega) with rfl | rfl
  · rw [stepQueued_of_short (hclass.trans (classify_eq_short (by omega))), hpeek]
  · rw [stepQueued_of_long (hclass.trans (classify_eq_long (by omega) (by omega))), hpeek]

/-- The counters reach the half cell of the next edge. -/
theorem Receiving.advance_eq {e e' : Nat × Bool} (h : Receiving q c t0 o used queued s) (hlast : used.getLast? = some e')
    {adv : Nat} (hadv : e.1 = e'.1 + adv) :
    advance adv (s.rxPort q) =
      { s.rxPort q with
        ring := ringDequeue (s.rxPort q).ring
        dec := { decoderAt c t0 e with refTs := (edgeSnap c t0 e').ts } } := by
  rw [advance, h.reading e' hlast, decoderAt, decoderAt, hadv, BitVec.ofNat_add]

/-- An edge is consumed into a buffer that reads the bits up to it. -/
theorem Receiving.consumed {e e' : Nat × Bool} (h : Receiving q c t0 o used (e :: queued) s) (hlast : used.getLast? = some e')
    {adv : Nat} (hadv : e.1 = e'.1 + adv) {b : PortBuffer} (hfits : b.overflowed = false)
    (hbits : bitsOf b b.pos.val = storedBits (used ++ [e])) :
    Receiving q c t0 o (used ++ [e]) queued (consumedInto q adv (edgeSnap c t0 e) b s) := by
  obtain ⟨-, -, hrest⟩ := h.oldest
  have hport : (consumedInto q adv (edgeSnap c t0 e) b s).rxPort q =
      { s.rxPort q with ring := ringDequeue (s.rxPort q).ring, dec := decoderAt c t0 e, buf := b } := by
    rw [consumedInto_rxPort_self, h.advance_eq hlast hadv]
    rfl
  refine ⟨h.running, h.cfg, h.strobe, ?_, ?_, ?_, by simp, fun x hx => ?_, fun _ => ?_⟩ <;> rw [hport]
  · exact h.free
  · exact hfits
  · exact hrest
  · rw [List.getLast?_concat] at hx
    rw [Option.some.inj hx]
  · exact hbits

/-- A later edge is consumed; in the middle of a cell its level is stored (R104). -/
theorem Receiving.step_next {e e' : Nat × Bool} (hc : Timing c) (h : Receiving q c t0 o used (e :: queued) s)
    (hlast : used.getLast? = some e') (hnext : NextEdge used e) (now : Ts) :
    ∃ t, microStep q now s = (t, .again) ∧ Receiving q c t0 o (used ++ [e]) queued t := by
  obtain ⟨hne, -, -⟩ := h.oldest
  obtain ⟨hlater, hnear⟩ := hnext.near e' hlast
  obtain ⟨adv, hadv⟩ := Nat.exists_eq_add_of_le hlater.le
  have hdecoding : (s.rxPort q).dec.state = .decoding := by rw [h.reading e' hlast]; rfl
  have hbits := h.bits (by rintro rfl; cases hlast)
  have hmicro := (microStep_queued now h.running hdecoding hne).trans
    (h.stepQueued_eq hc hlast hadv (by omega) (by omega))
  have hparity : (advance adv (s.rxPort q)).dec.phase.toNat % 2 = e.1 % 2 := by
    rw [h.advance_eq hlast hadv, decoderAt, BitVec.toNat_ofNat]
    exact Nat.mod_mod_of_dvd _ (by decide)
  by_cases hodd : e.1 % 2 = 1
  · have hroom : (s.rxPort q).buf.pos.val < Config.bufBits := by
      have hlen := congrArg List.length hbits
      rw [length_bitsOf] at hlen
      exact hlen ▸ hnext.room hodd
    rw [consume_of_odd_of_room _ (hparity.trans hodd) hroom] at hmicro
    refine ⟨_, hmicro, h.consumed hlast hadv ((bufPut_overflowed_of_room hroom _).trans h.fits) ?_⟩
    rw [bitsOf_bufPut hroom, hbits, storedBits_append, storedBits_singleton_odd hodd]
    rfl
  · rw [consume_of_even _ (by rwa [hparity])] at hmicro
    refine ⟨_, hmicro, h.consumed hlast hadv h.fits ?_⟩
    rw [hbits, storedBits_append, storedBits_singleton_even hodd, List.append_nil]

theorem Receiving.step {e : Nat × Bool} (hc : Timing c) (h : Receiving q c t0 o used (e :: queued) s)
    (hnext : NextEdge used e) (now : Ts) :
    ∃ t, microStep q now s = (t, .again) ∧ Receiving q c t0 o (used ++ [e]) queued t := by
  cases hlast : used.getLast? with
  | none =>
    obtain rfl := List.getLast?_eq_none_iff.mp hlast
    obtain rfl := hnext.first rfl
    exact h.step_first now
  | some e' => exact h.step_next hc hlast hnext now

/-! ### A poll (R107) -/

/-- A poll first uses every queued edge. -/
theorem Receiving.drained {es rest : List (Nat × Bool)} (hc : Timing c) (htrain : Train es)
    (hes : es = used ++ (queued ++ rest)) (h : Receiving q c t0 o used queued s) (now : Ts) (m : Nat) :
    ∃ t, pollLoop q now (queued.length + m) s = pollLoop q now m t ∧ Receiving q c t0 o (used ++ queued) [] t := by
  induction queued generalizing used s with
  | nil => exact ⟨s, by rw [List.length_nil, Nat.zero_add], by rwa [List.append_nil]⟩
  | cons e queued ih =>
    obtain ⟨t, hstep, ht⟩ := h.step hc (htrain used e (queued ++ rest) hes) now
    obtain ⟨u, hloop, hu⟩ := ih (used := used ++ [e]) (by simp [hes]) ht
    refine ⟨u, ?_, by simpa using hu⟩
    rw [List.length_cons, Nat.add_right_comm, pollLoop_succ, hstep]
    exact hloop

/-- With no edge queued the decoder checks how long the line is silent (R105). -/
theorem Receiving.microStep_silent {e : Nat × Bool} (h : Receiving q c t0 o used [] s) (hlast : used.getLast? = some e)
    (now : Ts) : microStep q now s = stepTimeout q now s := by
  refine microStep_timeout now h.running (by rw [h.reading e hlast]; rfl) ?_
  rw [← ringEmpty_iff, ringEmpty_iff_count, h.count]
  rfl

theorem Receiving.silence {e : Nat × Bool} (h : Receiving q c t0 o used queued s) (hlast : used.getLast? = some e) {d : Nat}
    (hd : d < 65536) :
    (sub16 (timeAfter c t0 e d) (s.rxPort q).dec.refTs).toNat = d := by
  rw [h.reading e hlast]
  exact toNat_sub16_later _ hd

/-- A poll before the timeout uses the queued edges and waits for more. -/
theorem Receiving.polled {es rest : List (Nat × Bool)} {e : Nat × Bool} (hc : Timing c) (htrain : Train es)
    (hes : es = used ++ (queued ++ rest)) (h : Receiving q c t0 o used queued s) (hlast : (used ++ queued).getLast? = some e)
    {d : Nat} (hd : d < 2 * c.clockDelay.toNat) (hd' : d < 65536) :
    ∃ t, exec (.rxPoll (argOf q) (timeAfter c t0 e d)) s = .next t ∧
      Receiving q c t0 o (used ++ queued) [] t := by
  obtain ⟨t, hloop, ht⟩ := h.drained hc htrain hes (timeAfter c t0 e d) 3
  have hwait : ¬ 2 * t.cfg.clockDelay.toNat ≤ (sub16 (timeAfter c t0 e d) (t.rxPort q).dec.refTs).toNat := by
    rw [ht.silence hlast hd', ht.cfg]
    omega
  have hstep := (ht.microStep_silent hlast _).trans (stepTimeout_of_waiting hwait)
  rw [pollLoop_succ q _ 2 t, hstep] at hloop
  refine ⟨_, exec_rxPoll .., ?_⟩
  rw [pollBound, h.count, hloop]
  exact ht.answer ..

/-- Any polls before the timeout; after the first one no edge is queued. -/
theorem Receiving.polls {es rest : List (Nat × Bool)} {e : Nat × Bool} (hc : Timing c) (htrain : Train es)
    (hes : es = used ++ (queued ++ rest)) (h : Receiving q c t0 o used queued s) (hlast : (used ++ queued).getLast? = some e)
    {ds : List Nat} (hds : ∀ d ∈ ds, d < 2 * c.clockDelay.toNat ∧ d < 65536) :
    ∃ used' queued' t,
      runOps (ds.map fun d => .rxPoll (argOf q) (timeAfter c t0 e d)) s = .next t ∧ used' ++ queued' = used ++ queued ∧
        queued'.length ≤ queued.length ∧ (ds ≠ [] → queued' = []) ∧ Receiving q c t0 o used' queued' t := by
  induction ds generalizing used queued s with
  | nil => exact ⟨used, queued, s, rfl, rfl, le_rfl, fun hne => absurd rfl hne, h⟩
  | cons d ds ih =>
    obtain ⟨hd, hd'⟩ := hds d List.mem_cons_self
    obtain ⟨t, hpoll, ht⟩ := h.polled hc htrain hes hlast hd hd'
    obtain ⟨used', queued', u, hrun, hsplit, hlen, -, hu⟩ :=
      ih (used := used ++ queued) (queued := []) (by simp [hes]) ht (by rwa [List.append_nil])
        fun d hd => hds d (List.mem_cons_of_mem _ hd)
    obtain rfl := List.eq_nil_of_length_eq_zero (Nat.le_zero.mp hlen)
    exact ⟨used', [], u, (runOps_cons hpoll).trans hrun, hsplit.trans (List.append_nil _), Nat.zero_le _, fun _ => rfl, hu⟩

/-- A poll at the timeout or later uses the queued edges and completes the package (R105, R106). -/
theorem Receiving.completed {es : List (Nat × Bool)} {e : Nat × Bool} (hc : Timing c) (htrain : Train es)
    (hes : es = used ++ queued) (h : Receiving q c t0 o used queued s) (hlast : es.getLast? = some e)
    {d : Nat} (hd : 2 * c.clockDelay.toNat ≤ d) (hd' : d < 65536) :
    ∃ t, exec (.rxPoll (argOf q) (timeAfter c t0 e d)) s = .next t ∧
      (t.rxPort q).isDataBuffered = true ∧ t.out.rxDone = some q ∧ t.out.rdata = .stepped .done ∧
      (t.rxPort q).buf.overflowed = false ∧ bitsOf (t.rxPort q).buf (t.rxPort q).buf.pos.val = storedBits es ∧
      (t.rxPort q).dec.halfCycles = BitVec.ofNat Config.hcBits e.1 := by
  obtain ⟨t, hloop, ht⟩ := h.drained (rest := []) hc htrain (by rw [List.append_nil, hes]) (timeAfter c t0 e d) 3
  rw [← hes] at ht
  have helapsed : 2 * t.cfg.clockDelay.toNat ≤ (sub16 (timeAfter c t0 e d) (t.rxPort q).dec.refTs).toNat := by
    rwa [ht.silence hlast hd', ht.cfg]
  have hend := (ht.microStep_silent hlast _).trans (stepTimeout_of_elapsed helapsed)
  have hdone := microStep_complete (q := q) (s := setDecState q .postTimeoutProcess t) (timeAfter c t0 e d) ht.running (by simp)
  rw [pollLoop_succ q _ 2 t, hend, if_pos rfl, pollLoop_succ q _ 1, hdone] at hloop
  have hes' : es ≠ [] := by
    rintro rfl
    cases hlast
  have hloop' : pollLoop q (timeAfter c t0 e d) (pollBound q s) s = stepComplete q (setDecState q .postTimeoutProcess t) := by
    rw [pollBound, h.count]
    exact hloop
  refine ⟨_, exec_rxPoll .., ?_⟩
  rw [hloop']
  simp only [answer_rxPort, answer_rxDone, answer_rdata, stepComplete_rxPort_self, setDecState_rxPort_self]
  refine ⟨trivial, rfl, rfl, ht.fits, ht.bits hes', ?_⟩
  rw [ht.reading e hlast]
  rfl

end Receiving

/-! ### The edges of a frame, polled often -/

theorem deliveries_cons (q : Port) (x : (Nat × Bool) × List Nat) (tr : List ((Nat × Bool) × List Nat)) :
    deliveries q (x :: tr) =
      .rxEdge (argOf q) (BitVec.ofNat Config.tsBits x.1.1) x.1.2 ::
        ((x.2.map fun d => .rxPoll (argOf q) (BitVec.ofNat Config.tsBits (x.1.1 + d))) ++ deliveries q tr) := rfl

theorem polledOften_of_append {xs tr : List ((Nat × Bool) × List Nat)} (h : PolledOften (xs ++ tr)) : PolledOften tr := by
  intro i hi
  obtain ⟨j, hlo, hhi, x, hx, hne⟩ := h (xs.length + i) (by rw [List.length_append]; omega)
  refine ⟨j - xs.length, by omega, by omega, x, ?_, hne⟩
  rwa [List.getElem?_append_right (by omega)] at hx

/-- Edges without a poll that another edge follows are fewer than 28. -/
theorem length_lt_of_polledOften {xs tr : List ((Nat × Bool) × List Nat)} {x : (Nat × Bool) × List Nat}
    (h : PolledOften (xs ++ x :: tr)) (hxs : ∀ y ∈ xs, y.2 = []) : xs.length < 28 := by
  by_contra hlong
  obtain ⟨j, hlo, hhi, y, hy, hne⟩ := h (xs.length - 28) (by rw [List.length_append, List.length_cons]; omega)
  rw [List.getElem?_append_left (by omega)] at hy
  exact hne (hxs y (List.mem_of_getElem? hy))

/-- The edges still to come, with `unpolled` delivered since the last poll: each finds room and is received. -/
theorem Receiving.delivered {q : Port} {c : Cfg} {t0 : Nat} {o : Option Port} {es : List (Nat × Bool)} (hc : Timing c)
    (htrain : Train es) {tr unpolled : List ((Nat × Bool) × List Nat)} {used queued rest : List (Nat × Bool)} {s : State}
    (hes : es = used ++ (queued ++ rest)) (htr : tr.map (·.1) = rest.map fun e => (edgeTime c t0 e, e.2))
    (hoften : PolledOften (unpolled ++ tr)) (hunpolled : ∀ x ∈ unpolled, x.2 = []) (hlen : queued.length ≤ unpolled.length)
    (hds : ∀ x ∈ tr, ∀ d ∈ x.2, d < 2 * c.clockDelay.toNat ∧ d < 65536) (h : Receiving q c t0 o used queued s) :
    ∃ used' queued' u, runOps (deliveries q tr) s = .next u ∧ es = used' ++ queued' ∧ Receiving q c t0 o used' queued' u := by
  induction tr generalizing unpolled used queued rest s with
  | nil =>
    obtain rfl := List.map_eq_nil_iff.mp htr.symm
    exact ⟨used, queued, s, rfl, by rw [hes, List.append_nil], h⟩
  | cons x tr ih =>
    obtain ⟨e, rest, rfl, hx, htail⟩ := List.map_eq_cons_iff.mp htr.symm
    obtain ⟨⟨time, level⟩, ds⟩ := x
    obtain ⟨rfl, rfl⟩ := Prod.mk.inj hx
    obtain ⟨t, hedge, ht⟩ := h.captured (hlen.trans_lt (length_lt_of_polledOften hoften hunpolled)) e
    have hsplit : es = used ++ ((queued ++ [e]) ++ rest) := by simp [hes]
    obtain ⟨used', queued', u, hpolls, hsame, hfewer, hdrained, hu⟩ :=
      ht.polls hc htrain hsplit (by rw [← List.append_assoc, List.getLast?_concat]) (hds _ List.mem_cons_self)
    have hes' : es = used' ++ (queued' ++ rest) := by rw [hsplit, ← List.append_assoc, ← hsame, List.append_assoc]
    have hds' : ∀ x ∈ tr, ∀ d ∈ x.2, d < 2 * c.clockDelay.toNat ∧ d < 65536 := fun x hx => hds x (List.mem_cons_of_mem _ hx)
    have hoften' : PolledOften ((unpolled ++ [((edgeTime c t0 e, e.2), ds)]) ++ tr) := by rwa [List.append_assoc]
    rw [deliveries_cons, runOps_cons hedge, runOps_append hpolls]
    cases ds with
    | nil =>
      refine ih hes' htail.symm hoften' (fun y hy => ?_) ?_ hds' hu
      · rcases List.mem_append.mp hy with hy | hy
        · exact hunpolled y hy
        · rw [List.mem_singleton.mp hy]
      · rw [List.length_append] at hfewer ⊢
        exact hfewer.trans (Nat.add_le_add_right hlen _)
    | cons d ds =>
      obtain rfl := hdrained (List.cons_ne_nil _ _)
      exact ih (unpolled := []) hes' htail.symm (polledOften_of_append hoften') nofun le_rfl hds' hu

/-- A port with nothing held or queued, its decoder in START, is at the beginning of a frame. -/
theorem receiving_start {s : State} {q : Port} (hinv : Inv s) (hrun : s.sys.fatal = false)
    (hdec : (s.rxPort q).dec.state = .start) (hfree : (s.rxPort q).isDataBuffered = false)
    (hempty : ringEmpty (s.rxPort q).ring = true) (t0 : Nat) : Receiving q s.cfg t0 s.out.rxDone [] [] s where
  running := hrun
  cfg := rfl
  strobe := rfl
  free := hfree
  fits := by
    obtain ⟨-, -, hfits⟩ := (inv_iff_blockOk.mp hinv).running_rx hrun q
    exact hfits
  queue := List.eq_nil_of_length_eq_zero ((length_ringQueue _).trans ((ringEmpty_iff_count _).mp hempty))
  waiting _ := hdec
  reading := nofun
  bits hne := absurd rfl hne

/-- Settles O59: the deliveries leave the port with every edge of the frame used or queued, and the poll after the timeout completes a
package of the bits those edges carry. -/
theorem manchesterRoundTrip : Obligations.ManchesterRoundTrip := by
  intro s q bits t0 last silence tr hinv hrun hdec hfree hempty hlen hhead htr hoften hds hlast hlo hhi
  obtain ⟨bits, rfl⟩ := List.head?_eq_some_iff.mp hhead
  have hc := timing_of_cfgOk hinv.1
  have htrain := train_halfEdges hlen
  rw [frameEdges_eq_map] at htr
  obtain ⟨used, queued, u, hrunOps, hsplit, hu⟩ :=
    (receiving_start hinv hrun hdec hfree hempty t0).delivered hc htrain (unpolled := []) (rest := halfEdges (true :: bits)) rfl
      htr hoften nofun le_rfl fun x hx d hd => ⟨hds x hx d hd, by have := hds x hx d hd; omega⟩
  have hcells := getLast?_halfEdges bits
  obtain ⟨e, he, hcell⟩ := Option.map_eq_some_iff.mp hcells
  obtain rfl : edgeTime s.cfg t0 e = last := by
    have htrlast := congrArg List.getLast? htr
    rw [List.getLast?_map, List.getLast?_map, he] at htrlast
    obtain ⟨x, hx, htime⟩ := Option.map_eq_some_iff.mp hlast
    rw [hx] at htrlast
    exact (congrArg Prod.fst (Option.some.inj htrlast)).symm.trans htime
  obtain ⟨t, hpoll, hheld, hdone, hrdata, hfits, hbits, hcycles⟩ := hu.completed hc htrain hsplit he hlo hhi
  rw [storedBits_halfEdges] at hbits
  have hpos : (t.rxPort q).buf.pos.val = (true :: bits).length := by
    rw [← hbits, length_bitsOf]
  refine ⟨u, t, hrunOps, hu.free, hu.strobe, hpoll, hheld, hdone, hrdata, hpos, hpos ▸ hbits, hfits, ?_⟩
  rw [hcycles, ← hcell, BitVec.toNat_ofNat]
  refine Nat.mod_eq_of_lt ?_
  calc e.1 ≤ 2 * (true :: bits).length := by rw [hcell]; split <;> omega
    _ ≤ 2 * 72 := Nat.mul_le_mul_left 2 hlen
    _ < 256 := by decide

end Sys2Proof.Proofs
